-- ==== Sys2Proof/Word.lean ====
section
/-! DEFINITION. The words of the host bus and the numbers of the block.

Bus words, command words and registers are bit vectors (R8, R10). A number of the block's number type (R13) is a `Num`: in the
`EXACT` profile a closed term over the numeric primitives of R12 (log 1). -/

namespace Sys2Proof

/-- A command word, control register or argument register: 32 bits (R8). -/
abbrev Word := BitVec 32

/-- A parameter register P0-P3: 64 bits (R8, R18). -/
abbrev DWord := BitVec 64

/-- A host bus byte address: 24 bits (R8, R45). -/
abbrev BusAddr := BitVec 24

/-- The UNIT field of a command word: 6 bits (R62). -/
abbrev UnitIdx := BitVec 6

/-- A number of the block (R13). In the `EXACT` profile it is a closed term over the primitives of R12; in a build's profile it is
one of that build's own numbers, `built`. `Num.toReal` (Machine/Exact.lean) says which real number a term is (DESIGN CHOICE,
log 1). -/
inductive Num where
  /-- The number `q * pi^k`; every rational is `mono q 0`. -/
  | mono (q : ℚ) (k : ℤ)
  /-- The unspecified finite number sample word `addr` holds after hardware reset number `epoch` (R131, log 6). -/
  | held (epoch addr : Nat)
  /-- Number `code` of the number type of build number `profile` (R13, log 1). -/
  | built (profile code : Nat)
  | add (a b : Num)
  | sub (a b : Num)
  | mul (a b : Num)
  | div (a b : Num)
  | sqrt (a : Num)
  | sin (a : Num)
  | cos (a : Num)
  | exp (a : Num)
  | atan2 (y x : Num)
  | frac (a : Num)
  | abs (a : Num)
  | max (a b : Num)
  | min (a b : Num)
deriving DecidableEq, Repr

/-- The rational `q` as a number. -/
abbrev Num.rat (q : ℚ) : Num := .mono q 0

/-- The number 0. -/
abbrev Num.zero : Num := .mono 0 0

end Sys2Proof
end

