-- ==== Sys2Proof/Config.lean ====
section
/-! DEFINITION. The parameter record of R7, which the machine takes as an argument (`State.cfg`, log 15), and the free values: what
the spec leaves open and the model does not choose. A free value is an opaque constant: nothing can evaluate it. -/

namespace Sys2Proof

/-- The numeric profile `NUM` of R13: the reference reading, or the profile of build number `n` (log 1). -/
inductive Profile where
  | exact
  | build (n : Nat)
deriving DecidableEq, Repr

/-- The numeric primitives of R12 that a profile gives its own functions for (R13); `lit q` is the constant `q`. R12's `floor` stands
in no rule but inside `frac` and in exact integer arithmetic (R84, R113). -/
inductive Primitive where
  | lit (q : ℚ)
  | pi | add | sub | mul | div | sqrt | sin | cos | exp | atan2 | frac | clamp | max | min | abs
deriving DecidableEq, Repr

/-- The parameter record (R7), each field under its name there. -/
structure Params where
  /-- SM_WORDS. -/
  smWords : Nat
  /-- MAX_BLOCK. -/
  maxBlock : Nat
  /-- MAX_TAPS. -/
  maxTaps : Nat
  nFir : Nat
  nShf : Nat
  nRds : Nat
  nCds : Nat
  nFmd : Nat
  nAmd : Nat
  nSsb : Nat
  nSts : Nat
  nDem : Nat
  nAgc : Nat
  nDcb : Nat
  /-- HILBERT_TAPS. -/
  hilbertTaps : Nat
  /-- AM_HP_HZ. -/
  amHpHz : ℚ
  /-- PILOT_HZ. -/
  pilotHz : ℚ
  pllBwHz : ℚ
  pllZeta : ℚ
  pllKd : ℚ
  pllErrHz : ℚ
  pllPullHz : ℚ
  pllAmpTau : ℚ
  pllThresh : ℚ
  /-- AGC_EPS. -/
  agcEps : ℚ
  /-- NUM. -/
  num : Profile
  /-- ID_VALUE. -/
  idValue : Word
deriving DecidableEq, Repr

/-- The number of slots for unit instances of a kind: one for each value of the UNIT field (R62). `N_K` of them are valid (R9). -/
abbrev unitSlots : Nat := 64

/-- What the parameters of a WRS-DSP satisfy: `N_K` in 1..64 (R7), odd kernel lengths (R7, R92), a sample-memory window inside the
24-bit bus (R45), and, where R7 says nothing, what makes every rule of the command families meaningful (DEDUCED, log 15: safe). -/
structure Params.Legal (c : Params) : Prop where
  units : ∀ n ∈ [c.nFir, c.nShf, c.nRds, c.nCds, c.nFmd, c.nAmd, c.nSsb, c.nSts, c.nDem, c.nAgc, c.nDcb], 1 ≤ n ∧ n ≤ unitSlots
  window : 1 ≤ c.smWords ∧ 0x400000 + 4 * c.smWords ≤ 2 ^ 24
  block : 1 ≤ c.maxBlock ∧ c.maxBlock < 2 ^ 32
  taps : c.maxTaps % 2 = 1 ∧ c.maxTaps < 2 ^ 32
  hilbert : c.hilbertTaps % 2 = 1 ∧ 3 ≤ c.hilbertTaps
  positive : ∀ q ∈ [c.amHpHz, c.pilotHz, c.pllBwHz, c.pllZeta, c.pllKd, c.pllErrHz, c.pllPullHz, c.pllAmpTau, c.pllThresh, c.agcEps],
    0 < q

end Sys2Proof

namespace Sys2Proof.Config

/-- The record at the values R7 gives this spec's WRS-DSP. -/
def wrsDsp : Params where
  smWords := 1048576
  maxBlock := 262144
  maxTaps := 1023
  nFir := 4
  nShf := 4
  nRds := 4
  nCds := 4
  nFmd := 4
  nAmd := 4
  nSsb := 4
  nSts := 4
  nDem := 4
  nAgc := 4
  nDcb := 4
  hilbertTaps := 151
  amHpHz := 20
  pilotHz := 19000
  pllBwHz := 50
  pllZeta := 707 / 1000
  pllKd := 1 / 20
  pllErrHz := 2000
  pllPullHz := 100
  pllAmpTau := 1 / 20
  pllThresh := 1 / 50
  agcEps := 1 / 1000000
  num := .exact
  idValue := 0x57445301#32

/-- FREE VALUE (log 6): the finite number sample word `addr` holds after hardware reset number `epoch`
("unspecified: each word holds some finite number (any value)", R131, U1). -/
opaque heldSample (epoch addr : Nat) : ℚ

/-- FREE VALUE (log 1): the number that build `n`'s function for a primitive gives on its operands ("What F is and how each primitive
rounds is left OPEN as `NUM`", R13). -/
opaque buildResult (n : Nat) (op : Primitive) (operands : List Num) : Nat

/-- FREE VALUE (log 1): the value of number `code` of build `n`'s number type (R13). -/
opaque buildValue (n code : Nat) : ℚ

end Sys2Proof.Config
end

