-- ==== Sys2Proof/Syntax.lean ====
section
/-! DEFINITION. The commands of WRS-DSP: one constructor per row of the opcode map (R64, spec/opcode_table.json). A command
word carries its operation code and a unit index and nothing else (R62, R63). -/

namespace Sys2Proof

/-- A command. The argument is the UNIT field as the word has it, valid for the kind or not (R65: an invalid one faults
when the command executes). -/
inductive Instr where
  /-- NOP, OPC 0x00 (45_control.md R107). -/
  | nop (u : UnitIdx)
  /-- GEN.LPK, OPC 0x01 (40_fir.md R72). -/
  | genLpk (u : UnitIdx)
  /-- FIR.SETK, OPC 0x02 (40_fir.md R73). -/
  | firSetk (u : UnitIdx)
  /-- FIR.RUN, OPC 0x03 (40_fir.md R74). -/
  | firRun (u : UnitIdx)
  /-- FIR.LOAD, OPC 0x04 (40_fir.md R75). -/
  | firLoad (u : UnitIdx)
  /-- FIR.GET, OPC 0x05 (40_fir.md R76). -/
  | firGet (u : UnitIdx)
  /-- FIR.GDLY, OPC 0x06 (40_fir.md R77). -/
  | firGdly (u : UnitIdx)
  /-- FIR.CLR, OPC 0x07 (40_fir.md R78). -/
  | firClr (u : UnitIdx)
  /-- SHF.CFG, OPC 0x08 (41_mixer_downsample.md R80). -/
  | shfCfg (u : UnitIdx)
  /-- SHF.RUN, OPC 0x09 (41_mixer_downsample.md R81). -/
  | shfRun (u : UnitIdx)
  /-- RDS.CFG, OPC 0x0A (41_mixer_downsample.md R83). -/
  | rdsCfg (u : UnitIdx)
  /-- RDS.RUN, OPC 0x0B (41_mixer_downsample.md R84). -/
  | rdsRun (u : UnitIdx)
  /-- CDS.CFG, OPC 0x0C (41_mixer_downsample.md R85). -/
  | cdsCfg (u : UnitIdx)
  /-- CDS.RUN, OPC 0x0D (41_mixer_downsample.md R86). -/
  | cdsRun (u : UnitIdx)
  /-- FMD.CFG, OPC 0x0E (42_demodulators.md R88). -/
  | fmdCfg (u : UnitIdx)
  /-- FMD.RUN, OPC 0x0F (42_demodulators.md R89). -/
  | fmdRun (u : UnitIdx)
  /-- AMD.CFG, OPC 0x10 (42_demodulators.md R90). -/
  | amdCfg (u : UnitIdx)
  /-- AMD.RUN, OPC 0x11 (42_demodulators.md R91). -/
  | amdRun (u : UnitIdx)
  /-- SSB.CFG, OPC 0x12 (42_demodulators.md R93). -/
  | ssbCfg (u : UnitIdx)
  /-- SSB.RUN, OPC 0x13 (42_demodulators.md R94). -/
  | ssbRun (u : UnitIdx)
  /-- STS.CFG, OPC 0x14 (43_stereo.md R96). -/
  | stsCfg (u : UnitIdx)
  /-- STS.RUN, OPC 0x15 (43_stereo.md R97). -/
  | stsRun (u : UnitIdx)
  /-- DEM.CFG, OPC 0x16 (44_filters_agc_power.md R99). -/
  | demCfg (u : UnitIdx)
  /-- DEM.RUN, OPC 0x17 (44_filters_agc_power.md R100). -/
  | demRun (u : UnitIdx)
  /-- AGC.CFG, OPC 0x18 (44_filters_agc_power.md R101). -/
  | agcCfg (u : UnitIdx)
  /-- AGC.RUN, OPC 0x19 (44_filters_agc_power.md R102). -/
  | agcRun (u : UnitIdx)
  /-- DCB.CFG, OPC 0x1A (44_filters_agc_power.md R103). -/
  | dcbCfg (u : UnitIdx)
  /-- DCB.RUN, OPC 0x1B (44_filters_agc_power.md R104). -/
  | dcbRun (u : UnitIdx)
  /-- PWR.RUN, OPC 0x1C (44_filters_agc_power.md R105). -/
  | pwrRun (u : UnitIdx)
  /-- PWR.SNR, OPC 0x1D (44_filters_agc_power.md R106). -/
  | pwrSnr (u : UnitIdx)
  /-- SRST, OPC 0x3F (45_control.md R108). -/
  | srst (u : UnitIdx)
deriving DecidableEq, Repr

/-- The UNIT field of a command (R62). -/
def Instr.unit : Instr → UnitIdx
  | .nop u => u
  | .genLpk u => u
  | .firSetk u => u
  | .firRun u => u
  | .firLoad u => u
  | .firGet u => u
  | .firGdly u => u
  | .firClr u => u
  | .shfCfg u => u
  | .shfRun u => u
  | .rdsCfg u => u
  | .rdsRun u => u
  | .cdsCfg u => u
  | .cdsRun u => u
  | .fmdCfg u => u
  | .fmdRun u => u
  | .amdCfg u => u
  | .amdRun u => u
  | .ssbCfg u => u
  | .ssbRun u => u
  | .stsCfg u => u
  | .stsRun u => u
  | .demCfg u => u
  | .demRun u => u
  | .agcCfg u => u
  | .agcRun u => u
  | .dcbCfg u => u
  | .dcbRun u => u
  | .pwrRun u => u
  | .pwrSnr u => u
  | .srst u => u

end Sys2Proof
end

