-- ==== Sys2Proof/WellFormed.lean ====
section
/-! DEFINITION. Which commands are well formed: the unit index is valid for the command's kind (R9). -/

namespace Sys2Proof

/-- How many unit indices the command's kind has (R9): `N_K` for a stateful kind, 1 (index 0 only) for GEN, PWR, NOP and
SRST. -/
def Instr.unitCount (c : Params) : Instr → Nat
  | .nop _ => 1
  | .genLpk _ => 1
  | .firSetk _ => c.nFir
  | .firRun _ => c.nFir
  | .firLoad _ => c.nFir
  | .firGet _ => c.nFir
  | .firGdly _ => c.nFir
  | .firClr _ => c.nFir
  | .shfCfg _ => c.nShf
  | .shfRun _ => c.nShf
  | .rdsCfg _ => c.nRds
  | .rdsRun _ => c.nRds
  | .cdsCfg _ => c.nCds
  | .cdsRun _ => c.nCds
  | .fmdCfg _ => c.nFmd
  | .fmdRun _ => c.nFmd
  | .amdCfg _ => c.nAmd
  | .amdRun _ => c.nAmd
  | .ssbCfg _ => c.nSsb
  | .ssbRun _ => c.nSsb
  | .stsCfg _ => c.nSts
  | .stsRun _ => c.nSts
  | .demCfg _ => c.nDem
  | .demRun _ => c.nDem
  | .agcCfg _ => c.nAgc
  | .agcRun _ => c.nAgc
  | .dcbCfg _ => c.nDcb
  | .dcbRun _ => c.nDcb
  | .pwrRun _ => 1
  | .pwrSnr _ => 1
  | .srst _ => 1

/-- The unit index is valid for the command's kind in a block with parameters `c` (R9). -/
abbrev Instr.ValidFor (c : Params) (i : Instr) : Prop := i.unit.toNat < i.unitCount c

/-- The unit index is valid for the command's kind in this spec's WRS-DSP (R7, R9). -/
abbrev Instr.WellFormed (i : Instr) : Prop := i.ValidFor Config.wrsDsp

end Sys2Proof
end

