-- ==== Sys2Proof/Decode.lean ====
section
/-! DEFINITION. Command words (R62, R64, R65): the decoder, the encoder, and the opcode table's view of the decoder. -/

namespace Sys2Proof

/-- Why a word is no command (R65, R117 steps 1 and 2). -/
inductive Reject where
  /-- OPC in 0x1E..0x3E: reserved. -/
  | illegalOpcode
  /-- A listed OPC with bits 19:0 not all 0. -/
  | reservedBits
deriving DecidableEq, Repr

/-- OPC, bits 31:26 of a command word (R62). -/
def opcOf (w : Word) : BitVec 6 := w.extractLsb' 26 6

/-- UNIT, bits 25:20 of a command word (R62). -/
def unitOf (w : Word) : UnitIdx := w.extractLsb' 20 6

/-- RSVD, bits 19:0 of a command word (R62). -/
def rsvdOf (w : Word) : BitVec 20 := w.extractLsb' 0 20

/-- The row of the opcode map with operation code `opc`, on unit `u` (R64); none for a reserved code (R65). -/
def ofOpc (opc : Nat) (u : UnitIdx) : Option Instr :=
  match opc with
  | 0x00 => some (.nop u)
  | 0x01 => some (.genLpk u)
  | 0x02 => some (.firSetk u)
  | 0x03 => some (.firRun u)
  | 0x04 => some (.firLoad u)
  | 0x05 => some (.firGet u)
  | 0x06 => some (.firGdly u)
  | 0x07 => some (.firClr u)
  | 0x08 => some (.shfCfg u)
  | 0x09 => some (.shfRun u)
  | 0x0A => some (.rdsCfg u)
  | 0x0B => some (.rdsRun u)
  | 0x0C => some (.cdsCfg u)
  | 0x0D => some (.cdsRun u)
  | 0x0E => some (.fmdCfg u)
  | 0x0F => some (.fmdRun u)
  | 0x10 => some (.amdCfg u)
  | 0x11 => some (.amdRun u)
  | 0x12 => some (.ssbCfg u)
  | 0x13 => some (.ssbRun u)
  | 0x14 => some (.stsCfg u)
  | 0x15 => some (.stsRun u)
  | 0x16 => some (.demCfg u)
  | 0x17 => some (.demRun u)
  | 0x18 => some (.agcCfg u)
  | 0x19 => some (.agcRun u)
  | 0x1A => some (.dcbCfg u)
  | 0x1B => some (.dcbRun u)
  | 0x1C => some (.pwrRun u)
  | 0x1D => some (.pwrSnr u)
  | 0x3F => some (.srst u)
  | _ => none

/-- The command a word stands for: the operation code first, then the reserved bits (R65, R117). The unit index is not
checked here: an invalid one is a command that faults with BAD_UNIT when it executes (DEDUCED, log 12: safe). -/
def decode (w : Word) : Except Reject Instr :=
  match ofOpc (opcOf w).toNat (unitOf w) with
  | none => .error .illegalOpcode
  | some i => if rsvdOf w = 0#20 then .ok i else .error .reservedBits

/-- The operation code of a command (R64). -/
def Instr.opc : Instr → BitVec 6
  | .nop _ => 0x00#6
  | .genLpk _ => 0x01#6
  | .firSetk _ => 0x02#6
  | .firRun _ => 0x03#6
  | .firLoad _ => 0x04#6
  | .firGet _ => 0x05#6
  | .firGdly _ => 0x06#6
  | .firClr _ => 0x07#6
  | .shfCfg _ => 0x08#6
  | .shfRun _ => 0x09#6
  | .rdsCfg _ => 0x0A#6
  | .rdsRun _ => 0x0B#6
  | .cdsCfg _ => 0x0C#6
  | .cdsRun _ => 0x0D#6
  | .fmdCfg _ => 0x0E#6
  | .fmdRun _ => 0x0F#6
  | .amdCfg _ => 0x10#6
  | .amdRun _ => 0x11#6
  | .ssbCfg _ => 0x12#6
  | .ssbRun _ => 0x13#6
  | .stsCfg _ => 0x14#6
  | .stsRun _ => 0x15#6
  | .demCfg _ => 0x16#6
  | .demRun _ => 0x17#6
  | .agcCfg _ => 0x18#6
  | .agcRun _ => 0x19#6
  | .dcbCfg _ => 0x1A#6
  | .dcbRun _ => 0x1B#6
  | .pwrRun _ => 0x1C#6
  | .pwrSnr _ => 0x1D#6
  | .srst _ => 0x3F#6

/-- The word of a command: `{OPC, UNIT, 20'b0}` (R62). -/
def encode (i : Instr) : Word := i.opc ++ i.unit ++ 0#20

/-- The decoder on a row of the opcode table: the word whose bits are `w`, one 32-bit command word (R66). -/
def decodeTableWord (nbits w : Nat) : Option Instr :=
  if w % 2 ^ nbits < 2 ^ 32 then (decode (BitVec.ofNat 32 (w % 2 ^ nbits))).toOption else none

end Sys2Proof
end

