-- ==== Sys2Proof/Machine/Number.lean ====
section
/-! DEFINITION. The numeric primitives of R12 (`Prim`), in the `EXACT` profile of R13 (`Exact`) and in a build's profile.

Each exact primitive builds the term that denotes its exact result. Where the exact result is a rational times a power of pi, the
term is folded to it, so that equal rationals are equal data; every fold is an identity of real arithmetic (DEDUCED, log 2: safe; proved in
Laws/Exact.lean). -/

namespace Sys2Proof.Machine

/-- The number `q * pi^k`, with one form for 0. -/
def Exact.mono (q : ℚ) (k : ℤ) : Num := if q = 0 then .zero else .mono q k

/-- pi (R12). -/
def Exact.pi : Num := .mono 1 1

/-- The term is the constant 0. -/
def Exact.isZeroTerm : Num → Bool
  | .mono q _ => q == 0
  | _ => false

/-- The term is the constant 1. -/
def Exact.isOneTerm : Num → Bool
  | .mono q k => q == 1 && k == 0
  | _ => false

/-- `a + b` (R12). -/
def Exact.add (a b : Num) : Num :=
  if isZeroTerm a then b else if isZeroTerm b then a else
  match a, b with
  | .mono p j, .mono q k => if j = k then mono (p + q) j else .add a b
  | _, _ => .add a b

/-- `a - b` (R12). -/
def Exact.sub (a b : Num) : Num :=
  if isZeroTerm b then a else
  match a, b with
  | .mono p j, .mono q k => if p = 0 then mono (-q) k else if j = k then mono (p - q) j else .sub a b
  | _, _ => .sub a b

/-- `a * b` (R12). -/
def Exact.mul (a b : Num) : Num :=
  if isZeroTerm a || isZeroTerm b then .zero else if isOneTerm a then b else if isOneTerm b then a else
  match a, b with
  | .mono p j, .mono q k => mono (p * q) (j + k)
  | _, _ => .mul a b

/-- `a / b` (R12); no rule divides by 0 (R113). -/
def Exact.div (a b : Num) : Num :=
  if isZeroTerm a then .zero else if isOneTerm b then a else
  match a, b with
  | .mono p j, .mono q k => mono (p / q) (j - k)
  | _, _ => .div a b

/-- The bits `i-1 .. 0` of the integer square root of `n`, added to the root `r` found so far. -/
def isqrtAux (n : Nat) : Nat → Nat → Nat
  | 0, r => r
  | i + 1, r => isqrtAux n i (if (r + 2 ^ i) * (r + 2 ^ i) ≤ n then r + 2 ^ i else r)

/-- The integer square root, bit by bit. -/
def isqrt (n : Nat) : Nat := isqrtAux n (Nat.log2 n / 2 + 1) 0

/-- The square root of a rational that is the square of a rational. -/
def Exact.ratSqrt? (q : ℚ) : Option ℚ :=
  let r : ℚ := (isqrt q.num.toNat : ℚ) / (isqrt q.den : ℚ)
  if r * r = q then some r else none

/-- `sqrt(a)` (R12). -/
def Exact.sqrt (a : Num) : Num :=
  match a with
  | .mono q k => if k = 0 then (match ratSqrt? q with | some r => .rat r | none => .sqrt a) else .sqrt a
  | _ => .sqrt a

/-- The angle `q * pi` brought into one turn: `q` modulo 2. -/
def Exact.halfTurns (q : ℚ) : ℚ := q - 2 * (q / 2).floor

/-- `sin(q*pi)` where it is rational. -/
def Exact.sinPi? (q : ℚ) : Option ℚ :=
  let r := halfTurns q
  if r = 0 ∨ r = 1 then some 0
  else if r = 1 / 2 then some 1
  else if r = 3 / 2 then some (-1)
  else if r = 1 / 6 ∨ r = 5 / 6 then some (1 / 2)
  else if r = 7 / 6 ∨ r = 11 / 6 then some (-1 / 2)
  else none

/-- `sin(a)` (R12). -/
def Exact.sin (a : Num) : Num :=
  match a with
  | .mono q k =>
    if q = 0 then .zero
    else if k = 1 then (match sinPi? q with | some r => .rat r | none => .sin a)
    else .sin a
  | _ => .sin a

/-- `cos(a)` (R12): `cos(q*pi) = sin((q + 1/2)*pi)` where that is rational. -/
def Exact.cos (a : Num) : Num :=
  match a with
  | .mono q k =>
    if q = 0 then .rat 1
    else if k = 1 then (match sinPi? (q + 1 / 2) with | some r => .rat r | none => .cos a)
    else .cos a
  | _ => .cos a

/-- `exp(a)` (R12). -/
def Exact.exp (a : Num) : Num := if isZeroTerm a then .rat 1 else .exp a

/-- `atan2(y, x)` with range `(-pi, pi]`, `atan2(0, x) = pi` for `x < 0` and `atan2(0, 0) = 0` (R12). -/
def Exact.atan2 (y x : Num) : Num :=
  match y, x with
  | .mono q j, .mono p k =>
    if q = 0 then (if p < 0 then pi else .zero)
    else if p = 0 then (if 0 < q then .mono (1 / 2) 1 else .mono (-1 / 2) 1)
    else if j = k ∧ q = p then (if 0 < p then .mono (1 / 4) 1 else .mono (-3 / 4) 1)
    else if j = k ∧ q = -p then (if 0 < p then .mono (-1 / 4) 1 else .mono (3 / 4) 1)
    else .atan2 y x
  | _, _ => .atan2 y x

/-- `frac(a) = a - floor(a)` (R12). -/
def Exact.frac (a : Num) : Num :=
  match a with
  | .mono q k => if k = 0 then .rat (q - q.floor) else .frac a
  | _ => .frac a

/-- `abs(a)` (R12). -/
def Exact.abs (a : Num) : Num :=
  match a with
  | .mono q k => .mono (if q < 0 then -q else q) k
  | _ => .abs a

/-- `max(a, b)` (R12). -/
def Exact.max (a b : Num) : Num :=
  match a, b with
  | .mono p j, .mono q k => if j = k then (if p < q then b else a) else .max a b
  | _, _ => .max a b

/-- `min(a, b)` (R12). -/
def Exact.min (a b : Num) : Num :=
  match a, b with
  | .mono p j, .mono q k => if j = k then (if q < p then b else a) else .min a b
  | _, _ => .min a b

/-- `clamp(v, lo, hi) = min(max(v, lo), hi)` (R12). -/
def Exact.clamp (v lo hi : Num) : Num := min (max v lo) hi

/-! The primitives of a profile (R13): the exact ones, or the build's own total functions, which are left open (log 1) -/

/-- The number a primitive gives in profile `N`, where `exact` is its exact result. -/
def Prim.run (N : Profile) (op : Primitive) (operands : List Num) (exact : Num) : Num :=
  match N with
  | .exact => exact
  | .build n => .built n (Config.buildResult n op operands)

/-- The constant `q`; 0 is the number 0 of every profile (R14, R131). -/
def Prim.lit (N : Profile) (q : ℚ) : Num := if q = 0 then .zero else Prim.run N (.lit q) [] (.rat q)
/-- An integer operand as a number (R63). -/
def Prim.nat (N : Profile) (n : Nat) : Num := Prim.lit N n
def Prim.pi (N : Profile) : Num := Prim.run N .pi [] Exact.pi
def Prim.add (N : Profile) (a b : Num) : Num := Prim.run N .add [a, b] (Exact.add a b)
def Prim.sub (N : Profile) (a b : Num) : Num := Prim.run N .sub [a, b] (Exact.sub a b)
def Prim.mul (N : Profile) (a b : Num) : Num := Prim.run N .mul [a, b] (Exact.mul a b)
def Prim.div (N : Profile) (a b : Num) : Num := Prim.run N .div [a, b] (Exact.div a b)
def Prim.sqrt (N : Profile) (a : Num) : Num := Prim.run N .sqrt [a] (Exact.sqrt a)
def Prim.sin (N : Profile) (a : Num) : Num := Prim.run N .sin [a] (Exact.sin a)
def Prim.cos (N : Profile) (a : Num) : Num := Prim.run N .cos [a] (Exact.cos a)
def Prim.exp (N : Profile) (a : Num) : Num := Prim.run N .exp [a] (Exact.exp a)
def Prim.atan2 (N : Profile) (y x : Num) : Num := Prim.run N .atan2 [y, x] (Exact.atan2 y x)
def Prim.frac (N : Profile) (a : Num) : Num := Prim.run N .frac [a] (Exact.frac a)
def Prim.abs (N : Profile) (a : Num) : Num := Prim.run N .abs [a] (Exact.abs a)
def Prim.max (N : Profile) (a b : Num) : Num := Prim.run N .max [a, b] (Exact.max a b)
def Prim.min (N : Profile) (a b : Num) : Num := Prim.run N .min [a, b] (Exact.min a b)
def Prim.clamp (N : Profile) (v lo hi : Num) : Num := Prim.run N .clamp [v, lo, hi] (Exact.clamp v lo hi)

/-- A sum in increasing index order, starting from 0 (R12). -/
def Prim.sum (N : Profile) (ts : List Num) : Num := ts.foldl (Prim.add N) .zero

end Sys2Proof.Machine
end

