-- ==== Sys2Proof/Machine/Exact.lean ====
section
/-! DEFINITION. Which real number a number of the block is: the meaning of R12's primitives in the `EXACT` profile (R13), and the
IEEE 754 pattern of a real number (R52). The machine decides its comparisons and patterns by enclosures; these reals say what a
comparison or a pattern is where no enclosure decides it (logs 3, 4), and statements and laws speak of them. -/

namespace Sys2Proof.Machine

/-- `atan2(y, x)`: range `(-pi, pi]`, `atan2(0, x) = pi` for `x < 0`, `atan2(0, 0) = 0` (R12). -/
noncomputable def realAtan2 (y x : ℝ) : ℝ :=
  if 0 < x then Real.arctan (y / x)
  else if x < 0 then (if 0 ≤ y then Real.arctan (y / x) + Real.pi else Real.arctan (y / x) - Real.pi)
  else if 0 < y then Real.pi / 2
  else if y < 0 then -(Real.pi / 2)
  else 0

end Sys2Proof.Machine

namespace Sys2Proof

/-- The real number a term denotes (R12, R13); a number of a build has that build's value. -/
noncomputable def Num.toReal : Num → ℝ
  | .mono q k => (q : ℝ) * Real.pi ^ k
  | .held e a => (Config.heldSample e a : ℝ)
  | .built n c => (Config.buildValue n c : ℝ)
  | .add a b => toReal a + toReal b
  | .sub a b => toReal a - toReal b
  | .mul a b => toReal a * toReal b
  | .div a b => toReal a / toReal b
  | .sqrt a => Real.sqrt (toReal a)
  | .sin a => Real.sin (toReal a)
  | .cos a => Real.cos (toReal a)
  | .exp a => Real.exp (toReal a)
  | .atan2 y x => Machine.realAtan2 (toReal y) (toReal x)
  | .frac a => Int.fract (toReal a)
  | .abs a => |toReal a|
  | .max a b => Max.max (toReal a) (toReal b)
  | .min a b => Min.min (toReal a) (toReal b)

end Sys2Proof

namespace Sys2Proof.Machine

/-- `2^z`. -/
def pow2 (z : Int) : ℚ := if 0 ≤ z then (2 : ℚ) ^ z.toNat else 1 / (2 : ℚ) ^ (-z).toNat

/-- The exponent bias of a format with `eb` exponent bits. -/
def floatBias (eb : Nat) : Int := 2 ^ (eb - 1) - 1

/-- A real number rounded to the nearest integer, ties to even (R52). -/
noncomputable def realRoundEven (v : ℝ) : Int :=
  if v - ⌊v⌋ < 1 / 2 then ⌊v⌋ else if 1 / 2 < v - ⌊v⌋ then ⌊v⌋ + 1 else if ⌊v⌋ % 2 = 0 then ⌊v⌋ else ⌊v⌋ + 1

/-- The pattern, with `eb` exponent and `fb` fraction bits, of a real number rounded to nearest, ties to even, with overflow to
the signed infinity and zero encoded as +0 (R52; the sign of a negative number that rounds to zero is DEDUCED, log 14: unsafe).
`e` counts the binades above the subnormals, `m` is the fraction with its leading bit. -/
noncomputable def realPattern (eb fb : Nat) (x : ℝ) : Nat :=
  let e := Nat.log2 ⌊|x| * (pow2 (floatBias eb - 1) : ℝ)⌋.toNat
  let m := (realRoundEven (|x| * (pow2 (fb + floatBias eb - 1 - e) : ℝ))).toNat
  let pat := Min.min (e * 2 ^ fb + m) ((2 ^ eb - 1) * 2 ^ fb)
  if pat = 0 then 0 else if x < 0 then 2 ^ (eb + fb) + pat else pat

end Sys2Proof.Machine
end

