-- ==== Sys2Proof/Machine/Enclosure.lean ====
section
/-! DEFINITION. The sign of a number (DESIGN CHOICE, log 3: safe).

A rule that compares numbers (R69, R72, R88, R96, R97, R99, R101-R103, R106) compares their exact values. The sign of a rational
times a power of pi is read off; the sign of any other term is read off two binary fractions that enclose it. Where no precision
tried separates the number from 0, `undecidedSign` stands for the exact sign: its type says which one it is. Laws/Enclosure.lean
proves that every enclosure holds, so `signOf` is the exact sign of every number. -/

namespace Sys2Proof.Machine

/-- The numbers between `lo / 2^p` and `hi / 2^p`, for a precision `p` that the operations are given. -/
structure Encl where
  lo : Int
  hi : Int
deriving DecidableEq, Repr

/-- `n / d` rounded up. -/
def ceilDiv (n d : Int) : Int := -((-n) / d)

/-- A rational. -/
def Encl.ofRat (p : Nat) (q : ℚ) : Encl := ⟨q.num * 2 ^ p / q.den, ceilDiv (q.num * 2 ^ p) q.den⟩

/-- The number 1. -/
def Encl.one (p : Nat) : Encl := ⟨2 ^ p, 2 ^ p⟩

def Encl.add (a b : Encl) : Encl := ⟨a.lo + b.lo, a.hi + b.hi⟩
def Encl.neg (a : Encl) : Encl := ⟨-a.hi, -a.lo⟩
def Encl.sub (a b : Encl) : Encl := a.add b.neg
def Encl.max (a b : Encl) : Encl := ⟨Max.max a.lo b.lo, Max.max a.hi b.hi⟩
def Encl.min (a b : Encl) : Encl := ⟨Min.min a.lo b.lo, Min.min a.hi b.hi⟩

/-- The larger of the two bounds' magnitudes. -/
def Encl.mag (a : Encl) : Nat := Max.max a.lo.natAbs a.hi.natAbs

/-- The enclosure `n` units of the last place wider on both sides. -/
def Encl.widen (n : Int) (a : Encl) : Encl := ⟨a.lo - n, a.hi + n⟩

/-- Division by the positive integer `n`. -/
def Encl.divNat (a : Encl) (n : Nat) : Encl := ⟨a.lo / n, ceilDiv a.hi n⟩

def Encl.abs (a : Encl) : Encl :=
  if 0 ≤ a.lo then a else if a.hi ≤ 0 then a.neg else ⟨0, Max.max (-a.lo) a.hi⟩

def Encl.mul (p : Nat) (a b : Encl) : Encl :=
  let u := a.lo * b.lo
  let v := a.lo * b.hi
  let w := a.hi * b.lo
  let x := a.hi * b.hi
  ⟨Min.min (Min.min u v) (Min.min w x) / 2 ^ p, ceilDiv (Max.max (Max.max u v) (Max.max w x)) (2 ^ p)⟩

/-- `1 / a` for an enclosure that 0 is outside of. -/
def Encl.inv (p : Nat) (a : Encl) : Option Encl :=
  if 0 < a.lo then some ⟨2 ^ (2 * p) / a.hi, ceilDiv (2 ^ (2 * p)) a.lo⟩
  else if a.hi < 0 then some (Encl.neg ⟨2 ^ (2 * p) / (-a.lo), ceilDiv (2 ^ (2 * p)) (-a.hi)⟩)
  else none

def Encl.div (p : Nat) (a b : Encl) : Option Encl := (b.inv p).map (a.mul p)

/-- `a^n`. -/
def Encl.pow (p : Nat) (a : Encl) : Nat → Encl
  | 0 => one p
  | n + 1 => mul p a (pow p a n)

/-- Square roots; the square root of a negative number does not occur (R12) and is taken as 0. -/
def Encl.sqrt (p : Nat) (a : Encl) : Encl :=
  ⟨isqrt (a.lo.toNat * 2 ^ p), isqrt (a.hi.toNat * 2 ^ p) + 1⟩

/-- The fractional part: exact when the enclosure lies between two neighbouring integers, all of `[0, 1]` otherwise. -/
def Encl.frac (p : Nat) (a : Encl) : Encl :=
  if a.lo / 2 ^ p = a.hi / 2 ^ p then ⟨a.lo - a.lo / 2 ^ p * 2 ^ p, a.hi - a.lo / 2 ^ p * 2 ^ p⟩ else ⟨0, 2 ^ p⟩

/-- How often an argument is halved before its power series is summed: until it is at most `2^-8`. -/
def Encl.halvings (p : Nat) (a : Encl) : Nat := Nat.log2 a.mag + 9 - p

/-- `1 + y/(i+1) * (1 + y/(i+2) * (... ))`, `n` levels deep. -/
def Encl.expHorner (p : Nat) (y : Encl) : Nat → Nat → Encl
  | 0, _ => one p
  | n + 1, i => (one p).add ((mul p y (expHorner p y n (i + 1))).divNat (i + 1))

/-- Squares `a` repeatedly, `n` times. -/
def Encl.squareN (p : Nat) : Nat → Encl → Encl
  | 0, a => a
  | n + 1, a => squareN p n (mul p a a)

/-- `exp`: the power series at the halved argument, then squared back. -/
def Encl.exp (p : Nat) (a : Encl) : Option Encl :=
  let k := a.halvings p
  let y := a.divNat (2 ^ k)
  if y.mag * 2 ^ 8 ≤ 2 ^ p then some (squareN p k ((expHorner p y (p / 8) 0).widen 2)) else none

/-- The real and imaginary parts of the same scheme at the argument `j*y`: enclosures of `cos` and `sin`. -/
def Encl.cisHorner (p : Nat) (y : Encl) : Nat → Nat → Encl × Encl
  | 0, _ => (one p, ⟨0, 0⟩)
  | n + 1, i =>
    let r := cisHorner p y n (i + 1)
    ((one p).sub ((mul p y r.2).divNat (i + 1)), (mul p y r.1).divNat (i + 1))

/-- Doubles the angle `n` times. -/
def Encl.doubleN (p : Nat) : Nat → Encl × Encl → Encl × Encl
  | 0, r => r
  | n + 1, (c, s) =>
    let cs := mul p c s
    doubleN p n ((mul p c c).sub (mul p s s), cs.add cs)

/-- `(cos, sin)`, held within `[-1, 1]`. -/
def Encl.cis (p : Nat) (a : Encl) : Option (Encl × Encl) :=
  let k := a.halvings p
  let y := a.divNat (2 ^ k)
  if y.mag * 2 ^ 8 ≤ 2 ^ p then
    let r := cisHorner p y (p / 8) 0
    let t := doubleN p k (r.1.widen 2, r.2.widen 2)
    let unit : Encl → Encl := fun e => ⟨Max.max e.lo (-2 ^ p), Min.min e.hi (2 ^ p)⟩
    some (unit t.1, unit t.2)
  else none

/-- `1/(2i+1) - z * (1/(2i+3) - z * (...))`, `n` levels deep. -/
def Encl.atanHorner (p : Nat) (z : Encl) : Nat → Nat → Encl
  | 0, i => (one p).divNat (2 * i + 1)
  | n + 1, i => ((one p).divNat (2 * i + 1)).sub (mul p z (atanHorner p z n (i + 1)))

/-- `arctan` of a number of magnitude at most 1/4, by its power series. -/
def Encl.atanSmall (p : Nat) (u : Encl) : Option Encl :=
  if u.mag * 2 ^ 2 ≤ 2 ^ p then some ((mul p u (atanHorner p (mul p u u) (p / 4) 0)).widen 1) else none

/-- `t / (1 + sqrt(1 + t^2))`, the tangent of half the angle. -/
def Encl.halfAngle (p : Nat) (t : Encl) : Option Encl :=
  t.div p ((one p).add (Encl.sqrt p ((one p).add (mul p t t))))

/-- `arctan`: the angle is halved three times, which brings its tangent below 1/4. -/
def Encl.arctan (p : Nat) (t : Encl) : Option Encl := do
  let t1 ← halfAngle p t
  let t2 ← halfAngle p t1
  let t3 ← halfAngle p t2
  let r ← atanSmall p t3
  return ⟨8 * r.lo, 8 * r.hi⟩

/-- pi, as `16 arctan(1/5) - 4 arctan(1/239)`. -/
def Encl.pi (p : Nat) : Option Encl := do
  let a ← atanSmall p (ofRat p (1 / 5))
  let b ← atanSmall p (ofRat p (1 / 239))
  return Encl.sub ⟨16 * a.lo, 16 * a.hi⟩ ⟨4 * b.lo, 4 * b.hi⟩

/-- `atan2(y, x)` (R12), where the enclosures do not meet the branch cut `y = 0, x <= 0` but in `y = 0` itself. -/
def Encl.atan2 (p : Nat) (y x : Encl) : Option Encl := do
  if 0 < x.lo then arctan p (← y.div p x)
  else if 0 < y.lo then
    let h := (← pi p).divNat 2
    return h.sub (← arctan p (← x.div p y))
  else if y.hi < 0 then
    let h := (← pi p).divNat 2
    return h.neg.sub (← arctan p (← x.div p y))
  else if x.hi < 0 ∧ y.lo = 0 ∧ y.hi = 0 then pi p
  else none

/-- `q * pi^k`. -/
def Encl.mono (p : Nat) (q : ℚ) (k : ℤ) : Option Encl :=
  match k with
  | .ofNat 0 => some (ofRat p q)
  | .ofNat (n + 1) => (pi p).map fun c => mul p (ofRat p q) (pow p c (n + 1))
  | .negSucc n => (pi p).bind fun c => (ofRat p q).div p (pow p c (n + 1))

/-- The enclosure of a number at precision `p`; `none` where a divisor may be 0 or an angle is not determined. -/
def enclose (p : Nat) : Num → Option Encl
  | .mono q k => Encl.mono p q k
  | .held e a => some (Encl.ofRat p (Config.heldSample e a))
  | .built n c => some (Encl.ofRat p (Config.buildValue n c))
  | .add a b => (enclose p a).bind fun x => (enclose p b).map fun y => x.add y
  | .sub a b => (enclose p a).bind fun x => (enclose p b).map fun y => x.sub y
  | .mul a b => (enclose p a).bind fun x => (enclose p b).map fun y => x.mul p y
  | .div a b => (enclose p a).bind fun x => (enclose p b).bind fun y => x.div p y
  | .sqrt a => (enclose p a).map fun x => x.sqrt p
  | .sin a => (enclose p a).bind fun x => (x.cis p).map fun r => r.2
  | .cos a => (enclose p a).bind fun x => (x.cis p).map fun r => r.1
  | .exp a => (enclose p a).bind fun x => x.exp p
  | .atan2 y x => (enclose p y).bind fun v => (enclose p x).bind fun u => Encl.atan2 p v u
  | .frac a => (enclose p a).map fun x => x.frac p
  | .abs a => (enclose p a).map fun x => x.abs
  | .max a b => (enclose p a).bind fun x => (enclose p b).map fun y => x.max y
  | .min a b => (enclose p a).bind fun x => (enclose p b).map fun y => x.min y

/-- The two precisions, in bits after the binary point, at which a number is enclosed (log 3). -/
def coarse : Nat := 320
def fine : Nat := 1280

/-- The sign of a number as its enclosure at precision `p` shows it. -/
def signAt (p : Nat) (a : Num) : Option SignType :=
  match enclose p a with
  | some e => if 0 < e.lo then some .pos else if e.hi < 0 then some .neg
              else if e.lo = 0 ∧ e.hi = 0 then some .zero else none
  | none => none

/-- The sign of a rational. -/
def ratSign (q : ℚ) : SignType := if 0 < q then .pos else if q < 0 then .neg else .zero

/-- The exact sign of a number that no enclosure decides. Its type gives its value; as a program it does not answer, because no
procedure is known that decides the sign of every such term (log 3). -/
def undecidedSign (a : Num) (p : Nat) : {σ : SignType // σ = SignType.sign a.toReal} := undecidedSign a (p + 1)
partial_fixpoint

/-- The sign of a number: the exact one (`signOf_eq`, log 3). -/
def signOf (a : Num) : SignType :=
  match a with
  | .mono q _ => ratSign q
  | .held e n => ratSign (Config.heldSample e n)
  | .built n c => ratSign (Config.buildValue n c)
  | _ =>
    match signAt coarse a with
    | some σ => σ
    | none =>
      match signAt fine a with
      | some σ => σ
      | none => (undecidedSign a fine).1

/-- `a > 0`. -/
def isPos (a : Num) : Bool := signOf a == .pos

/-- `a < 0`. -/
def isNeg (a : Num) : Bool := signOf a == .neg

/-- `a = 0`. -/
def isZero (a : Num) : Bool := signOf a == .zero

/-- `a > b`: the exact values are compared, in every profile. -/
def isGreater (a b : Num) : Bool := isPos (Exact.sub a b)

end Sys2Proof.Machine
end

