-- ==== Sys2Proof/Machine/Ieee.lean ====
section
/-! DEFINITION. The IEEE 754 binary32 and binary64 formats at the host bus (R14, R18, R52, R53, R116; PRESUMED, log 16: unsafe). -/

namespace Sys2Proof.Machine

/-- The exponent field is not all ones: the pattern is neither an infinity nor a NaN (R53, R116). -/
def floatFinite (eb fb n : Nat) : Bool := n / 2 ^ fb % 2 ^ eb != 2 ^ eb - 1

/-- The value of a finite pattern with `eb` exponent bits and `fb` fraction bits; both zeros are 0 (R14), a subnormal has
its exact value (R53). -/
def floatValue (eb fb n : Nat) : ℚ :=
  let f := n % 2 ^ fb
  let e := n / 2 ^ fb % 2 ^ eb
  let mag : ℚ := if e = 0 then (f : ℚ) * pow2 (1 - floatBias eb - fb)
                 else ((2 ^ fb + f : Nat) : ℚ) * pow2 (e - floatBias eb - fb)
  if n / 2 ^ (fb + eb) % 2 = 1 then -mag else mag

/-- A rational rounded to the nearest integer, ties to even (R52). -/
def roundEven (v : ℚ) : Int :=
  let f := v.floor
  let r := v - f
  if r < 1 / 2 then f else if 1 / 2 < r then f + 1 else if f % 2 = 0 then f else f + 1

/-- The pattern of a rational rounded to nearest, ties to even, with overflow to the signed infinity and zero encoded as +0
(R52, log 14): `realPattern` on rationals. -/
def floatPattern (eb fb : Nat) (q : ℚ) : Nat :=
  let a : ℚ := if q < 0 then -q else q
  let e := Nat.log2 (a * pow2 (floatBias eb - 1)).floor.toNat
  let m := (roundEven (a * pow2 (fb + floatBias eb - 1 - e))).toNat
  let pat := Min.min (e * 2 ^ fb + m) ((2 ^ eb - 1) * 2 ^ fb)
  if pat = 0 then 0 else if q < 0 then 2 ^ (eb + fb) + pat else pat

/-- The pattern of a binary32 word is finite (R53). -/
def finite32 (v : BitVec 32) : Bool := floatFinite 8 23 v.toNat
/-- The value of a finite binary32 word, `value32` of R109. -/
def value32 (v : BitVec 32) : ℚ := floatValue 8 23 v.toNat
/-- The pattern of a binary64 register is finite (R116). -/
def finite64 (v : BitVec 64) : Bool := floatFinite 11 52 v.toNat
/-- The value of a finite binary64 register (R18). -/
def value64 (v : BitVec 64) : ℚ := floatValue 11 52 v.toNat

/-- The rational a number is, if its term is one. -/
def asRat? : Num → Option ℚ
  | .mono q k => if k = 0 then some q else none
  | .held e a => some (Config.heldSample e a)
  | .built n c => some (Config.buildValue n c)
  | _ => none

/-- The pattern both bounds of the enclosure at precision `p` round to, if it is one pattern. -/
def patternAt (eb fb p : Nat) (a : Num) : Option Nat :=
  match enclose p a with
  | some e =>
    let x := floatPattern eb fb (e.lo / 2 ^ p)
    if x = floatPattern eb fb (e.hi / 2 ^ p) then some x else none
  | none => none

/-- The pattern of a number that no enclosure settles. Its type gives its value: the pattern of the exact real (R52). As a program
it does not answer (log 4). -/
def undecidedPattern (eb fb : Nat) (a : Num) (p : Nat) : {n : Nat // n = realPattern eb fb a.toReal} :=
  undecidedPattern eb fb a (p + 1)
partial_fixpoint

/-- The pattern of a number: that of its exact value (`patternOf_eq`; DESIGN CHOICE, log 4: safe). -/
def patternOf (eb fb : Nat) (a : Num) : Nat :=
  match asRat? a with
  | some q => floatPattern eb fb q
  | none =>
    match patternAt eb fb coarse a with
    | some n => n
    | none =>
      match patternAt eb fb fine a with
      | some n => n
      | none => (undecidedPattern eb fb a fine).1

/-- `bits32(binary32_RNE(a))` (R52, R110). -/
def bits32 (a : Num) : BitVec 32 := BitVec.ofNat 32 (patternOf 8 23 a)

/-- `bits64(binary64_RNE(a))` (R52, R110). -/
def bits64 (a : Num) : BitVec 64 := BitVec.ofNat 64 (patternOf 11 52 a)

end Sys2Proof.Machine
end

