-- ==== Sys2Proof/Machine/State.lean ====
section
/-! DEFINITION. The state of WRS-DSP (10_state.md), as plain data, the reasons a step can stop, and the state after a
hardware reset (R131). Fields keep the spec's names. -/

namespace Sys2Proof.Machine

/-- Fault cause codes of STATUS.CAUSE (R115). Codes 11 to 255 are never produced, so the register is held by name. -/
inductive Cause where
  | none | illegalOpcode | reservedBits | badUnit | unconfigured | badParam | range | index | busy | nonfinite | bus
deriving DecidableEq, Repr

/-- Why the machine stops with a fault: NEVER. A fault of the block is recorded in STATUS, FCMD and FADDR and the machine
goes on (R119), so no constructor exists; safe and unsafe do not arise (log 19). -/
inductive Fault
deriving DecidableEq, Repr

/-- Why a step has no meaning. -/
inductive Refusal where
  /-- Raised by an arm of `exec` for an instruction the model does not give a meaning; safe. No arm raises it: every
  command has its meaning. -/
  | notModelled (mnemonic : String)
deriving DecidableEq, Repr

/-- The delay line of one FIR: the history `H`, the loaded window `W` and the loaded length `WL` (R31). -/
structure Line where
  H : List Num
  W : List Num
  WL : Nat
deriving DecidableEq, Repr

/-- A FIR unit (R30, R31). -/
structure FirUnit where
  configured : Bool
  M : Nat
  h : List Num
  line : Line
deriving DecidableEq, Repr

/-- A frequency shifter (R32). -/
structure ShfUnit where
  configured : Bool
  R : Nat
  theta : Num
deriving DecidableEq, Repr

/-- A real downsampler with its internal FIR (R33). -/
structure RdsUnit where
  configured : Bool
  inRate : Nat
  outRate : Nat
  M : Nat
  h : List Num
  line : Line
deriving DecidableEq, Repr

/-- A complex downsampler: one kernel, the histories and windows of both branches (R34). -/
structure CdsUnit where
  configured : Bool
  inRate : Nat
  outRate : Nat
  M : Nat
  h : List Num
  lineI : Line
  lineQ : Line
deriving DecidableEq, Repr

/-- An FM discriminator (R35). -/
structure FmdUnit where
  configured : Bool
  Ip : Num
  Qp : Num
  R : Nat
  maxDev : Num
deriving DecidableEq, Repr

/-- An AM envelope detector (R36). -/
structure AmdUnit where
  configured : Bool
  R : Nat
  alpha : Num
  dc : Num
deriving DecidableEq, Repr

/-- An SSB demodulator (R37); its kernel `g` is a constant of the hardware (Machine/Demod.lean). -/
structure SsbUnit where
  configured : Bool
  sb : Nat
  HQ : List Num
  DI : List Num
deriving DecidableEq, Repr

/-- A stereo separator (R38). -/
structure StsUnit where
  configured : Bool
  R : Nat
  Kp : Num
  Ki : Num
  alphaE : Num
  alphaA : Num
  w0 : Num
  wmin : Num
  wmax : Num
  theta : Num
  w : Num
  e : Num
  a : Num
  found : Bool
deriving DecidableEq, Repr

/-- A de-emphasis filter (R39). -/
structure DemUnit where
  configured : Bool
  alpha : Num
  y : Num
deriving DecidableEq, Repr

/-- An AGC (R40). -/
structure AgcUnit where
  configured : Bool
  alpha : Num
  avg : Num
  primed : Bool
deriving DecidableEq, Repr

/-- A DC blocker (R41). -/
structure DcbUnit where
  configured : Bool
  alpha : Num
  dc : Num
deriving DecidableEq, Repr

/-- Sample memory: the written words as (word index, number), in the canonical form of `Memory.wf` (Machine/Ops.lean; DESIGN CHOICE, log 5: safe).
A word that is not listed holds its unspecified power-on number (R43, R131). -/
abbrev Memory := List (Nat × Num)

/-- One step of the total order of R57 that is still to come: an input from outside the block, or the engine's turn (DESIGN CHOICE, log 9: safe). -/
inductive Event where
  /-- The host writes `v` to byte address `addr` with an access `wd` bits wide (R109). -/
  | write (addr : BusAddr) (wd : Nat) (v : Word)
  /-- The host reads byte address `addr` with an access `wd` bits wide (R110). -/
  | read (addr : BusAddr) (wd : Nat)
  /-- The platform asserts the hardware reset (R130). -/
  | hardReset
  /-- The engine takes its step if a command is pending (R112). -/
  | engine
deriving DecidableEq, Repr

/-- The whole state: the parameter record, which no step changes (R7, log 15), the spec's registers, engine, units and memory
(10_state.md), then the model's own three fields. A kind has a slot for every unit index a command can name (R62); the first
`N_K` are its instances (R9), and no step changes another slot or reads it: BAD_UNIT (R117). -/
structure State where
  /-- The parameters of this block (R7). -/
  cfg : Params
  /-- A0-A7 (R17). -/
  A : Vector Word 8
  /-- P0-P3, raw binary64 patterns (R18). -/
  P : Vector DWord 4
  /-- RV (R19). -/
  RV : Num
  /-- RI (R20). -/
  RI : Word
  /-- RF.FOUND, the one bit of RF (R21). -/
  rfFound : Bool
  /-- STATUS.FAULT (R26). -/
  fault : Bool
  /-- STATUS.BUSY (R26). -/
  busy : Bool
  /-- STATUS.DONE (R26). -/
  done : Bool
  /-- STATUS.FOVF (R26). -/
  fovf : Bool
  /-- STATUS.CAUSE (R26, R115). -/
  cause : Cause
  /-- CTRL.FIE (R27). -/
  fie : Bool
  /-- CTRL.DIE (R27). -/
  die : Bool
  /-- FCMD (R28). -/
  fcmd : Word
  /-- FADDR (R28). -/
  faddr : Word
  /-- The engine's PENDING command word, meaningful while `busy` (R29; its value at reset is DESIGN CHOICE, log 8: unsafe). -/
  pending : Word
  fir : Vector FirUnit unitSlots
  shf : Vector ShfUnit unitSlots
  rds : Vector RdsUnit unitSlots
  cds : Vector CdsUnit unitSlots
  fmd : Vector FmdUnit unitSlots
  amd : Vector AmdUnit unitSlots
  ssb : Vector SsbUnit unitSlots
  sts : Vector StsUnit unitSlots
  dem : Vector DemUnit unitSlots
  agc : Vector AgcUnit unitSlots
  dcb : Vector DcbUnit unitSlots
  /-- Sample memory (R43). -/
  sm : Memory
  /-- The model's own: how many hardware resets came before the present one (log 6). -/
  epoch : Nat
  /-- The model's own: the steps of host, platform and engine still to come, first one first (log 9). -/
  events : List Event
  /-- The model's own: the value the last host read returned (log 10). -/
  rdata : Word
deriving DecidableEq, Repr

/-- An empty delay line (R31 reset value). -/
def Line.reset : Line := { H := [], W := [], WL := 0 }
/-- R31; `M` and `h` are unspecified and unobservable (DESIGN CHOICE, log 7: unsafe). -/
def FirUnit.reset : FirUnit := { configured := false, M := 0, h := [], line := Line.reset }
/-- R32. -/
def ShfUnit.reset : ShfUnit := { configured := false, R := 0, theta := .zero }
/-- R33; `M` and `h` as R31 (log 7). -/
def RdsUnit.reset : RdsUnit :=
  { configured := false, inRate := 0, outRate := 0, M := 0, h := [], line := Line.reset }
/-- R34; `M` and `h` as R31 (log 7). -/
def CdsUnit.reset : CdsUnit :=
  { configured := false, inRate := 0, outRate := 0, M := 0, h := [], lineI := Line.reset, lineQ := Line.reset }
/-- R35. -/
def FmdUnit.reset : FmdUnit := { configured := false, Ip := .zero, Qp := .zero, R := 0, maxDev := .zero }
/-- R36. -/
def AmdUnit.reset : AmdUnit := { configured := false, R := 0, alpha := .zero, dc := .zero }
/-- R37. -/
def SsbUnit.reset (c : Params) : SsbUnit :=
  { configured := false, sb := 0, HQ := List.replicate (c.hilbertTaps - 1) .zero,
    DI := List.replicate ((c.hilbertTaps - 1) / 2) .zero }
/-- R38. -/
def StsUnit.reset : StsUnit :=
  { configured := false, R := 0, Kp := .zero, Ki := .zero, alphaE := .zero, alphaA := .zero, w0 := .zero,
    wmin := .zero, wmax := .zero, theta := .zero, w := .zero, e := .zero, a := .zero, found := false }
/-- R39. -/
def DemUnit.reset : DemUnit := { configured := false, alpha := .zero, y := .zero }
/-- R40. -/
def AgcUnit.reset : AgcUnit := { configured := false, alpha := .zero, avg := .zero, primed := false }
/-- R41. -/
def DcbUnit.reset : DcbUnit := { configured := false, alpha := .zero, dc := .zero }

/-- The state of a block with parameters `c` right after a hardware reset (R131), with the model's own fields at their start
(logs 6, 9, 10). -/
def State.init (c : Params) : State where
  cfg := c
  A := Vector.replicate 8 0#32
  P := Vector.replicate 4 0#64
  RV := .zero
  RI := 0#32
  rfFound := false
  fault := false
  busy := false
  done := false
  fovf := false
  cause := .none
  fie := false
  die := false
  fcmd := 0#32
  faddr := 0#32
  pending := 0#32
  fir := Vector.replicate _ FirUnit.reset
  shf := Vector.replicate _ ShfUnit.reset
  rds := Vector.replicate _ RdsUnit.reset
  cds := Vector.replicate _ CdsUnit.reset
  fmd := Vector.replicate _ FmdUnit.reset
  amd := Vector.replicate _ AmdUnit.reset
  ssb := Vector.replicate _ (SsbUnit.reset c)
  sts := Vector.replicate _ StsUnit.reset
  dem := Vector.replicate _ DemUnit.reset
  agc := Vector.replicate _ AgcUnit.reset
  dcb := Vector.replicate _ DcbUnit.reset
  sm := []
  epoch := 0
  events := []
  rdata := 0#32

/-- This spec's WRS-DSP right after a hardware reset: the record at the values R7 gives (R131). -/
def State.reset : State := State.init Config.wrsDsp

end Sys2Proof.Machine
end

