-- ==== Sys2Proof/Machine/Ops.lean ====
section
/-! DEFINITION. The shared operations: sample memory (20_memory.md), recording and clearing a fault (60_exceptions.md), the two
resets (70_reset_and_hazards.md) and the frame every command runs in (45_control.md R112). -/

namespace Sys2Proof.Machine

/-! Sample memory -/

/-- The number in sample word `a`; a word that is not listed holds its unspecified power-on number (R43, R131, log 6). -/
def Memory.read (epoch : Nat) : Memory → Nat → Num
  | [], a => .held epoch a
  | (b, v) :: m, a => if a = b then v else Memory.read epoch m a

/-- `SM[a] <- v`, keeping the list's canonical form (log 5). -/
def Memory.write (epoch : Nat) : Memory → Nat → Num → Memory
  | [], a, v => if v = .held epoch a then [] else [(a, v)]
  | (b, w) :: m, a, v =>
    if a < b then (if v = .held epoch a then (b, w) :: m else (a, v) :: (b, w) :: m)
    else if a = b then (if v = .held epoch a then m else (a, v) :: m)
    else (b, w) :: Memory.write epoch m a v

/-- `SM[a+i] <- vs[i]` for every `i` (R11 `MemWrite`). -/
def Memory.writeBlock (epoch : Nat) : Memory → Nat → List Num → Memory
  | m, _, [] => m
  | m, a, v :: vs => Memory.writeBlock epoch (Memory.write epoch m a v) (a + 1) vs

/-- The canonical form of a sample memory of `size` words (SM_WORDS): word indices strictly rising and below `size`, no entry
equal to what an unlisted word reads as (log 5). -/
abbrev Memory.wf (size epoch : Nat) (m : Memory) : Prop :=
  m.Pairwise (fun c d => c.1 < d.1) ∧ ∀ c ∈ m, c.1 < size ∧ c.2 ≠ .held epoch c.1

/-- `SM[a]` (R11). -/
def State.readSM (s : State) (a : Nat) : Num := Memory.read s.epoch s.sm a

/-- `MemRead(a, n)`: the words `SM[a], ..., SM[a+n-1]` (R11). -/
def State.memRead (s : State) (a n : Nat) : List Num := (List.range n).map fun i => s.readSM (a + i)

/-- `MemWrite(a, len(vs), vs)` (R11). -/
def State.memWrite (s : State) (a : Nat) (vs : List Num) : State :=
  { s with sm := Memory.writeBlock s.epoch s.sm a vs }

/-! Unit instances -/

theorem unit_lt (u : UnitIdx) : u.toNat < unitSlots := u.isLt

/-- The unit slot `u` of a kind. A command reaches it only after its BAD_UNIT check (R117). -/
def pick {α : Type} (v : Vector α unitSlots) (u : UnitIdx) : α := v[u.toNat]'(unit_lt u)

/-- The kind's slots with slot `u` replaced. -/
def put {α : Type} (v : Vector α unitSlots) (u : UnitIdx) (x : α) : Vector α unitSlots := v.set u.toNat x (unit_lt u)

/-! Faults (trap entry and return) -/

/-- `Fault(c, fcmd=fw, faddr=fa)`: the first fault is recorded, a later one only sets FOVF (R119). -/
def State.recordFault (s : State) (c : Cause) (fw fa : Word) : State :=
  if s.fault then { s with fovf := true } else { s with fault := true, cause := c, fcmd := fw, faddr := fa }

/-- `StatusW1C(v)`: bit 0 clears FAULT, CAUSE, FCMD and FADDR, bit 2 DONE, bit 3 FOVF (R109, R120). -/
def State.statusW1C (s : State) (v : Word) : State :=
  { s with
    fault := s.fault && !v.getLsbD 0
    cause := if v.getLsbD 0 then .none else s.cause
    fcmd := if v.getLsbD 0 then 0#32 else s.fcmd
    faddr := if v.getLsbD 0 then 0#32 else s.faddr
    done := s.done && !v.getLsbD 2
    fovf := s.fovf && !v.getLsbD 3 }

/-! Resets -/

/-- `SoftReset()`: every register and unit to its reset value, sample memory kept (R132). The parameters, the inputs still to come and
the last value read are no state that a reset changes (logs 9, 10, 15). -/
def State.softReset (s : State) : State :=
  { State.init s.cfg with sm := s.sm, epoch := s.epoch, events := s.events, rdata := s.rdata }

/-- The hardware reset: as R131 says, every word of sample memory unspecified anew (log 6; DEDUCED, log 17: safe). -/
def State.hardReset (s : State) : State :=
  { State.init s.cfg with epoch := s.epoch + 1, events := s.events, rdata := s.rdata }

/-! The frame of a command -/

/-- The end of every executed command: BUSY <- 0, DONE <- 1 (R112). -/
def State.complete (s : State) : State := { s with busy := false, done := true }

/-- The first check that fails, of a list in the order of R117. -/
def firstFault : List (Bool × Cause) → Option Cause
  | [] => none
  | (true, c) :: _ => some c
  | (false, _) :: rest => firstFault rest

/-- What a command that fails its checks with cause `c` leaves: the fault recorded with the command's word, and no other
effect (R112, R115). -/
def State.faulted (s : State) (c : Cause) (w : Word) : State := (s.recordFault c w 0#32).complete

/-- The engine's execution of command `i` (R112): BAD_UNIT (R117 step 3), then the command's own checks, then its effect. -/
def runCommand (i : Instr) (s : State) (check : Option Cause) (effect : State → State) :
    Host.Outcome State Fault Refusal :=
  match if i.ValidFor s.cfg then check else some .badUnit with
  | some c => .next (s.faulted c (encode i))
  | none => .next (effect s).complete

end Sys2Proof.Machine
end

