-- ==== Sys2Proof/Machine/Flags.lean ====
section
/-! DEFINITION. The flag words of the register window and the interrupt output: STATUS (R26, R110), CTRL (R27), RF (R21), the
cause codes (R115) and IRQ (R122). -/

namespace Sys2Proof.Machine

/-- The code of a fault cause (R115). -/
def Cause.code : Cause → BitVec 8
  | .none => 0 | .illegalOpcode => 1 | .reservedBits => 2 | .badUnit => 3 | .unconfigured => 4 | .badParam => 5
  | .range => 6 | .index => 7 | .busy => 8 | .nonfinite => 9 | .bus => 10

/-- One bit as a 32-bit word. -/
def bit (b : Bool) : Word := if b then 1#32 else 0#32

/-- STATUS reads as `FAULT | BUSY<<1 | DONE<<2 | FOVF<<3 | CAUSE<<8` (R110). -/
def State.statusWord (s : State) : Word :=
  bit s.fault ||| bit s.busy <<< 1 ||| bit s.done <<< 2 ||| bit s.fovf <<< 3 ||| s.cause.code.zeroExtend 32 <<< 8

/-- CTRL reads as `FIE | DIE<<1` (R110). -/
def State.ctrlWord (s : State) : Word := bit s.fie ||| bit s.die <<< 1

/-- RF reads as `zext_32(RF.FOUND)` (R110). -/
def State.rfWord (s : State) : Word := bit s.rfFound

/-- The interrupt output: a level, a function of the state (R122; DEDUCED, log 18: safe). -/
def State.irq (s : State) : Bool := (s.fault && s.fie) || (s.done && s.die)

end Sys2Proof.Machine
end

