-- ==== Sys2Proof/Machine/Operands.lean ====
section
/-! DEFINITION. The operand forms of commands (R63): argument registers as unbounded naturals, parameter registers as exact
reals, buffers, and the checks on them (R48, R49, R116). -/

namespace Sys2Proof.Machine

/-- The numeric profile of the block (R13). -/
abbrev State.num (s : State) : Profile := s.cfg.num

/-- `A[i]`, zero-extended to an unbounded integer (R63, R113). -/
def State.arg (s : State) (i : Fin 8) : Nat := s.A[i].toNat

/-- `P[i]` as a real number (R18); `-0.0` reads as 0 (R116). Meaningful when `paramFinite` holds. -/
def State.param (s : State) (i : Fin 4) : ℚ := value64 s.P[i]

/-- `P[i]` as a number of the block: the profile's constant for its value, as the pseudocode's `corner = P[0]` and the like name it
(R13, R18). That a build checks and computes with this constant, not with the pattern's own value, is a DESIGN CHOICE (log 1). -/
def State.paramNum (s : State) (i : Fin 4) : Num := Prim.lit s.num (s.param i)

/-- P register `i` holds a finite pattern (R116). -/
def State.paramFinite (s : State) (i : Fin 4) : Bool := finite64 s.P[i]

/-- The buffer `(base, n)` fits in sample memory (R48). -/
def State.fits (s : State) (base n : Nat) : Bool := base + n ≤ s.cfg.smWords

/-- The two buffers share no sample word (R49). -/
def disjoint (b1 n1 b2 n2 : Nat) : Bool := n1 == 0 || n2 == 0 || b1 + n1 ≤ b2 || b2 + n2 ≤ b1

/-- A block length is one a RUN or LOAD command accepts (R7 `MAX_BLOCK`). -/
def State.blockOk (s : State) (n : Nat) : Bool := n ≤ s.cfg.maxBlock

end Sys2Proof.Machine
end

