-- ==== Sys2Proof/Machine/Bus.lean ====
section
/-! DEFINITION. The host's steps: bus writes and reads, and the CMD write (R45, R46, R51-R55, R109-R111). -/

namespace Sys2Proof.Machine

/-- The registers of the register window (R46). -/
inductive BusReg where
  | id | cmd | status | ctrl | fcmd | faddr | ri | rf
  | a (i : Fin 8)
  | pLo (i : Fin 4)
  | pHi (i : Fin 4)
  | rvLo | rvHi
deriving DecidableEq, Repr

/-- `RegName(addr)`: the register at a word-aligned offset of the register window, none for a reserved offset (R46). -/
def regName (addr : Nat) : Option BusReg :=
  match addr / 4 with
  | 0 => some .id
  | 1 => some .cmd
  | 2 => some .status
  | 3 => some .ctrl
  | 4 => some .fcmd
  | 5 => some .faddr
  | 6 => some .ri
  | 7 => some .rf
  | 8 => some (.a 0)
  | 9 => some (.a 1)
  | 10 => some (.a 2)
  | 11 => some (.a 3)
  | 12 => some (.a 4)
  | 13 => some (.a 5)
  | 14 => some (.a 6)
  | 15 => some (.a 7)
  | 16 => some (.pLo 0)
  | 17 => some (.pHi 0)
  | 18 => some (.pLo 1)
  | 19 => some (.pHi 1)
  | 20 => some (.pLo 2)
  | 21 => some (.pHi 2)
  | 22 => some (.pLo 3)
  | 23 => some (.pHi 3)
  | 24 => some .rvLo
  | 25 => some .rvHi
  | _ => none

/-- What a byte address names (R45). -/
inductive Target where
  /-- Sample word `i`. -/
  | sample (i : Nat)
  | reg (r : BusReg)
  /-- An unmapped address or a reserved register offset. -/
  | unmapped
deriving DecidableEq, Repr

/-- The address map of a block with parameters `c` (R45). -/
def target (c : Params) (addr : BusAddr) : Target :=
  if 0x400000 ≤ addr.toNat ∧ addr.toNat < 0x400000 + 4 * c.smWords then .sample ((addr.toNat - 0x400000) / 4)
  else if addr.toNat < 0x1000 then (match regName addr.toNat with | some r => .reg r | none => .unmapped)
  else .unmapped

/-- The access is one the bus has: 32 bits wide and word-aligned (R51). -/
def accessOk (addr : BusAddr) (wd : Nat) : Bool := wd == 32 && addr.toNat % 4 == 0

/-- A fault of a host bus access (R119): FCMD 0, FADDR the zero-extended address. -/
def State.busFault (s : State) (c : Cause) (addr : BusAddr) : State :=
  s.recordFault c 0#32 (addr.zeroExtend 32)

/-- The SRST word, the one command accepted while FAULT = 1 (R108, R111). -/
def srstWord : Word := 0xFC000000#32

/-- `CmdWrite(w)` (R111). -/
def State.cmdWrite (s : State) (w : Word) : State :=
  if s.fault ∧ w ≠ srstWord then { s with fovf := true } else { s with pending := w, busy := true }

/-- Bits 31:0 of P[i] replaced (R109). -/
def setLow (p : DWord) (v : Word) : DWord := p.extractLsb' 32 32 ++ v

/-- Bits 63:32 of P[i] replaced (R109). -/
def setHigh (p : DWord) (v : Word) : DWord := v ++ p.extractLsb' 0 32

/-- A write of `v` to register `r` at address `addr`, after the map and alignment checks (R109). -/
def State.regWrite (s : State) (r : BusReg) (addr : BusAddr) (v : Word) : State :=
  match r with
  | .id => s
  | .status => s.statusW1C v
  | .ctrl => { s with fie := v.getLsbD 0, die := v.getLsbD 1 }
  | .cmd => if s.busy then s.busFault .busy addr else s.cmdWrite v
  | .fcmd | .faddr | .ri | .rf | .rvLo | .rvHi => if s.busy then s.busFault .busy addr else s
  | .a i => if s.busy then s.busFault .busy addr else { s with A := s.A.set i v }
  | .pLo i => if s.busy then s.busFault .busy addr else { s with P := s.P.set i (setLow s.P[i] v) }
  | .pHi i => if s.busy then s.busFault .busy addr else { s with P := s.P.set i (setHigh s.P[i] v) }

/-- `HostWrite(addr, wd, v)` (R109). -/
def State.hostWrite (s : State) (addr : BusAddr) (wd : Nat) (v : Word) : State :=
  if !accessOk addr wd then s.busFault .bus addr
  else match target s.cfg addr with
    | .sample i =>
      if s.busy then s.busFault .busy addr
      else if !finite32 v then s.busFault .nonfinite addr
      else { s with sm := Memory.write s.epoch s.sm i (Prim.lit s.cfg.num (value32 v)) }
    | .reg r => s.regWrite r addr v
    | .unmapped => s.busFault .bus addr

/-- The 32 bits a register reads as while the engine is idle (R110). -/
def State.regValue (s : State) (r : BusReg) : Word :=
  match r with
  | .id => s.cfg.idValue
  | .cmd => 0#32
  | .status => s.statusWord
  | .ctrl => s.ctrlWord
  | .fcmd => s.fcmd
  | .faddr => s.faddr
  | .ri => s.RI
  | .rf => s.rfWord
  | .a i => s.A[i]
  | .pLo i => s.P[i].extractLsb' 0 32
  | .pHi i => s.P[i].extractLsb' 32 32
  | .rvLo => (bits64 s.RV).extractLsb' 0 32
  | .rvHi => (bits64 s.RV).extractLsb' 32 32

/-- The registers the host may read while the engine is busy (R55, R110). -/
def BusReg.readableBusy : BusReg → Bool
  | .id | .status | .ctrl | .fcmd | .faddr | .cmd => true
  | _ => false

/-- `HostRead(addr, wd)`: the value returned and the state after, which differs only by a recorded fault (R110). -/
def State.hostRead (s : State) (addr : BusAddr) (wd : Nat) : Word × State :=
  if !accessOk addr wd then (0#32, s.busFault .bus addr)
  else match target s.cfg addr with
    | .sample i => if s.busy then (0#32, s.busFault .busy addr) else (bits32 (s.readSM i), s)
    | .reg r => if s.busy && !r.readableBusy then (0#32, s.busFault .busy addr) else (s.regValue r, s)
    | .unmapped => (0#32, s.busFault .bus addr)

end Sys2Proof.Machine
end

