-- ==== Sys2Proof/Machine/Control.lean ====
section
/-! DEFINITION. The control commands NOP and SRST (45_control.md). -/

namespace Sys2Proof.Machine

/-- NOP: no effect beyond the end of every command (R107). -/
def execNop (u : UnitIdx) (s : State) : Host.Outcome State Fault Refusal :=
  runCommand (.nop u) s none id

/-- SRST: soft reset of the block (R108, R132). -/
def execSrst (u : UnitIdx) (s : State) : Host.Outcome State Fault Refusal :=
  runCommand (.srst u) s none State.softReset

end Sys2Proof.Machine
end

