-- ==== Sys2Proof/Machine/Fir.lean ====
section
/-! DEFINITION. The kernel generator and the FIR filter (40_fir.md). -/

namespace Sys2Proof.Machine

/-! Shared definitions -/

/-- `2*pi` (R12). -/
def twoPi (N : Profile) : Num := Prim.mul N (Prim.lit N 2) (Prim.pi N)

/-- The Hamming window `w_M[n]` of odd length `M` (R68). -/
def hamming (N : Profile) (M n : Nat) : Num :=
  if M = 1 then Prim.lit N 1
  else Prim.sub N (Prim.lit N (54 / 100)) (Prim.mul N (Prim.lit N (46 / 100))
    (Prim.cos N (Prim.div N (Prim.mul N (twoPi N) (Prim.nat N n)) (Prim.nat N (M - 1)))))

/-- A requested tap count, an even one raised to the next odd (R69). -/
def oddTaps (taps : Nat) : Nat := taps + (taps + 1) % 2

/-- `raw[n]` of R69, for `fc = corner / rate` and length `M`. -/
def lpkRaw (N : Profile) (fc : Num) (M n : Nat) : Num :=
  let k : Int := (n : Int) - ((M - 1) / 2 : Nat)
  let s := if k = 0 then Prim.mul N (twoPi N) fc
           else Prim.div N (Prim.sin N (Prim.mul N (Prim.mul N (twoPi N) fc) (Prim.lit N k))) (Prim.lit N k)
  Prim.mul N s (hamming N M n)

/-- The raw coefficients of R69, in increasing order. -/
def lpkRaws (N : Profile) (rate : Nat) (corner : Num) (taps : Nat) : List Num :=
  (List.range (oddTaps taps)).map (lpkRaw N (Prim.div N corner (Prim.nat N rate)) (oddTaps taps))

/-- The sum `S` of R69. -/
def lpkSum (N : Profile) (rate : Nat) (corner : Num) (taps : Nat) : Num := Prim.sum N (lpkRaws N rate corner taps)

/-- The kernel `h` of `LPK(rate, corner, taps)`; its length is `oddTaps taps` (R69). -/
def lpk (N : Profile) (rate : Nat) (corner : Num) (taps : Nat) : List Num :=
  (lpkRaws N rate corner taps).map fun r => Prim.div N r (lpkSum N rate corner taps)

/-- The FIR output `conv(h, W, i)` (R70). -/
def conv (N : Profile) (h W : List Num) (i : Nat) : Num :=
  Prim.sum N ((List.range h.length).map fun k => Prim.mul N (h.getD k .zero) (W.getD (h.length - 1 + i - k) .zero))

/-- The last `n` elements (R10 `last`). -/
def lastN (n : Nat) (x : List Num) : List Num := x.drop (x.length - n)

/-- A sequence of `n` zeros (R10 `zeros`). -/
def zeros (n : Nat) : List Num := List.replicate n .zero

/-- History resize: the most recent samples are kept, a longer history is padded with zeros on its old end (R71). -/
def resize (H : List Num) (n : Nat) : List Num :=
  if n ≤ H.length then lastN n H else zeros (n - H.length) ++ H

/-- A block `x` loaded into a delay line of a length-`M` kernel: the window is history and block, the history its last `M-1`
samples (R74, R75, R84, R86). -/
def Line.load (l : Line) (M : Nat) (x : List Num) : Line :=
  { H := lastN (M - 1) (l.H ++ x), W := l.H ++ x, WL := x.length }

/-- A delay line of zeros with nothing loaded (R78, R83, R85). -/
def Line.zeroed (M : Nat) : Line := { H := zeros (M - 1), W := [], WL := 0 }

/-- The addressed FIR unit. -/
def State.firUnit (s : State) (u : UnitIdx) : FirUnit := pick s.fir u
def State.setFir (s : State) (u : UnitIdx) (x : FirUnit) : State := { s with fir := put s.fir u x }
def State.setRV (s : State) (v : Num) : State := { s with RV := v }
def State.setRI (s : State) (n : Nat) : State := { s with RI := BitVec.ofNat 32 n }

/-- `n / 2` of an integer operand: the Nyquist frequency of a rate (R72, R83). -/
def half (N : Profile) (n : Nat) : Num := Prim.div N (Prim.nat N n) (Prim.lit N 2)

/-! GEN.LPK (R72) -/

/-- The scalar checks GEN.LPK, RDS.CFG and CDS.CFG share on a requested tap count (R72, R83). -/
def State.tapsBad (s : State) (taps : Nat) : Bool := taps < 1 || oddTaps taps > s.cfg.maxTaps

/-- The checks of GEN.LPK (R72). In a build `0 < corner <= rate/2` compares the values of the build's constant for P0 and of its
quotient `rate / 2`: R13 gives a build its own `/` and number type, and says nothing of comparisons (DESIGN CHOICE, logs 1 and 3). -/
def genLpkCheck (s : State) : Option Cause :=
  firstFault
    [ (!s.paramFinite 0, .nonfinite),
      (s.tapsBad (s.arg 1) || s.arg 2 < 1, .badParam),
      (!(isPos (s.paramNum 0) && !isGreater (s.paramNum 0) (half s.num (s.arg 2))), .badParam) ]
  <|> firstFault
    [ (isZero (lpkSum s.num (s.arg 2) (s.paramNum 0) (s.arg 1)), .badParam),
      (!s.fits (s.arg 0) (oddTaps (s.arg 1)), .range) ]

def genLpkEffect (s : State) : State :=
  (s.memWrite (s.arg 0) (lpk s.num (s.arg 2) (s.paramNum 0) (s.arg 1))).setRI (oddTaps (s.arg 1))

/-- GEN.LPK: a low-pass kernel into sample memory (R72). -/
def execGenLpk (u : UnitIdx) (s : State) : Host.Outcome State Fault Refusal :=
  runCommand (.genLpk u) s (genLpkCheck s) genLpkEffect

/-! FIR.SETK (R73) -/

def firSetkCheck (s : State) : Option Cause :=
  firstFault
    [ (s.arg 1 < 1 || s.arg 1 > s.cfg.maxTaps || s.arg 1 % 2 == 0, .badParam),
      (!s.fits (s.arg 0) (s.arg 1), .range) ]

def firSetkEffect (u : UnitIdx) (s : State) : State :=
  s.setFir u
    { configured := true, M := s.arg 1, h := s.memRead (s.arg 0) (s.arg 1),
      line := { H := resize (s.firUnit u).line.H (s.arg 1 - 1), W := [], WL := 0 } }

/-- FIR.SETK: load a kernel, resize the history, discard the window (R73). -/
def execFirSetk (u : UnitIdx) (s : State) : Host.Outcome State Fault Refusal :=
  runCommand (.firSetk u) s (firSetkCheck s) (firSetkEffect u)

/-! FIR.RUN (R74) and FIR.LOAD (R75) -/

/-- The checks of FIR.RUN and FIR.LOAD. -/
def firBlockCheck (u : UnitIdx) (s : State) : Option Cause :=
  firstFault
    [ (!(s.firUnit u).configured, .unconfigured),
      (!s.blockOk (s.arg 1) || !s.fits (s.arg 0) (s.arg 1), .range) ]

/-- The block A0, A1 loaded into FIR unit `u`. -/
def firLoadEffect (u : UnitIdx) (s : State) : State :=
  let U := s.firUnit u
  s.setFir u { U with line := U.line.load U.M (s.memRead (s.arg 0) (s.arg 1)) }

def firRunEffect (u : UnitIdx) (s : State) : State :=
  let U := s.firUnit u
  let W := U.line.H ++ s.memRead (s.arg 0) (s.arg 1)
  (firLoadEffect u s).memWrite (s.arg 0) ((List.range (s.arg 1)).map (conv s.num U.h W))

/-- FIR.RUN: filter a block in place (R74). -/
def execFirRun (u : UnitIdx) (s : State) : Host.Outcome State Fault Refusal :=
  runCommand (.firRun u) s (firBlockCheck u s) (firRunEffect u)

/-- FIR.LOAD: load a block without output (R75). -/
def execFirLoad (u : UnitIdx) (s : State) : Host.Outcome State Fault Refusal :=
  runCommand (.firLoad u) s (firBlockCheck u s) (firLoadEffect u)

/-! FIR.GET (R76) -/

def firGetCheck (u : UnitIdx) (s : State) : Option Cause :=
  firstFault
    [ (!(s.firUnit u).configured, .unconfigured),
      (s.arg 0 ≥ (s.firUnit u).line.WL, .index) ]

def firGetEffect (u : UnitIdx) (s : State) : State :=
  s.setRV (conv s.num (s.firUnit u).h (s.firUnit u).line.W (s.arg 0))

/-- FIR.GET: one output of the loaded window (R76). -/
def execFirGet (u : UnitIdx) (s : State) : Host.Outcome State Fault Refusal :=
  runCommand (.firGet u) s (firGetCheck u s) (firGetEffect u)

/-! FIR.GDLY (R77) and FIR.CLR (R78) -/

/-- The check of FIR.GDLY and FIR.CLR. -/
def firConfiguredCheck (u : UnitIdx) (s : State) : Option Cause :=
  firstFault [ (!(s.firUnit u).configured, .unconfigured) ]

def firGdlyEffect (u : UnitIdx) (s : State) : State := s.setRI (((s.firUnit u).M - 1) / 2)

/-- FIR.GDLY: the group delay (R77). -/
def execFirGdly (u : UnitIdx) (s : State) : Host.Outcome State Fault Refusal :=
  runCommand (.firGdly u) s (firConfiguredCheck u s) (firGdlyEffect u)

def firClrEffect (u : UnitIdx) (s : State) : State :=
  let U := s.firUnit u
  s.setFir u { U with line := Line.zeroed U.M }

/-- FIR.CLR: zero the history, keeping the kernel (R78). -/
def execFirClr (u : UnitIdx) (s : State) : Host.Outcome State Fault Refusal :=
  runCommand (.firClr u) s (firConfiguredCheck u s) (firClrEffect u)

end Sys2Proof.Machine
end

