-- ==== Sys2Proof/Machine/Demod.lean ====
section
/-! DEFINITION. The FM discriminator, the AM envelope detector and the SSB demodulator (42_demodulators.md). -/

namespace Sys2Proof.Machine

def State.fmdUnit (s : State) (u : UnitIdx) : FmdUnit := pick s.fmd u
def State.setFmd (s : State) (u : UnitIdx) (x : FmdUnit) : State := { s with fmd := put s.fmd u x }
def State.amdUnit (s : State) (u : UnitIdx) : AmdUnit := pick s.amd u
def State.setAmd (s : State) (u : UnitIdx) (x : AmdUnit) : State := { s with amd := put s.amd u x }
def State.ssbUnit (s : State) (u : UnitIdx) : SsbUnit := pick s.ssb u
def State.setSsb (s : State) (u : UnitIdx) (x : SsbUnit) : State := { s with ssb := put s.ssb u x }

/-- A length or buffer of `A0 I, A1 Q, A2 len, A3 dst` is out of range (R89, R91, R94). -/
def demodRangeBad (s : State) : Bool :=
  !s.blockOk (s.arg 2) || !s.fits (s.arg 0) (s.arg 2) || !s.fits (s.arg 1) (s.arg 2) || !s.fits (s.arg 3) (s.arg 2)

/-- The complex input block `A0 I, A1 Q, A2 len` (R89, R91). -/
def State.iqBlock (s : State) : List (Num × Num) :=
  (s.memRead (s.arg 0) (s.arg 2)).zip (s.memRead (s.arg 1) (s.arg 2))

/-! FMD.CFG (R88) -/

def fmdCfgCheck (s : State) : Option Cause :=
  firstFault
    [ (!s.paramFinite 0, .nonfinite),
      (s.arg 0 < 1 || !isPos (s.paramNum 0), .badParam) ]

def fmdCfgEffect (u : UnitIdx) (s : State) : State :=
  s.setFmd u { configured := true, R := s.arg 0, maxDev := s.paramNum 0, Ip := .zero, Qp := .zero }

/-- FMD.CFG: construct an FM discriminator (R88). -/
def execFmdCfg (u : UnitIdx) (s : State) : Host.Outcome State Fault Refusal :=
  runCommand (.fmdCfg u) s (fmdCfgCheck s) (fmdCfgEffect u)

/-! FMD.RUN (R89) -/

/-- `atan2(im, re) * Kf` for a sample and its predecessor (R89; the sign of `im` as C1 resolves it). -/
def discriminate (N : Profile) (Kf : Num) (prev x : Num × Num) : Num :=
  let re := Prim.add N (Prim.mul N x.1 prev.1) (Prim.mul N x.2 prev.2)
  let im := Prim.sub N (Prim.mul N x.2 prev.1) (Prim.mul N x.1 prev.2)
  Prim.mul N (Prim.atan2 N im re) Kf

/-- The block of R89: the outputs and the last sample. -/
def discriminateBlock (N : Profile) (Kf : Num) : Num × Num → List (Num × Num) → List Num × (Num × Num)
  | prev, [] => ([], prev)
  | prev, x :: xs =>
    let r := discriminateBlock N Kf x xs
    (discriminate N Kf prev x :: r.1, r.2)

/-- `Kf = R / (2*pi*maxDev)` (R89). -/
def fmdScale (N : Profile) (U : FmdUnit) : Num := Prim.div N (Prim.nat N U.R) (Prim.mul N (twoPi N) U.maxDev)

def fmdRunCheck (u : UnitIdx) (s : State) : Option Cause :=
  firstFault [ (!(s.fmdUnit u).configured, .unconfigured), (demodRangeBad s, .range) ]

def fmdRunEffect (u : UnitIdx) (s : State) : State :=
  let U := s.fmdUnit u
  let r := discriminateBlock s.num (fmdScale s.num U) (U.Ip, U.Qp) s.iqBlock
  (s.setFmd u { U with Ip := r.2.1, Qp := r.2.2 }).memWrite (s.arg 3) r.1

/-- FMD.RUN: discriminate a complex block into a real block (R89). -/
def execFmdRun (u : UnitIdx) (s : State) : Host.Outcome State Fault Refusal :=
  runCommand (.fmdRun u) s (fmdRunCheck u s) (fmdRunEffect u)

/-! AMD.CFG (R90) -/

/-- `1 - exp(x)`, the coefficient form of R90, R96, R99, R101 and R103. -/
def poleCoeff (N : Profile) (x : Num) : Num := Prim.sub N (Prim.lit N 1) (Prim.exp N x)

/-- `1 - exp(-2*pi*corner / R)`, the coefficient of a one-pole filter with its corner in Hz (R90, R96). R12 lists no negation: `-2` is
one negative constant of the profile (DESIGN CHOICE, log 22). -/
def cornerCoeff (N : Profile) (corner : ℚ) (R : Nat) : Num :=
  poleCoeff N (Prim.div N (Prim.mul N (Prim.mul N (Prim.lit N (-2)) (Prim.pi N)) (Prim.lit N corner)) (Prim.nat N R))

/-- `1 - exp(-1 / (tau * R))`, the coefficient of a one-pole filter with its time constant in seconds (R96, R99, R101, R103). R12 lists
no negation: `-1` is one negative constant of the profile (DESIGN CHOICE, log 22). -/
def tauAlpha (N : Profile) (tau : Num) (R : Nat) : Num :=
  poleCoeff N (Prim.div N (Prim.lit N (-1)) (Prim.mul N tau (Prim.nat N R)))

def amdCfgCheck (s : State) : Option Cause := firstFault [ (s.arg 0 < 1, .badParam) ]

def amdCfgEffect (u : UnitIdx) (s : State) : State :=
  s.setAmd u { configured := true, R := s.arg 0, alpha := cornerCoeff s.num s.cfg.amHpHz (s.arg 0), dc := .zero }

/-- AMD.CFG: construct an AM envelope detector (R90). -/
def execAmdCfg (u : UnitIdx) (s : State) : Host.Outcome State Fault Refusal :=
  runCommand (.amdCfg u) s (amdCfgCheck s) (amdCfgEffect u)

/-! AMD.RUN (R91) -/

/-- One step of a one-pole low-pass: `y + alpha * (x - y)` (R91, R97, R100, R102, R104). -/
def onePole (N : Profile) (alpha y x : Num) : Num := Prim.add N y (Prim.mul N alpha (Prim.sub N x y))

/-- Input minus its one-pole low-pass, sample by sample: the outputs and the tracked level (R91, R104). -/
def highPassBlock (N : Profile) (alpha : Num) : Num → List Num → List Num × Num
  | dc, [] => ([], dc)
  | dc, x :: xs =>
    let dc' := onePole N alpha dc x
    let r := highPassBlock N alpha dc' xs
    (Prim.sub N x dc' :: r.1, r.2)

/-- `I*I + Q*Q` (R91, R105). -/
def squareMagnitude (N : Profile) (x : Num × Num) : Num := Prim.add N (Prim.mul N x.1 x.1) (Prim.mul N x.2 x.2)

/-- `sqrt(I*I + Q*Q)` (R91). -/
def envelope (N : Profile) (x : Num × Num) : Num := Prim.sqrt N (squareMagnitude N x)

def amdRunCheck (u : UnitIdx) (s : State) : Option Cause :=
  firstFault [ (!(s.amdUnit u).configured, .unconfigured), (demodRangeBad s, .range) ]

def amdRunEffect (u : UnitIdx) (s : State) : State :=
  let U := s.amdUnit u
  let r := highPassBlock s.num U.alpha U.dc (s.iqBlock.map (envelope s.num))
  (s.setAmd u { U with dc := r.2 }).memWrite (s.arg 3) r.1

/-- AMD.RUN: envelope-detect a complex block into a real block (R91). -/
def execAmdRun (u : UnitIdx) (s : State) : Host.Outcome State Fault Refusal :=
  runCommand (.amdRun u) s (amdRunCheck u s) (amdRunEffect u)

/-! SSB.CFG (R93) -/

/-- The 90-degree kernel `g[0..taps-1]` (R92). -/
def hilbertKernel (N : Profile) (taps : Nat) : List Num :=
  (List.range taps).map fun (n : Nat) =>
    let k : Int := (n : Int) - ((taps - 1) / 2 : Nat)
    if k % 2 = 0 then .zero
    else Prim.mul N (Prim.div N (Prim.lit N 2) (Prim.mul N (Prim.pi N) (Prim.lit N k))) (hamming N taps n)

def ssbCfgCheck (s : State) : Option Cause := firstFault [ (s.arg 0 > 1, .badParam) ]

def ssbCfgEffect (u : UnitIdx) (s : State) : State :=
  s.setSsb u { configured := true, sb := s.arg 0, HQ := zeros (s.cfg.hilbertTaps - 1),
               DI := zeros ((s.cfg.hilbertTaps - 1) / 2) }

/-- SSB.CFG: construct an SSB demodulator for one sideband (R93). -/
def execSsbCfg (u : UnitIdx) (s : State) : Host.Outcome State Fault Refusal :=
  runCommand (.ssbCfg u) s (ssbCfgCheck s) (ssbCfgEffect u)

/-! SSB.RUN (R94) -/

def ssbRunCheck (u : UnitIdx) (s : State) : Option Cause :=
  firstFault [ (!(s.ssbUnit u).configured, .unconfigured), (demodRangeBad s, .range) ]

/-- The sign of the Hilbert path: `+1` for the lower sideband, `-1` for the upper (R94), each one constant of the profile (DESIGN
CHOICE, log 22). -/
def ssbSign (N : Profile) (sb : Nat) : Num := if sb = 1 then Prim.lit N 1 else Prim.lit N (-1)

/-- `y[n] = WI[n] + sgn * qh`, with the kernel `g` (R94). -/
def ssbSample (N : Profile) (g : List Num) (sgn : Num) (WI WQ : List Num) (n : Nat) : Num :=
  Prim.add N (WI.getD n .zero) (Prim.mul N sgn (conv N g WQ n))

def ssbRunEffect (u : UnitIdx) (s : State) : State :=
  let U := s.ssbUnit u
  let WI := U.DI ++ s.memRead (s.arg 0) (s.arg 2)
  let WQ := U.HQ ++ s.memRead (s.arg 1) (s.arg 2)
  let g := hilbertKernel s.num s.cfg.hilbertTaps
  (s.setSsb u { U with HQ := lastN (s.cfg.hilbertTaps - 1) WQ, DI := lastN ((s.cfg.hilbertTaps - 1) / 2) WI }).memWrite
    (s.arg 3) ((List.range (s.arg 2)).map (ssbSample s.num g (ssbSign s.num U.sb) WI WQ))

/-- SSB.RUN: combine I and the 90-degree-shifted Q into one real block (R94). -/
def execSsbRun (u : UnitIdx) (s : State) : Host.Outcome State Fault Refusal :=
  runCommand (.ssbRun u) s (ssbRunCheck u s) (ssbRunEffect u)

end Sys2Proof.Machine
end

