-- ==== Sys2Proof/Machine/Filters.lean ====
section
/-! DEFINITION. De-emphasis, AGC, DC blocker and power meter (44_filters_agc_power.md). -/

namespace Sys2Proof.Machine

def State.demUnit (s : State) (u : UnitIdx) : DemUnit := pick s.dem u
def State.setDem (s : State) (u : UnitIdx) (x : DemUnit) : State := { s with dem := put s.dem u x }
def State.agcUnit (s : State) (u : UnitIdx) : AgcUnit := pick s.agc u
def State.setAgc (s : State) (u : UnitIdx) (x : AgcUnit) : State := { s with agc := put s.agc u x }
def State.dcbUnit (s : State) (u : UnitIdx) : DcbUnit := pick s.dcb u
def State.setDcb (s : State) (u : UnitIdx) (x : DcbUnit) : State := { s with dcb := put s.dcb u x }

/-- The checks of DEM.CFG, AGC.CFG and DCB.CFG (R99, R101, R103). -/
def tauCfgCheck (s : State) : Option Cause :=
  firstFault
    [ (!s.paramFinite 0, .nonfinite),
      (s.arg 0 < 1 || !isPos (s.paramNum 0), .badParam) ]

/-- The checks of DEM.RUN, AGC.RUN and DCB.RUN on a unit and the buffer `A0 buf, A1 len` (R100, R102, R104). -/
def inPlaceCheck (configured : Bool) (s : State) : Option Cause :=
  firstFault
    [ (!configured, .unconfigured),
      (!s.blockOk (s.arg 1) || !s.fits (s.arg 0) (s.arg 1), .range) ]

/-! DEM.CFG (R99) and DEM.RUN (R100) -/

def demCfgEffect (u : UnitIdx) (s : State) : State :=
  s.setDem u { configured := true, alpha := tauAlpha s.num (s.paramNum 0) (s.arg 0), y := .zero }

/-- DEM.CFG: construct a de-emphasis filter (R99). -/
def execDemCfg (u : UnitIdx) (s : State) : Host.Outcome State Fault Refusal :=
  runCommand (.demCfg u) s (tauCfgCheck s) (demCfgEffect u)

/-- The block of R100: the outputs and the last output. -/
def lowPassBlock (N : Profile) (alpha : Num) : Num → List Num → List Num × Num
  | y, [] => ([], y)
  | y, x :: xs =>
    let y' := onePole N alpha y x
    let r := lowPassBlock N alpha y' xs
    (y' :: r.1, r.2)

def demRunEffect (u : UnitIdx) (s : State) : State :=
  let U := s.demUnit u
  let r := lowPassBlock s.num U.alpha U.y (s.memRead (s.arg 0) (s.arg 1))
  (s.setDem u { U with y := r.2 }).memWrite (s.arg 0) r.1

/-- DEM.RUN: de-emphasise a real block in place (R100). -/
def execDemRun (u : UnitIdx) (s : State) : Host.Outcome State Fault Refusal :=
  runCommand (.demRun u) s (inPlaceCheck (s.demUnit u).configured s) (demRunEffect u)

/-! AGC.CFG (R101) and AGC.RUN (R102) -/

def agcCfgEffect (u : UnitIdx) (s : State) : State :=
  s.setAgc u { configured := true, alpha := tauAlpha s.num (s.paramNum 0) (s.arg 0), avg := .zero, primed := false }

/-- AGC.CFG: construct an AGC loop (R101). -/
def execAgcCfg (u : UnitIdx) (s : State) : Host.Outcome State Fault Refusal :=
  runCommand (.agcCfg u) s (tauCfgCheck s) (agcCfgEffect u)

/-- The average and the primed bit after a sample of magnitude `m` (R102). -/
def agcTrack (N : Profile) (U : AgcUnit) (m : Num) : AgcUnit :=
  if U.primed then { U with avg := onePole N U.alpha U.avg m }
  else if isPos m then { U with avg := m, primed := true }
  else U

/-- The block of R102 with the constant AGC_EPS: the outputs and the unit after the last sample. -/
def agcBlock (N : Profile) (eps : Num) : AgcUnit → List Num → List Num × AgcUnit
  | U, [] => ([], U)
  | U, x :: xs =>
    let U' := agcTrack N U (Prim.abs N x)
    let r := agcBlock N eps U' xs
    (Prim.div N x (Prim.max N U'.avg eps) :: r.1, r.2)

def agcRunEffect (u : UnitIdx) (s : State) : State :=
  let r := agcBlock s.num (Prim.lit s.num s.cfg.agcEps) (s.agcUnit u) (s.memRead (s.arg 0) (s.arg 1))
  (s.setAgc u r.2).memWrite (s.arg 0) r.1

/-- AGC.RUN: normalise a real block in place (R102). -/
def execAgcRun (u : UnitIdx) (s : State) : Host.Outcome State Fault Refusal :=
  runCommand (.agcRun u) s (inPlaceCheck (s.agcUnit u).configured s) (agcRunEffect u)

/-! DCB.CFG (R103) and DCB.RUN (R104) -/

def dcbCfgEffect (u : UnitIdx) (s : State) : State :=
  s.setDcb u { configured := true, alpha := tauAlpha s.num (s.paramNum 0) (s.arg 0), dc := .zero }

/-- DCB.CFG: construct a DC blocker (R103). -/
def execDcbCfg (u : UnitIdx) (s : State) : Host.Outcome State Fault Refusal :=
  runCommand (.dcbCfg u) s (tauCfgCheck s) (dcbCfgEffect u)

def dcbRunEffect (u : UnitIdx) (s : State) : State :=
  let U := s.dcbUnit u
  let r := highPassBlock s.num U.alpha U.dc (s.memRead (s.arg 0) (s.arg 1))
  (s.setDcb u { U with dc := r.2 }).memWrite (s.arg 0) r.1

/-- DCB.RUN: remove DC from a real block in place (R104). -/
def execDcbRun (u : UnitIdx) (s : State) : Host.Outcome State Fault Refusal :=
  runCommand (.dcbRun u) s (inPlaceCheck (s.dcbUnit u).configured s) (dcbRunEffect u)

/-! PWR.RUN (R105) -/

def pwrRunCheck (s : State) : Option Cause :=
  firstFault
    [ (!s.blockOk (s.arg 2) || !s.fits (s.arg 0) (s.arg 2) || !s.fits (s.arg 1) (s.arg 2), .range) ]

/-- The mean power of a complex block, 0 for an empty one (R105). -/
def meanPower (N : Profile) (x : List (Num × Num)) : Num :=
  if x.length = 0 then .zero else Prim.div N (Prim.sum N (x.map (squareMagnitude N))) (Prim.nat N x.length)

def pwrRunEffect (s : State) : State := s.setRV (meanPower s.num s.iqBlock)

/-- PWR.RUN: mean power of a complex block (R105). -/
def execPwrRun (u : UnitIdx) (s : State) : Host.Outcome State Fault Refusal :=
  runCommand (.pwrRun u) s (pwrRunCheck s) pwrRunEffect

/-! PWR.SNR (R106) -/

def pwrSnrCheck (s : State) : Option Cause :=
  firstFault
    [ (!s.paramFinite 0 || !s.paramFinite 1 || !s.paramFinite 2, .nonfinite),
      (s.arg 0 < 1 || !isPos (s.paramNum 1) || isNeg (s.paramNum 0) || isNeg (s.paramNum 2), .badParam) ]

/-- The SNR estimate, 0 for a zero total power (R106). -/
def snr (N : Profile) (pf bw pt : Num) (rate : Nat) : Num :=
  if isZero pt then .zero else Prim.div N (Prim.div N (Prim.mul N pf (Prim.nat N rate)) bw) pt

def pwrSnrEffect (s : State) : State := s.setRV (snr s.num (s.paramNum 0) (s.paramNum 1) (s.paramNum 2) (s.arg 0))

/-- PWR.SNR: the SNR estimate (R106). -/
def execPwrSnr (u : UnitIdx) (s : State) : Host.Outcome State Fault Refusal :=
  runCommand (.pwrSnr u) s (pwrSnrCheck s) pwrSnrEffect

end Sys2Proof.Machine
end

