-- ==== Sys2Proof/Machine/Mixer.lean ====
section
/-! DEFINITION. The frequency shifter and the downsamplers (41_mixer_downsample.md). -/

namespace Sys2Proof.Machine

def State.shfUnit (s : State) (u : UnitIdx) : ShfUnit := pick s.shf u
def State.setShf (s : State) (u : UnitIdx) (x : ShfUnit) : State := { s with shf := put s.shf u x }
def State.rdsUnit (s : State) (u : UnitIdx) : RdsUnit := pick s.rds u
def State.setRds (s : State) (u : UnitIdx) (x : RdsUnit) : State := { s with rds := put s.rds u x }
def State.cdsUnit (s : State) (u : UnitIdx) : CdsUnit := pick s.cds u
def State.setCds (s : State) (u : UnitIdx) (x : CdsUnit) : State := { s with cds := put s.cds u x }

/-! SHF.CFG (R80) -/

def shfCfgCheck (s : State) : Option Cause := firstFault [ (s.arg 0 < 1, .badParam) ]

def shfCfgEffect (u : UnitIdx) (s : State) : State :=
  s.setShf u { configured := true, R := s.arg 0, theta := .zero }

/-- SHF.CFG: construct a frequency shifter (R80). -/
def execShfCfg (u : UnitIdx) (s : State) : Host.Outcome State Fault Refusal :=
  runCommand (.shfCfg u) s (shfCfgCheck s) (shfCfgEffect u)

/-! SHF.RUN (R81) -/

/-- One sample `(I, Q)` multiplied by `exp(j*2*pi*th)` (R81). -/
def shift (N : Profile) (th : Num) (x : Num × Num) : Num × Num :=
  let c := Prim.cos N (Prim.mul N (twoPi N) th)
  let s := Prim.sin N (Prim.mul N (twoPi N) th)
  (Prim.sub N (Prim.mul N x.1 c) (Prim.mul N x.2 s), Prim.add N (Prim.mul N x.1 s) (Prim.mul N x.2 c))

/-- The block of R81: each sample is shifted by the current phase, then the phase advances by `d` turns. Answers the outputs
and the phase after the block.

DESIGN CHOICE, unsafe (log 21): R81's corner case says that `f = 0` leaves the block unchanged, but its pseudocode then still
multiplies by `exp(j*2*pi*theta)`, which differs for `theta ≠ 0`. The model follows the pseudocode. -/
def shiftBlock (N : Profile) (d : Num) : Num → List (Num × Num) → List (Num × Num) × Num
  | th, [] => ([], th)
  | th, x :: xs =>
    let r := shiftBlock N d (Prim.frac N (Prim.add N th d)) xs
    (shift N th x :: r.1, r.2)

def shfRunCheck (u : UnitIdx) (s : State) : Option Cause :=
  firstFault
    [ (!(s.shfUnit u).configured, .unconfigured),
      (!s.paramFinite 0, .nonfinite),
      (!s.blockOk (s.arg 2) || !s.fits (s.arg 0) (s.arg 2) || !s.fits (s.arg 1) (s.arg 2), .range),
      (!disjoint (s.arg 0) (s.arg 2) (s.arg 1) (s.arg 2), .range) ]

def shfRunEffect (u : UnitIdx) (s : State) : State :=
  let U := s.shfUnit u
  let x := (s.memRead (s.arg 0) (s.arg 2)).zip (s.memRead (s.arg 1) (s.arg 2))
  let r := shiftBlock s.num (Prim.div s.num (s.paramNum 0) (Prim.nat s.num U.R)) U.theta x
  ((s.setShf u { U with theta := r.2 }).memWrite (s.arg 0) (r.1.map (·.1))).memWrite (s.arg 1) (r.1.map (·.2))

/-- SHF.RUN: multiply a complex block by a running complex exponential, in place (R81). -/
def execShfRun (u : UnitIdx) (s : State) : Host.Outcome State Fault Refusal :=
  runCommand (.shfRun u) s (shfRunCheck u s) (shfRunEffect u)

/-! RDS.CFG (R83) and CDS.CFG (R85) -/

/-- The kernel of a downsampler: `LPK(inR, outR / 2, taps)` (R83). -/
def downKernel (N : Profile) (inR outR taps : Nat) : List Num := lpk N inR (half N outR) taps

/-- The checks of RDS.CFG and CDS.CFG (R83, R85). -/
def downCfgCheck (s : State) : Option Cause :=
  firstFault
    [ (s.arg 0 < 1 || s.arg 1 < 1 || s.arg 1 > s.arg 0, .badParam),
      (s.tapsBad (s.arg 2), .badParam) ]
  <|> firstFault
    [ (isZero (lpkSum s.num (s.arg 0) (half s.num (s.arg 1)) (s.arg 2)), .badParam) ]

def rdsCfgEffect (u : UnitIdx) (s : State) : State :=
  s.setRds u
    { configured := true, inRate := s.arg 0, outRate := s.arg 1, M := oddTaps (s.arg 2),
      h := downKernel s.num (s.arg 0) (s.arg 1) (s.arg 2), line := Line.zeroed (oddTaps (s.arg 2)) }

/-- RDS.CFG: construct a real downsampler (R83). -/
def execRdsCfg (u : UnitIdx) (s : State) : Host.Outcome State Fault Refusal :=
  runCommand (.rdsCfg u) s (downCfgCheck s) (rdsCfgEffect u)

def cdsCfgEffect (u : UnitIdx) (s : State) : State :=
  s.setCds u
    { configured := true, inRate := s.arg 0, outRate := s.arg 1, M := oddTaps (s.arg 2),
      h := downKernel s.num (s.arg 0) (s.arg 1) (s.arg 2),
      lineI := Line.zeroed (oddTaps (s.arg 2)), lineQ := Line.zeroed (oddTaps (s.arg 2)) }

/-- CDS.CFG: construct a complex downsampler (R85). -/
def execCdsCfg (u : UnitIdx) (s : State) : Host.Outcome State Fault Refusal :=
  runCommand (.cdsCfg u) s (downCfgCheck s) (cdsCfgEffect u)

/-! RDS.RUN (R84) and CDS.RUN (R86) -/

/-- `Lout = floor(L * outRate / inRate)` (R84, R87). -/
def downLength (inR outR L : Nat) : Nat := L * outR / inR

/-- `round(k * inRate / outRate)`, half up (R84). -/
def downIndex (inR outR k : Nat) : Nat := (2 * k * inR + outR) / (2 * outR)

/-- The picked outputs of a window (R84). -/
def downPick (N : Profile) (h W : List Num) (inR outR L : Nat) : List Num :=
  (List.range (downLength inR outR L)).map fun k => conv N h W (downIndex inR outR k)

def rdsRunCheck (u : UnitIdx) (s : State) : Option Cause :=
  let U := s.rdsUnit u
  firstFault
    [ (!U.configured, .unconfigured),
      (!s.blockOk (s.arg 1) || !s.fits (s.arg 0) (s.arg 1)
        || !s.fits (s.arg 2) (downLength U.inRate U.outRate (s.arg 1)), .range) ]

def rdsRunEffect (u : UnitIdx) (s : State) : State :=
  let U := s.rdsUnit u
  let x := s.memRead (s.arg 0) (s.arg 1)
  ((s.setRds u { U with line := U.line.load U.M x }).memWrite (s.arg 2)
    (downPick s.num U.h (U.line.H ++ x) U.inRate U.outRate (s.arg 1))).setRI (downLength U.inRate U.outRate (s.arg 1))

/-- RDS.RUN: filter and decimate one real block (R84). -/
def execRdsRun (u : UnitIdx) (s : State) : Host.Outcome State Fault Refusal :=
  runCommand (.rdsRun u) s (rdsRunCheck u s) (rdsRunEffect u)

def cdsRunCheck (u : UnitIdx) (s : State) : Option Cause :=
  let U := s.cdsUnit u
  let Lout := downLength U.inRate U.outRate (s.arg 2)
  firstFault
    [ (!U.configured, .unconfigured),
      (!s.blockOk (s.arg 2) || !s.fits (s.arg 0) (s.arg 2) || !s.fits (s.arg 1) (s.arg 2)
        || !s.fits (s.arg 3) Lout || !s.fits (s.arg 4) Lout, .range),
      (!disjoint (s.arg 3) Lout (s.arg 4) Lout, .range) ]

def cdsRunEffect (u : UnitIdx) (s : State) : State :=
  let U := s.cdsUnit u
  let xI := s.memRead (s.arg 0) (s.arg 2)
  let xQ := s.memRead (s.arg 1) (s.arg 2)
  (((s.setCds u { U with lineI := U.lineI.load U.M xI, lineQ := U.lineQ.load U.M xQ }).memWrite (s.arg 3)
    (downPick s.num U.h (U.lineI.H ++ xI) U.inRate U.outRate (s.arg 2))).memWrite (s.arg 4)
    (downPick s.num U.h (U.lineQ.H ++ xQ) U.inRate U.outRate (s.arg 2))).setRI (downLength U.inRate U.outRate (s.arg 2))

/-- CDS.RUN: filter and decimate a complex block (R86). -/
def execCdsRun (u : UnitIdx) (s : State) : Host.Outcome State Fault Refusal :=
  runCommand (.cdsRun u) s (cdsRunCheck u s) (cdsRunEffect u)

end Sys2Proof.Machine
end

