-- ==== Sys2Proof/Machine/Stereo.lean ====
section
/-! DEFINITION. The stereo separator with its 19 kHz pilot PLL (43_stereo.md). -/

namespace Sys2Proof.Machine

def State.stsUnit (s : State) (u : UnitIdx) : StsUnit := pick s.sts u
def State.setSts (s : State) (u : UnitIdx) (x : StsUnit) : State := { s with sts := put s.sts u x }
def State.setRF (s : State) (b : Bool) : State := { s with rfFound := b }

/-! STS.CFG (R96) -/

/-- `4 * PILOT_HZ` (R96). -/
def pilotLimit (c : Params) : Num := Prim.mul c.num (Prim.lit c.num 4) (Prim.lit c.num c.pilotHz)

/-- The check of STS.CFG (R96). In a build it compares the values of the build's constant for the rate and of its product
`4 * PILOT_HZ` (DESIGN CHOICE, logs 1 and 3). -/
def stsCfgCheck (s : State) : Option Cause :=
  firstFault [ (!isGreater (Prim.nat s.num (s.arg 0)) (pilotLimit s.cfg), .badParam) ]

/-- The unit STS.CFG makes for composite sampled at `R` in a block with parameters `c` (R96). The negations in `alphaE` and `alphaA`
are negative constants of the profile (DESIGN CHOICE, log 22). -/
def stsConfigured (c : Params) (R : Nat) : StsUnit :=
  let N := c.num
  let r := Prim.nat N R
  let wn := Prim.div N (Prim.mul N (twoPi N) (Prim.lit N c.pllBwHz)) r
  let kd := Prim.mul N (twoPi N) (Prim.lit N c.pllKd)
  let pilot := Prim.lit N c.pilotHz
  let pull := Prim.lit N c.pllPullHz
  let w0 := Prim.div N pilot r
  { configured := true
    R := R
    Kp := Prim.div N (Prim.mul N (Prim.mul N (Prim.lit N 2) (Prim.lit N c.pllZeta)) wn) kd
    Ki := Prim.div N (Prim.mul N wn wn) kd
    alphaE := cornerCoeff N c.pllErrHz R
    alphaA := tauAlpha N (Prim.lit N c.pllAmpTau) R
    w0 := w0
    wmin := Prim.div N (Prim.sub N pilot pull) r
    wmax := Prim.div N (Prim.add N pilot pull) r
    theta := .zero
    w := w0
    e := .zero
    a := .zero
    found := false }

def stsCfgEffect (u : UnitIdx) (s : State) : State := s.setSts u (stsConfigured s.cfg (s.arg 0))

/-- STS.CFG: construct a stereo separator (R96). -/
def execStsCfg (u : UnitIdx) (s : State) : Host.Outcome State Fault Refusal :=
  runCommand (.stsCfg u) s (stsCfgCheck s) (stsCfgEffect u)

/-! STS.RUN (R97) -/

/-- The difference output of one sample: `2 * x * sin(4*pi*th)` (R97). -/
def pilotDiff (N : Profile) (U : StsUnit) (x : Num) : Num :=
  Prim.mul N (Prim.mul N (Prim.lit N 2) x) (Prim.sin N (Prim.mul N (Prim.mul N (Prim.lit N 4) (Prim.pi N)) U.theta))

/-- The loop's state after one sample (R97). R97's corner case "an all-zero block leaves e, a and w unchanged" and its pseudocode
disagree where `e` or `a` is not 0: the pseudocode then moves both towards 0, and `w` by `Ki*e`. The model follows the pseudocode
(DESIGN CHOICE, log 21: unsafe). -/
def pilotStep (N : Profile) (U : StsUnit) (x : Num) : StsUnit :=
  let s := Prim.sin N (Prim.mul N (twoPi N) U.theta)
  let c := Prim.cos N (Prim.mul N (twoPi N) U.theta)
  let e := onePole N U.alphaE U.e (Prim.mul N x c)
  let a := onePole N U.alphaA U.a (Prim.mul N (Prim.mul N (Prim.lit N 2) x) s)
  let w := Prim.clamp N (Prim.add N U.w (Prim.mul N U.Ki e)) U.wmin U.wmax
  { U with e := e, a := a, w := w, theta := Prim.frac N (Prim.add N (Prim.add N U.theta w) (Prim.mul N U.Kp e)) }

/-- The block of R97: the mixed outputs and the loop's state after the last sample. -/
def pilotBlock (N : Profile) : StsUnit → List Num → List Num × StsUnit
  | U, [] => ([], U)
  | U, x :: xs =>
    let r := pilotBlock N (pilotStep N U x) xs
    (pilotDiff N U x :: r.1, r.2)

def stsRunCheck (u : UnitIdx) (s : State) : Option Cause :=
  firstFault
    [ (!(s.stsUnit u).configured, .unconfigured),
      (!s.blockOk (s.arg 1) || !s.fits (s.arg 0) (s.arg 1) || !s.fits (s.arg 2) (s.arg 1), .range) ]

def stsRunEffect (u : UnitIdx) (s : State) : State :=
  let r := pilotBlock s.num (s.stsUnit u) (s.memRead (s.arg 0) (s.arg 1))
  let found := isGreater r.2.a (Prim.lit s.num s.cfg.pllThresh)
  ((s.setSts u { r.2 with found := found }).memWrite (s.arg 2) (if found then r.1 else zeros (s.arg 1))).setRF found

/-- STS.RUN: track the pilot over one block and write the L-R difference block (R97). -/
def execStsRun (u : UnitIdx) (s : State) : Host.Outcome State Fault Refusal :=
  runCommand (.stsRun u) s (stsRunCheck u s) (stsRunEffect u)

end Sys2Proof.Machine
end

