-- ==== Sys2Proof/Machine/Dispatch.lean ====
section
/-! DEFINITION. The meaning of every command of the opcode map (R64), one arm per constructor. -/

namespace Sys2Proof.Machine

def exec (i : Instr) (s : State) : Host.Outcome State Fault Refusal :=
  match i with
  | .nop u => Sys2Proof.Machine.execNop u s
  | .genLpk u => Sys2Proof.Machine.execGenLpk u s
  | .firSetk u => Sys2Proof.Machine.execFirSetk u s
  | .firRun u => Sys2Proof.Machine.execFirRun u s
  | .firLoad u => Sys2Proof.Machine.execFirLoad u s
  | .firGet u => Sys2Proof.Machine.execFirGet u s
  | .firGdly u => Sys2Proof.Machine.execFirGdly u s
  | .firClr u => Sys2Proof.Machine.execFirClr u s
  | .shfCfg u => Sys2Proof.Machine.execShfCfg u s
  | .shfRun u => Sys2Proof.Machine.execShfRun u s
  | .rdsCfg u => Sys2Proof.Machine.execRdsCfg u s
  | .rdsRun u => Sys2Proof.Machine.execRdsRun u s
  | .cdsCfg u => Sys2Proof.Machine.execCdsCfg u s
  | .cdsRun u => Sys2Proof.Machine.execCdsRun u s
  | .fmdCfg u => Sys2Proof.Machine.execFmdCfg u s
  | .fmdRun u => Sys2Proof.Machine.execFmdRun u s
  | .amdCfg u => Sys2Proof.Machine.execAmdCfg u s
  | .amdRun u => Sys2Proof.Machine.execAmdRun u s
  | .ssbCfg u => Sys2Proof.Machine.execSsbCfg u s
  | .ssbRun u => Sys2Proof.Machine.execSsbRun u s
  | .stsCfg u => Sys2Proof.Machine.execStsCfg u s
  | .stsRun u => Sys2Proof.Machine.execStsRun u s
  | .demCfg u => Sys2Proof.Machine.execDemCfg u s
  | .demRun u => Sys2Proof.Machine.execDemRun u s
  | .agcCfg u => Sys2Proof.Machine.execAgcCfg u s
  | .agcRun u => Sys2Proof.Machine.execAgcRun u s
  | .dcbCfg u => Sys2Proof.Machine.execDcbCfg u s
  | .dcbRun u => Sys2Proof.Machine.execDcbRun u s
  | .pwrRun u => Sys2Proof.Machine.execPwrRun u s
  | .pwrSnr u => Sys2Proof.Machine.execPwrSnr u s
  | .srst u => Sys2Proof.Machine.execSrst u s

end Sys2Proof.Machine
end

