-- ==== Sys2Proof/Machine/Engine.lean ====
section
/-! DEFINITION. The engine's step and the step each event asks for (R57, R112). -/

namespace Sys2Proof.Machine

/-- The fault cause of a word that is no command (R65, R117). -/
def rejectCause : Reject → Cause
  | .illegalOpcode => .illegalOpcode
  | .reservedBits => .reservedBits

/-- `EngineStep()`: the pending word is decoded, a word that is no command faults, a command executes (R112). -/
def engineStep (s : State) : Host.Outcome State Fault Refusal :=
  match decode s.pending with
  | .ok i => exec i s
  | .error r => .next (s.faulted (rejectCause r) s.pending)

/-- The engine's turn: it is enabled only while BUSY = 1 (R112). -/
def engineTurn (s : State) : Host.Outcome State Fault Refusal := if s.busy then engineStep s else .next s

/-- The step one event asks for (R57). -/
def eventStep (e : Event) (s : State) : Host.Outcome State Fault Refusal :=
  match e with
  | .write addr wd v => .next (s.hostWrite addr wd v)
  | .read addr wd => .next { (s.hostRead addr wd).2 with rdata := (s.hostRead addr wd).1 }
  | .hardReset => .next s.hardReset
  | .engine => engineTurn s

end Sys2Proof.Machine
end

