-- ==== Sys2Proof/Machine/Step.lean ====
section
/-! DEFINITION. One step of the total order of host, platform and engine steps (R57, R112). -/

namespace Sys2Proof.Machine

/-- One step: the next event; with no event left, the engine's turn (log 9). -/
def step (s : State) : Host.Outcome State Fault Refusal :=
  match s.events with
  | [] => engineTurn s
  | e :: es => eventStep e { s with events := es }

/-- `s` with the word of the table pending and the engine's turn next, so that the very next step executes it
(DESIGN CHOICE, log 11: safe). With no event listed it is the busy engine's turn anyway. -/
def State.withFetchWord (s : State) (nbits w : Nat) : State :=
  { s with
    pending := BitVec.ofNat 32 (w % 2 ^ nbits)
    busy := true
    events := match s.events with | [] => [] | e :: es => .engine :: e :: es }

end Sys2Proof.Machine
end

