-- ==== Sys2Proof/Safety.lean ====
section
/-! DEFINITION. What a good state is: the invariants that the rules give the machine's state (10_state.md), each a predicate on
every state, reachable or not. -/

namespace Sys2Proof.Machine

/-- The delay line of a length-`M` kernel (R31): `M-1` history samples, a loaded length within MAX_BLOCK, and a window of
`M-1+WL` samples or none loaded. -/
structure Line.Ok (c : Params) (M : Nat) (l : Line) : Prop where
  history : l.H.length = M - 1
  loaded : l.WL ≤ c.maxBlock
  window : l.W.length = M - 1 + l.WL ∨ (l.W = [] ∧ l.WL = 0)

/-- A kernel length that R31 allows: odd and at most MAX_TAPS. -/
def KernelLength (c : Params) (M : Nat) : Prop := M % 2 = 1 ∧ M ≤ c.maxTaps

/-- A FIR unit, once configured, has the shape of R31; before, nothing is loaded. -/
structure FirUnit.Ok (c : Params) (U : FirUnit) : Prop where
  shape : U.configured = true → KernelLength c U.M ∧ U.h.length = U.M ∧ U.line.Ok c U.M
  unset : U.configured = false → U.line = Line.reset

/-- A real downsampler, once configured, has the shape of R33. -/
structure RdsUnit.Ok (c : Params) (U : RdsUnit) : Prop where
  shape : U.configured = true →
    1 ≤ U.outRate ∧ U.outRate ≤ U.inRate ∧ KernelLength c U.M ∧ U.h.length = U.M ∧ U.line.Ok c U.M

/-- A complex downsampler, once configured, has the shape of R34. -/
structure CdsUnit.Ok (c : Params) (U : CdsUnit) : Prop where
  shape : U.configured = true →
    1 ≤ U.outRate ∧ U.outRate ≤ U.inRate ∧ KernelLength c U.M ∧ U.h.length = U.M ∧ U.lineI.Ok c U.M ∧ U.lineQ.Ok c U.M

/-- An SSB demodulator has a sideband of 0 or 1 and delay lines of fixed length (R37). -/
structure SsbUnit.Ok (c : Params) (U : SsbUnit) : Prop where
  sideband : U.sb ≤ 1
  history : U.HQ.length = c.hilbertTaps - 1
  delay : U.DI.length = (c.hilbertTaps - 1) / 2

/-- Every delay line has the length its rule gives it (R31, R33, R34, R37). -/
structure State.DelayInv (s : State) : Prop where
  fir : ∀ U ∈ s.fir.toList, U.Ok s.cfg
  rds : ∀ U ∈ s.rds.toList, U.Ok s.cfg
  cds : ∀ U ∈ s.cds.toList, U.Ok s.cfg
  ssb : ∀ U ∈ s.ssb.toList, U.Ok s.cfg

/-- RI never exceeds MAX_BLOCK (R113). -/
def State.RiInv (s : State) : Prop := s.RI.toNat ≤ s.cfg.maxBlock

/-- Sample memory has its canonical form (log 5). -/
def State.MemInv (s : State) : Prop := Memory.wf s.cfg.smWords s.epoch s.sm

/-- The fault record: empty while FAULT = 0, a real cause while FAULT = 1, and FCMD or FADDR 0 (R26, R28, R115, R119, R120). -/
structure State.FaultInv (s : State) : Prop where
  clear : s.fault = false → s.cause = .none ∧ s.fcmd = 0#32 ∧ s.faddr = 0#32
  named : s.fault = true → s.cause ≠ .none
  source : s.fcmd = 0#32 ∨ s.faddr = 0#32

/-- A phase in turns, kept in `[0, 1)` (R32, R38). -/
def Turn (a : Num) : Prop := 0 ≤ a.toReal ∧ a.toReal < 1

/-- The phases of shifters and stereo separators stay in `[0, 1)` (R32, R38, R81, R97). -/
structure State.PhaseInv (s : State) : Prop where
  shf : ∀ U ∈ s.shf.toList, Turn U.theta
  sts : ∀ U ∈ s.sts.toList, Turn U.theta

/-- The NCO frequency of every configured stereo separator lies between `wmin` and `wmax` (R97). -/
def State.NcoInv (s : State) : Prop :=
  ∀ U ∈ s.sts.toList, U.configured = true →
    U.wmin.toReal ≤ U.wmax.toReal ∧ U.wmin.toReal ≤ U.w.toReal ∧ U.w.toReal ≤ U.wmax.toReal

/-- A one-pole coefficient strictly between 0 and 1 (R90, R99, R101, R103). -/
def PoleOk (a : Num) : Prop := 0 < a.toReal ∧ a.toReal < 1

/-- Every configured one-pole filter has a coefficient strictly between 0 and 1, and an AGC's average is never negative
(R36, R39, R40, R41). -/
structure State.PoleInv (s : State) : Prop where
  amd : ∀ U ∈ s.amd.toList, U.configured = true → PoleOk U.alpha
  dem : ∀ U ∈ s.dem.toList, U.configured = true → PoleOk U.alpha
  agc : ∀ U ∈ s.agc.toList, U.configured = true → PoleOk U.alpha ∧ 0 ≤ U.avg.toReal
  dcb : ∀ U ∈ s.dcb.toList, U.configured = true → PoleOk U.alpha

/-! The formulas of the rules over the real numbers (R13, profile `EXACT`), as the statements speak of them -/

/-- Element `i` of a sequence of numbers, as a real number. -/
noncomputable def realAt (l : List Num) (i : Nat) : ℝ := (l.getD i .zero).toReal

/-- `SM[base+i]` as a real number. -/
noncomputable def State.sample (s : State) (base i : Nat) : ℝ := (s.readSM (base + i)).toReal

/-- `conv(h, W, i)` for a kernel of length `M` (R70). -/
noncomputable def realConv (M : Nat) (h W : List Num) (i : Nat) : ℝ :=
  ∑ k ∈ Finset.range M, realAt h k * realAt W (M - 1 + i - k)

/-- The Hamming window `w_M[n]` (R68). -/
noncomputable def realHamming (M n : Nat) : ℝ :=
  if M = 1 then 1 else 0.54 - 0.46 * Real.cos (2 * Real.pi * n / ((M : ℝ) - 1))

/-- `raw[n]` of R69. -/
noncomputable def realRaw (fc : ℝ) (M n : Nat) : ℝ :=
  let k : ℤ := (n : ℤ) - ((M - 1) / 2 : Nat)
  (if k = 0 then 2 * Real.pi * fc else Real.sin (2 * Real.pi * fc * k) / k) * realHamming M n

/-- `h[n]` of the kernel of length `M` that `LPK(rate, corner, taps)` returns (R69). -/
noncomputable def realLpk (rate corner : ℝ) (M n : Nat) : ℝ :=
  realRaw (corner / rate) M n / ∑ j ∈ Finset.range M, realRaw (corner / rate) M j

/-- `h` is the kernel of length `M` of `LPK(rate, corner, taps)` (R69). -/
def IsLpk (h : List Num) (rate corner : ℝ) (M : Nat) : Prop :=
  h.length = M ∧ ∀ n, n < M → realAt h n = realLpk rate corner M n

/-- `g[n]` of the 90-degree kernel of length `taps` (R92). -/
noncomputable def realHilbert (taps n : Nat) : ℝ :=
  let k : ℤ := (n : ℤ) - ((taps - 1) / 2 : Nat)
  if k % 2 = 0 then 0 else 2 / (Real.pi * k) * realHamming taps n

/-- The one-pole low-pass `y <- y + alpha * (x[n] - y)` after `n` samples, from `y0` (R91, R100, R104). -/
noncomputable def realPole (alpha y0 : ℝ) (x : Nat → ℝ) : Nat → ℝ
  | 0 => y0
  | n + 1 => realPole alpha y0 x n + alpha * (x n - realPole alpha y0 x n)

/-- The AGC's `(avg, primed)` after `n` samples (R102). -/
noncomputable def realAgc (alpha avg0 : ℝ) (primed0 : Bool) (x : Nat → ℝ) : Nat → ℝ × Bool
  | 0 => (avg0, primed0)
  | n + 1 =>
    let r := realAgc alpha avg0 primed0 x n
    if r.2 then (r.1 + alpha * (|x n| - r.1), true)
    else if 0 < |x n| then (|x n|, true) else r

/-- The loop variables of the stereo separator: `th`, `w`, `e`, `a` (R97). -/
structure PilotLoop where
  th : ℝ
  w : ℝ
  e : ℝ
  a : ℝ

/-- The loop variables of unit `U` after `n` samples of `x` (R97). -/
noncomputable def pilotLoop (U : StsUnit) (x : Nat → ℝ) : Nat → PilotLoop
  | 0 => { th := U.theta.toReal, w := U.w.toReal, e := U.e.toReal, a := U.a.toReal }
  | n + 1 =>
    let p := pilotLoop U x n
    let e := p.e + U.alphaE.toReal * (x n * Real.cos (2 * Real.pi * p.th) - p.e)
    let a := p.a + U.alphaA.toReal * (2 * x n * Real.sin (2 * Real.pi * p.th) - p.a)
    let w := min (max (p.w + U.Ki.toReal * e) U.wmin.toReal) U.wmax.toReal
    { th := Int.fract (p.th + w + U.Kp.toReal * e), w := w, e := e, a := a }

/-- `n` is `binaryN_RNE(x)` in the format with `eb` exponent and `fb` fraction bits (R52, log 16): a finite pattern no further from
`x` than any other, with an even last bit if another value is as near; from half a step beyond the largest finite number on, the
signed infinity; zero as +0. -/
structure Rne (eb fb n : Nat) (x : ℝ) : Prop where
  width : n < 2 ^ (1 + eb + fb)
  nearest : |x| < 2 ^ 2 ^ (eb - 1) - 2 ^ (2 ^ (eb - 1) - fb - 2) → floatFinite eb fb n = true ∧
    ∀ p, p < 2 ^ (1 + eb + fb) → floatFinite eb fb p = true →
      |(floatValue eb fb n : ℝ) - x| ≤ |(floatValue eb fb p : ℝ) - x| ∧
      (floatValue eb fb p ≠ floatValue eb fb n → |(floatValue eb fb n : ℝ) - x| = |(floatValue eb fb p : ℝ) - x| → n % 2 = 0)
  overflow : 2 ^ 2 ^ (eb - 1) - 2 ^ (2 ^ (eb - 1) - fb - 2) ≤ x → n = (2 ^ eb - 1) * 2 ^ fb
  underflow : x ≤ -(2 ^ 2 ^ (eb - 1) - 2 ^ (2 ^ (eb - 1) - fb - 2)) → n = 2 ^ (eb + fb) + (2 ^ eb - 1) * 2 ^ fb
  zero : x = 0 → n = 0

/-- `m` is the sample memory of `s` after `SM[base+i] <- y i` for `i < n` (in the `EXACT` profile, R13): every other word reads as
before, in every profile (R11). -/
structure State.Stored (s : State) (m : Memory) (base n : Nat) (y : Nat → ℝ) : Prop where
  inside : s.cfg.num = .exact → ∀ i, i < n → (Memory.read s.epoch m (base + i)).toReal = y i
  outside : ∀ a, a < base ∨ base + n ≤ a → Memory.read s.epoch m a = s.readSM a

/-- `m` is the sample memory of `s` after `SM[b1+i] <- y1 i` and `SM[b2+i] <- y2 i` for `i < n`, on disjoint buffers. -/
structure State.Stored2 (s : State) (m : Memory) (b1 b2 n : Nat) (y1 y2 : Nat → ℝ) : Prop where
  first : s.cfg.num = .exact → ∀ i, i < n → (Memory.read s.epoch m (b1 + i)).toReal = y1 i
  second : s.cfg.num = .exact → ∀ i, i < n → (Memory.read s.epoch m (b2 + i)).toReal = y2 i
  outside : ∀ a, a < b1 ∨ b1 + n ≤ a → a < b2 ∨ b2 + n ≤ a → Memory.read s.epoch m a = s.readSM a

/-- Executing `i` at `s` faults with cause `c`: the fault is recorded with the command's word, and nothing else happens but
BUSY <- 0, DONE <- 1 (R112, R115). -/
def Faults (i : Instr) (s : State) (c : Cause) : Prop := exec i s = .next (s.faulted c (encode i))

/-- A step of the machine that answers a next state keeps `Inv`. -/
def Kept (Inv : State → Prop) : Prop := ∀ s t : State, Inv s → step s = .next t → Inv t

end Sys2Proof.Machine
end

