-- ==== Sys2Proof/Certificates/Slice0/Obligations.lean ====
section
/-! DEFINITION. The statements for the provers.

A statement about a command says what `exec` answers for every unit field and every state, case by case in the order of R117: the
faults first, then the state after completion as a record update, which is the frame: a field not named in it is unchanged. Where
the command writes sample memory, `State.Stored` says which words it writes, at which address, and that every other word reads
as before. The parameters are those of the state's record `s.cfg` (R7); what a number is as a real is stated for the `EXACT` profile
(R13), everything else for every profile. -/

open Sys2Proof Sys2Proof.Machine

/-! Control commands -/

/-- R107: NOP completes with no other effect. -/
def Obligations.NopResult : Prop := ∀ (u : UnitIdx) (s : State),
  if u ≠ 0#6 then Faults (.nop u) s .badUnit
  else exec (.nop u) s = .next { s with busy := false, done := true }

/-- R108, R132: SRST resets everything but sample memory and completes; STATUS then reads 4 and IRQ is 0. The parameters and the
model's own fields `epoch`, `events` and `rdata` stay (logs 6, 9, 10); what PENDING and an unconfigured kernel reset to is the
model's choice (logs 7, 8). -/
def Obligations.SrstResult : Prop := ∀ (u : UnitIdx) (s : State),
  if u ≠ 0#6 then Faults (.srst u) s .badUnit
  else ∃ t, exec (.srst u) s = .next t ∧
    t = { State.init s.cfg with sm := s.sm, epoch := s.epoch, events := s.events, rdata := s.rdata, busy := false, done := true } ∧
    t.statusWord = 4#32 ∧ t.irq = false ∧ ∀ a, t.readSM a = s.readSM a

/-! Kernel generator and FIR filter -/

/-- R72 with R68 and R69: GEN.LPK writes the kernel and its length. In the `EXACT` profile `corner` and `nyquist` are the rule's
corner and `rate/2`, and the case `isZero` is its `S = 0`: the sum of the raw coefficients as real numbers is 0. In a build they are
its constant for P0 and its quotient, compared by value (logs 1 and 3, the model's choice). -/
def Obligations.GenLpkResult : Prop := ∀ (u : UnitIdx) (s : State), s.MemInv →
  let M := s.arg 1 + (s.arg 1 + 1) % 2
  let corner := Prim.lit s.cfg.num (s.param 0)
  let nyquist := Prim.div s.cfg.num (Prim.nat s.cfg.num (s.arg 2)) (Prim.lit s.cfg.num 2)
  let S := lpkSum s.cfg.num (s.arg 2) corner (s.arg 1)
  (s.cfg.num = .exact → corner.toReal = s.param 0 ∧ nyquist.toReal = (s.arg 2 : ℝ) / 2 ∧
    (isZero S = true ↔ ∑ j ∈ Finset.range M, realRaw ((s.param 0 : ℝ) / s.arg 2) M j = 0)) ∧
  if u ≠ 0#6 then Faults (.genLpk u) s .badUnit
  else if s.paramFinite 0 = false then Faults (.genLpk u) s .nonfinite
  else if s.arg 1 < 1 ∨ s.cfg.maxTaps < M ∨ s.arg 2 < 1 then Faults (.genLpk u) s .badParam
  else if ¬ (0 < corner.toReal ∧ corner.toReal ≤ nyquist.toReal) then Faults (.genLpk u) s .badParam
  else if isZero S then Faults (.genLpk u) s .badParam
  else if s.cfg.smWords < s.arg 0 + M then Faults (.genLpk u) s .range
  else ∃ m, exec (.genLpk u) s = .next { s with sm := m, RI := BitVec.ofNat 32 M, busy := false, done := true } ∧
    s.Stored m (s.arg 0) M (realLpk (s.arg 2) (s.param 0) M)

/-- R73, R71: FIR.SETK copies the kernel, resizes the history and discards the window. -/
def Obligations.FirSetkResult : Prop := ∀ (u : UnitIdx) (s : State),
  let H := (s.firUnit u).line.H
  let n := s.arg 1 - 1
  if s.cfg.nFir ≤ u.toNat then Faults (.firSetk u) s .badUnit
  else if s.arg 1 < 1 ∨ s.cfg.maxTaps < s.arg 1 ∨ s.arg 1 % 2 = 0 then Faults (.firSetk u) s .badParam
  else if s.cfg.smWords < s.arg 0 + s.arg 1 then Faults (.firSetk u) s .range
  else exec (.firSetk u) s = .next { s with
    fir := put s.fir u
      { configured := true, M := s.arg 1, h := (List.range (s.arg 1)).map fun i => s.readSM (s.arg 0 + i),
        line := { H := if n ≤ H.length then H.drop (H.length - n) else List.replicate (n - H.length) .zero ++ H,
                  W := [], WL := 0 } },
    busy := false, done := true }

/-- R74, R70: FIR.RUN filters the block in place and moves the history and window on. -/
def Obligations.FirRunResult : Prop := ∀ (u : UnitIdx) (s : State), s.MemInv → (s.firUnit u).Ok s.cfg →
  let U := s.firUnit u
  let W := U.line.H ++ s.memRead (s.arg 0) (s.arg 1)
  if s.cfg.nFir ≤ u.toNat then Faults (.firRun u) s .badUnit
  else if U.configured = false then Faults (.firRun u) s .unconfigured
  else if s.cfg.maxBlock < s.arg 1 ∨ s.cfg.smWords < s.arg 0 + s.arg 1 then Faults (.firRun u) s .range
  else ∃ m, exec (.firRun u) s = .next { s with
      sm := m
      fir := put s.fir u { U with line := { H := W.drop (W.length - (U.M - 1)), W := W, WL := s.arg 1 } }
      busy := false
      done := true } ∧
    s.Stored m (s.arg 0) (s.arg 1) (realConv U.M U.h W)

/-- R75: FIR.LOAD moves the history and window on and writes no sample word. -/
def Obligations.FirLoadResult : Prop := ∀ (u : UnitIdx) (s : State),
  let U := s.firUnit u
  let W := U.line.H ++ s.memRead (s.arg 0) (s.arg 1)
  if s.cfg.nFir ≤ u.toNat then Faults (.firLoad u) s .badUnit
  else if U.configured = false then Faults (.firLoad u) s .unconfigured
  else if s.cfg.maxBlock < s.arg 1 ∨ s.cfg.smWords < s.arg 0 + s.arg 1 then Faults (.firLoad u) s .range
  else exec (.firLoad u) s = .next { s with
      fir := put s.fir u { U with line := { H := W.drop (W.length - (U.M - 1)), W := W, WL := s.arg 1 } }
      busy := false
      done := true }

/-- R76, R70: FIR.GET puts one output of the loaded window into RV. -/
def Obligations.FirGetResult : Prop := ∀ (u : UnitIdx) (s : State), (s.firUnit u).Ok s.cfg →
  let U := s.firUnit u
  if s.cfg.nFir ≤ u.toNat then Faults (.firGet u) s .badUnit
  else if U.configured = false then Faults (.firGet u) s .unconfigured
  else if U.line.WL ≤ s.arg 0 then Faults (.firGet u) s .index
  else ∃ r, exec (.firGet u) s = .next { s with RV := r, busy := false, done := true } ∧
    (s.cfg.num = .exact → r.toReal = realConv U.M U.h U.line.W (s.arg 0))

/-- R77: FIR.GDLY puts the group delay into RI. -/
def Obligations.FirGdlyResult : Prop := ∀ (u : UnitIdx) (s : State),
  if s.cfg.nFir ≤ u.toNat then Faults (.firGdly u) s .badUnit
  else if (s.firUnit u).configured = false then Faults (.firGdly u) s .unconfigured
  else exec (.firGdly u) s = .next
    { s with RI := BitVec.ofNat 32 (((s.firUnit u).M - 1) / 2), busy := false, done := true }

/-- R78: FIR.CLR zeroes the history, unloads the window and keeps the kernel. -/
def Obligations.FirClrResult : Prop := ∀ (u : UnitIdx) (s : State),
  let U := s.firUnit u
  if s.cfg.nFir ≤ u.toNat then Faults (.firClr u) s .badUnit
  else if U.configured = false then Faults (.firClr u) s .unconfigured
  else exec (.firClr u) s = .next { s with
    fir := put s.fir u { U with line := { H := List.replicate (U.M - 1) .zero, W := [], WL := 0 } }
    busy := false
    done := true }

/-! Frequency shifter and downsamplers -/

/-- R80: SHF.CFG sets the rate and zeroes the phase. -/
def Obligations.ShfCfgResult : Prop := ∀ (u : UnitIdx) (s : State),
  if s.cfg.nShf ≤ u.toNat then Faults (.shfCfg u) s .badUnit
  else if s.arg 0 < 1 then Faults (.shfCfg u) s .badParam
  else exec (.shfCfg u) s = .next { s with
    shf := put s.shf u { configured := true, R := s.arg 0, theta := .zero }
    busy := false
    done := true }

/-- R81: SHF.RUN multiplies sample `n` by `exp(j*2*pi*theta_n)`, `theta_n = theta + n*f/R` up to whole turns (log 21: also for
`f = 0`), and leaves `frac(theta + L*f/R)`. -/
def Obligations.ShfRunResult : Prop := ∀ (u : UnitIdx) (s : State), s.MemInv → Turn (s.shfUnit u).theta →
  let U := s.shfUnit u
  let L := s.arg 2
  let th : Nat → ℝ := fun n => U.theta.toReal + n * ((s.param 0 : ℝ) / U.R)
  let x := s.sample (s.arg 0)
  let y := s.sample (s.arg 1)
  if s.cfg.nShf ≤ u.toNat then Faults (.shfRun u) s .badUnit
  else if U.configured = false then Faults (.shfRun u) s .unconfigured
  else if s.paramFinite 0 = false then Faults (.shfRun u) s .nonfinite
  else if s.cfg.maxBlock < L ∨ s.cfg.smWords < s.arg 0 + L ∨ s.cfg.smWords < s.arg 1 + L then Faults (.shfRun u) s .range
  else if ¬ (L = 0 ∨ s.arg 0 + L ≤ s.arg 1 ∨ s.arg 1 + L ≤ s.arg 0) then Faults (.shfRun u) s .range
  else ∃ m theta, exec (.shfRun u) s = .next { s with
      sm := m, shf := put s.shf u { U with theta := theta }, busy := false, done := true } ∧
    (s.cfg.num = .exact → theta.toReal = Int.fract (th L)) ∧
    s.Stored2 m (s.arg 0) (s.arg 1) L
      (fun n => x n * Real.cos (2 * Real.pi * th n) - y n * Real.sin (2 * Real.pi * th n))
      (fun n => x n * Real.sin (2 * Real.pi * th n) + y n * Real.cos (2 * Real.pi * th n))

/-- R83, R85: RDS.CFG and CDS.CFG build the kernel `LPK(inR, outR/2, taps)` and zero their delay lines. The case `isZero` is
R69's `S = 0`: in the `EXACT` profile the sum of the raw coefficients as real numbers is 0. -/
def Obligations.DownsamplerCfgResult : Prop := ∀ (u : UnitIdx) (s : State),
  let M := s.arg 2 + (s.arg 2 + 1) % 2
  let empty : Line := { H := List.replicate (M - 1) .zero, W := [], WL := 0 }
  let S := lpkSum s.cfg.num (s.arg 0) (Prim.div s.cfg.num (Prim.nat s.cfg.num (s.arg 1)) (Prim.lit s.cfg.num 2)) (s.arg 2)
  (s.cfg.num = .exact →
    (isZero S = true ↔ ∑ j ∈ Finset.range M, realRaw ((s.arg 1 : ℝ) / 2 / s.arg 0) M j = 0)) ∧
  (if s.cfg.nRds ≤ u.toNat then Faults (.rdsCfg u) s .badUnit
   else if s.arg 0 < 1 ∨ s.arg 1 < 1 ∨ s.arg 0 < s.arg 1 then Faults (.rdsCfg u) s .badParam
   else if s.arg 2 < 1 ∨ s.cfg.maxTaps < M then Faults (.rdsCfg u) s .badParam
   else if isZero S then Faults (.rdsCfg u) s .badParam
   else ∃ h, (s.cfg.num = .exact → IsLpk h (s.arg 0) ((s.arg 1 : ℝ) / 2) M) ∧ exec (.rdsCfg u) s = .next { s with
     rds := put s.rds u
       { configured := true, inRate := s.arg 0, outRate := s.arg 1, M := M, h := h, line := empty }
     busy := false
     done := true }) ∧
  (if s.cfg.nCds ≤ u.toNat then Faults (.cdsCfg u) s .badUnit
   else if s.arg 0 < 1 ∨ s.arg 1 < 1 ∨ s.arg 0 < s.arg 1 then Faults (.cdsCfg u) s .badParam
   else if s.arg 2 < 1 ∨ s.cfg.maxTaps < M then Faults (.cdsCfg u) s .badParam
   else if isZero S then Faults (.cdsCfg u) s .badParam
   else ∃ h, (s.cfg.num = .exact → IsLpk h (s.arg 0) ((s.arg 1 : ℝ) / 2) M) ∧ exec (.cdsCfg u) s = .next { s with
     cds := put s.cds u
       { configured := true, inRate := s.arg 0, outRate := s.arg 1, M := M, h := h, lineI := empty, lineQ := empty }
     busy := false
     done := true })

/-- R84, R87: RDS.RUN writes `floor(L*outRate/inRate)` picked outputs and that length into RI. -/
def Obligations.RdsRunResult : Prop := ∀ (u : UnitIdx) (s : State), s.MemInv → (s.rdsUnit u).Ok s.cfg →
  let U := s.rdsUnit u
  let L := s.arg 1
  let Lout := L * U.outRate / U.inRate
  let W := U.line.H ++ s.memRead (s.arg 0) L
  if s.cfg.nRds ≤ u.toNat then Faults (.rdsRun u) s .badUnit
  else if U.configured = false then Faults (.rdsRun u) s .unconfigured
  else if s.cfg.maxBlock < L ∨ s.cfg.smWords < s.arg 0 + L ∨ s.cfg.smWords < s.arg 2 + Lout then Faults (.rdsRun u) s .range
  else ∃ m, exec (.rdsRun u) s = .next { s with
      sm := m
      RI := BitVec.ofNat 32 Lout
      rds := put s.rds u { U with line := { H := W.drop (W.length - (U.M - 1)), W := W, WL := L } }
      busy := false
      done := true } ∧
    s.Stored m (s.arg 2) Lout fun k => realConv U.M U.h W ((2 * k * U.inRate + U.outRate) / (2 * U.outRate))

/-- R86, R87: CDS.RUN does on both branches what RDS.RUN does on one. -/
def Obligations.CdsRunResult : Prop := ∀ (u : UnitIdx) (s : State), s.MemInv → (s.cdsUnit u).Ok s.cfg →
  let U := s.cdsUnit u
  let L := s.arg 2
  let Lout := L * U.outRate / U.inRate
  let WI := U.lineI.H ++ s.memRead (s.arg 0) L
  let WQ := U.lineQ.H ++ s.memRead (s.arg 1) L
  let idx : Nat → Nat := fun k => (2 * k * U.inRate + U.outRate) / (2 * U.outRate)
  if s.cfg.nCds ≤ u.toNat then Faults (.cdsRun u) s .badUnit
  else if U.configured = false then Faults (.cdsRun u) s .unconfigured
  else if s.cfg.maxBlock < L ∨ s.cfg.smWords < s.arg 0 + L ∨ s.cfg.smWords < s.arg 1 + L ∨
    s.cfg.smWords < s.arg 3 + Lout ∨ s.cfg.smWords < s.arg 4 + Lout then Faults (.cdsRun u) s .range
  else if ¬ (Lout = 0 ∨ s.arg 3 + Lout ≤ s.arg 4 ∨ s.arg 4 + Lout ≤ s.arg 3) then Faults (.cdsRun u) s .range
  else ∃ m, exec (.cdsRun u) s = .next { s with
      sm := m
      RI := BitVec.ofNat 32 Lout
      cds := put s.cds u { U with
        lineI := { H := WI.drop (WI.length - (U.M - 1)), W := WI, WL := L }
        lineQ := { H := WQ.drop (WQ.length - (U.M - 1)), W := WQ, WL := L } }
      busy := false
      done := true } ∧
    s.Stored2 m (s.arg 3) (s.arg 4) Lout (fun k => realConv U.M U.h WI (idx k)) (fun k => realConv U.M U.h WQ (idx k))

/-! Demodulators -/

/-- R88: FMD.CFG sets the rate and the deviation, P0 as a number; the previous sample is 0. In the `EXACT` profile that number is P0
exactly; in a build it is the build's constant for P0 (log 1, the model's choice). -/
def Obligations.FmdCfgResult : Prop := ∀ (u : UnitIdx) (s : State),
  let dev := Prim.lit s.cfg.num (s.param 0)
  (s.cfg.num = .exact → dev.toReal = s.param 0) ∧
  if s.cfg.nFmd ≤ u.toNat then Faults (.fmdCfg u) s .badUnit
  else if s.paramFinite 0 = false then Faults (.fmdCfg u) s .nonfinite
  else if s.arg 0 < 1 ∨ ¬ 0 < dev.toReal then Faults (.fmdCfg u) s .badParam
  else exec (.fmdCfg u) s = .next { s with
    fmd := put s.fmd u { configured := true, Ip := .zero, Qp := .zero, R := s.arg 0, maxDev := dev }
    busy := false
    done := true }

/-- R89: FMD.RUN writes the scaled phase step between neighbouring samples and keeps the last sample. -/
def Obligations.FmdRunResult : Prop := ∀ (u : UnitIdx) (s : State), s.MemInv →
  let U := s.fmdUnit u
  let L := s.arg 2
  let I := s.sample (s.arg 0)
  let Q := s.sample (s.arg 1)
  let ip : Nat → ℝ := fun n => if n = 0 then U.Ip.toReal else I (n - 1)
  let qp : Nat → ℝ := fun n => if n = 0 then U.Qp.toReal else Q (n - 1)
  if s.cfg.nFmd ≤ u.toNat then Faults (.fmdRun u) s .badUnit
  else if U.configured = false then Faults (.fmdRun u) s .unconfigured
  else if s.cfg.maxBlock < L ∨ s.cfg.smWords < s.arg 0 + L ∨ s.cfg.smWords < s.arg 1 + L ∨ s.cfg.smWords < s.arg 3 + L then
    Faults (.fmdRun u) s .range
  else ∃ m, exec (.fmdRun u) s = .next { s with
      sm := m
      fmd := put s.fmd u { U with
        Ip := if L = 0 then U.Ip else s.readSM (s.arg 0 + (L - 1))
        Qp := if L = 0 then U.Qp else s.readSM (s.arg 1 + (L - 1)) }
      busy := false
      done := true } ∧
    s.Stored m (s.arg 3) L fun n =>
      realAtan2 (Q n * ip n - I n * qp n) (I n * ip n + Q n * qp n) * (U.R / (2 * Real.pi * U.maxDev.toReal))

/-- R90: AMD.CFG sets the rate and the coefficient for AM_HP_HZ and zeroes the tracked level. -/
def Obligations.AmdCfgResult : Prop := ∀ (u : UnitIdx) (s : State),
  if s.cfg.nAmd ≤ u.toNat then Faults (.amdCfg u) s .badUnit
  else if s.arg 0 < 1 then Faults (.amdCfg u) s .badParam
  else ∃ alpha, (s.cfg.num = .exact → alpha.toReal = 1 - Real.exp (-2 * Real.pi * s.cfg.amHpHz / s.arg 0)) ∧ exec (.amdCfg u) s = .next { s with
    amd := put s.amd u { configured := true, R := s.arg 0, alpha := alpha, dc := .zero }
    busy := false
    done := true }

/-- R91: AMD.RUN writes the envelope less its one-pole low-pass. -/
def Obligations.AmdRunResult : Prop := ∀ (u : UnitIdx) (s : State), s.MemInv →
  let U := s.amdUnit u
  let L := s.arg 2
  let a : Nat → ℝ := fun n =>
    Real.sqrt (s.sample (s.arg 0) n * s.sample (s.arg 0) n + s.sample (s.arg 1) n * s.sample (s.arg 1) n)
  let dc := realPole U.alpha.toReal U.dc.toReal a
  if s.cfg.nAmd ≤ u.toNat then Faults (.amdRun u) s .badUnit
  else if U.configured = false then Faults (.amdRun u) s .unconfigured
  else if s.cfg.maxBlock < L ∨ s.cfg.smWords < s.arg 0 + L ∨ s.cfg.smWords < s.arg 1 + L ∨ s.cfg.smWords < s.arg 3 + L then
    Faults (.amdRun u) s .range
  else ∃ m level, exec (.amdRun u) s = .next { s with
      sm := m, amd := put s.amd u { U with dc := level }, busy := false, done := true } ∧
    (s.cfg.num = .exact → level.toReal = dc L) ∧ s.Stored m (s.arg 3) L fun n => a n - dc (n + 1)

/-- R92: the 90-degree kernel is the Hamming-windowed `2/(pi*k)`, antisymmetric about a zero centre. -/
def Obligations.HilbertKernel : Prop := ∀ taps : Nat, taps % 2 = 1 → 3 ≤ taps →
  let g := hilbertKernel .exact taps
  g.length = taps ∧ (∀ n, n < taps → realAt g n = realHilbert taps n) ∧
  (∀ n, n < taps → realAt g n = -realAt g (taps - 1 - n)) ∧ realAt g ((taps - 1) / 2) = 0

/-- R93: SSB.CFG sets the sideband and zeroes both delay lines. -/
def Obligations.SsbCfgResult : Prop := ∀ (u : UnitIdx) (s : State),
  if s.cfg.nSsb ≤ u.toNat then Faults (.ssbCfg u) s .badUnit
  else if 1 < s.arg 0 then Faults (.ssbCfg u) s .badParam
  else exec (.ssbCfg u) s = .next { s with
    ssb := put s.ssb u
      { configured := true, sb := s.arg 0, HQ := List.replicate (s.cfg.hilbertTaps - 1) .zero,
        DI := List.replicate ((s.cfg.hilbertTaps - 1) / 2) .zero }
    busy := false
    done := true }

/-- R94, R92: SSB.RUN adds to the delayed I the Hilbert-filtered Q, with the sideband's sign. -/
def Obligations.SsbRunResult : Prop := ∀ (u : UnitIdx) (s : State), s.MemInv →
  let U := s.ssbUnit u
  let L := s.arg 2
  let WI := U.DI ++ s.memRead (s.arg 0) L
  let WQ := U.HQ ++ s.memRead (s.arg 1) L
  let sgn : ℝ := if U.sb = 1 then 1 else -1
  let taps := s.cfg.hilbertTaps
  if s.cfg.nSsb ≤ u.toNat then Faults (.ssbRun u) s .badUnit
  else if U.configured = false then Faults (.ssbRun u) s .unconfigured
  else if s.cfg.maxBlock < L ∨ s.cfg.smWords < s.arg 0 + L ∨ s.cfg.smWords < s.arg 1 + L ∨ s.cfg.smWords < s.arg 3 + L then
    Faults (.ssbRun u) s .range
  else ∃ m, exec (.ssbRun u) s = .next { s with
      sm := m
      ssb := put s.ssb u { U with HQ := WQ.drop (WQ.length - (taps - 1)), DI := WI.drop (WI.length - (taps - 1) / 2) }
      busy := false
      done := true } ∧
    s.Stored m (s.arg 3) L fun n =>
      realAt WI n + sgn * ∑ k ∈ Finset.range taps, realHilbert taps k * realAt WQ (taps - 1 + n - k)

/-! Stereo separator -/

/-- R96: STS.CFG sets the loop's constants from the rate and zeroes the loop. In the `EXACT` profile `rate` and `limit` are the rule's
`R` and `4 * PILOT_HZ`; in a build they are its constant and its product, compared by value (logs 1 and 3, the model's choice). -/
def Obligations.StsCfgResult : Prop := ∀ (u : UnitIdx) (s : State),
  let c := s.cfg
  let R : ℝ := s.arg 0
  let wn := 2 * Real.pi * c.pllBwHz / R
  let kd := 2 * Real.pi * c.pllKd
  let rate := Prim.nat c.num (s.arg 0)
  let limit := Prim.mul c.num (Prim.lit c.num 4) (Prim.lit c.num c.pilotHz)
  (c.num = .exact → rate.toReal = R ∧ limit.toReal = 4 * c.pilotHz) ∧
  if c.nSts ≤ u.toNat then Faults (.stsCfg u) s .badUnit
  else if rate.toReal ≤ limit.toReal then Faults (.stsCfg u) s .badParam
  else ∃ U : StsUnit,
    (c.num = .exact → U.Kp.toReal = 2 * c.pllZeta * wn / kd ∧ U.Ki.toReal = wn * wn / kd ∧
      U.alphaE.toReal = 1 - Real.exp (-2 * Real.pi * c.pllErrHz / R) ∧ U.alphaA.toReal = 1 - Real.exp (-1 / (c.pllAmpTau * R)) ∧
      U.w0.toReal = c.pilotHz / R ∧ U.wmin.toReal = (c.pilotHz - c.pllPullHz) / R ∧
      U.wmax.toReal = (c.pilotHz + c.pllPullHz) / R) ∧
    (U.configured = true ∧ U.R = s.arg 0 ∧ U.theta = .zero ∧ U.w = U.w0 ∧ U.e = .zero ∧ U.a = .zero ∧ U.found = false) ∧
    exec (.stsCfg u) s = .next { s with sts := put s.sts u U, busy := false, done := true }

/-- R97: STS.RUN runs the loop of the pseudocode over the block (log 21: also over an all-zero block); `found` compares the amplitude
with the threshold, and without it the difference is zero. -/
def Obligations.StsRunResult : Prop := ∀ (u : UnitIdx) (s : State), s.MemInv →
  let U := s.stsUnit u
  let L := s.arg 1
  let x := s.sample (s.arg 0)
  let p := pilotLoop U x
  if s.cfg.nSts ≤ u.toNat then Faults (.stsRun u) s .badUnit
  else if U.configured = false then Faults (.stsRun u) s .unconfigured
  else if s.cfg.maxBlock < L ∨ s.cfg.smWords < s.arg 0 + L ∨ s.cfg.smWords < s.arg 2 + L then Faults (.stsRun u) s .range
  else ∃ (m : Memory) (theta w e a : Sys2Proof.Num) (found : Bool), exec (.stsRun u) s = .next { s with
      sm := m
      rfFound := found
      sts := put s.sts u { U with theta := theta, w := w, e := e, a := a, found := found }
      busy := false
      done := true } ∧
    (s.cfg.num = .exact → theta.toReal = (p L).th ∧ w.toReal = (p L).w ∧ e.toReal = (p L).e ∧ a.toReal = (p L).a ∧
      (found = true ↔ s.cfg.pllThresh < (p L).a)) ∧
    s.Stored m (s.arg 2) L fun n => if found then 2 * x n * Real.sin (4 * Real.pi * (p n).th) else 0

/-! De-emphasis, AGC, DC blocker, power meter -/

/-- R99, R101, R103: DEM.CFG, AGC.CFG and DCB.CFG set the coefficient from the time constant; the output memory, the average and
the tracked level start at 0, the AGC unprimed. In the `EXACT` profile `tau` is P0 exactly; in a build it is the build's constant for
P0 (log 1, the model's choice). -/
def Obligations.TimeConstantCfgResult : Prop := ∀ (u : UnitIdx) (s : State),
  let tau := Prim.lit s.cfg.num (s.param 0)
  (s.cfg.num = .exact → tau.toReal = s.param 0) ∧
  (if s.cfg.nDem ≤ u.toNat then Faults (.demCfg u) s .badUnit
   else if s.paramFinite 0 = false then Faults (.demCfg u) s .nonfinite
   else if s.arg 0 < 1 ∨ ¬ 0 < tau.toReal then Faults (.demCfg u) s .badParam
   else ∃ alpha, (s.cfg.num = .exact → alpha.toReal = 1 - Real.exp (-1 / ((s.param 0 : ℝ) * s.arg 0))) ∧ exec (.demCfg u) s = .next { s with
     dem := put s.dem u { configured := true, alpha := alpha, y := .zero }, busy := false, done := true }) ∧
  (if s.cfg.nAgc ≤ u.toNat then Faults (.agcCfg u) s .badUnit
   else if s.paramFinite 0 = false then Faults (.agcCfg u) s .nonfinite
   else if s.arg 0 < 1 ∨ ¬ 0 < tau.toReal then Faults (.agcCfg u) s .badParam
   else ∃ alpha, (s.cfg.num = .exact → alpha.toReal = 1 - Real.exp (-1 / ((s.param 0 : ℝ) * s.arg 0))) ∧ exec (.agcCfg u) s = .next { s with
     agc := put s.agc u { configured := true, alpha := alpha, avg := .zero, primed := false }, busy := false, done := true }) ∧
  (if s.cfg.nDcb ≤ u.toNat then Faults (.dcbCfg u) s .badUnit
   else if s.paramFinite 0 = false then Faults (.dcbCfg u) s .nonfinite
   else if s.arg 0 < 1 ∨ ¬ 0 < tau.toReal then Faults (.dcbCfg u) s .badParam
   else ∃ alpha, (s.cfg.num = .exact → alpha.toReal = 1 - Real.exp (-1 / ((s.param 0 : ℝ) * s.arg 0))) ∧ exec (.dcbCfg u) s = .next { s with
     dcb := put s.dcb u { configured := true, alpha := alpha, dc := .zero }, busy := false, done := true })

/-- R100: DEM.RUN replaces each sample with the one-pole low-pass. -/
def Obligations.DemRunResult : Prop := ∀ (u : UnitIdx) (s : State), s.MemInv →
  let U := s.demUnit u
  let y := realPole U.alpha.toReal U.y.toReal (s.sample (s.arg 0))
  if s.cfg.nDem ≤ u.toNat then Faults (.demRun u) s .badUnit
  else if U.configured = false then Faults (.demRun u) s .unconfigured
  else if s.cfg.maxBlock < s.arg 1 ∨ s.cfg.smWords < s.arg 0 + s.arg 1 then Faults (.demRun u) s .range
  else ∃ m last, exec (.demRun u) s = .next { s with
      sm := m, dem := put s.dem u { U with y := last }, busy := false, done := true } ∧
    (s.cfg.num = .exact → last.toReal = y (s.arg 1)) ∧ s.Stored m (s.arg 0) (s.arg 1) fun n => y (n + 1)

/-- R102: AGC.RUN divides each sample by the running average of magnitudes, at least AGC_EPS; the first sample of positive magnitude
seeds the average. -/
def Obligations.AgcRunResult : Prop := ∀ (u : UnitIdx) (s : State), s.MemInv →
  let U := s.agcUnit u
  let L := s.arg 1
  let x := s.sample (s.arg 0)
  let p := realAgc U.alpha.toReal U.avg.toReal U.primed x
  if s.cfg.nAgc ≤ u.toNat then Faults (.agcRun u) s .badUnit
  else if U.configured = false then Faults (.agcRun u) s .unconfigured
  else if s.cfg.maxBlock < L ∨ s.cfg.smWords < s.arg 0 + L then Faults (.agcRun u) s .range
  else ∃ (m : Memory) (avg : Sys2Proof.Num) (primed : Bool), exec (.agcRun u) s = .next { s with
      sm := m, agc := put s.agc u { U with avg := avg, primed := primed }, busy := false, done := true } ∧
    (s.cfg.num = .exact → avg.toReal = (p L).1 ∧ primed = (p L).2) ∧
    s.Stored m (s.arg 0) L fun n => x n / max (p (n + 1)).1 s.cfg.agcEps

/-- R104: DCB.RUN replaces each sample with the sample less its one-pole low-pass. -/
def Obligations.DcbRunResult : Prop := ∀ (u : UnitIdx) (s : State), s.MemInv →
  let U := s.dcbUnit u
  let x := s.sample (s.arg 0)
  let dc := realPole U.alpha.toReal U.dc.toReal x
  if s.cfg.nDcb ≤ u.toNat then Faults (.dcbRun u) s .badUnit
  else if U.configured = false then Faults (.dcbRun u) s .unconfigured
  else if s.cfg.maxBlock < s.arg 1 ∨ s.cfg.smWords < s.arg 0 + s.arg 1 then Faults (.dcbRun u) s .range
  else ∃ m level, exec (.dcbRun u) s = .next { s with
      sm := m, dcb := put s.dcb u { U with dc := level }, busy := false, done := true } ∧
    (s.cfg.num = .exact → level.toReal = dc (s.arg 1)) ∧ s.Stored m (s.arg 0) (s.arg 1) fun n => x n - dc (n + 1)

/-- R105: PWR.RUN puts the mean of `I*I + Q*Q` into RV, 0 for an empty block. -/
def Obligations.PwrRunResult : Prop := ∀ (u : UnitIdx) (s : State),
  let N := s.arg 2
  let I := s.sample (s.arg 0)
  let Q := s.sample (s.arg 1)
  if u ≠ 0#6 then Faults (.pwrRun u) s .badUnit
  else if s.cfg.maxBlock < N ∨ s.cfg.smWords < s.arg 0 + N ∨ s.cfg.smWords < s.arg 1 + N then Faults (.pwrRun u) s .range
  else ∃ r, exec (.pwrRun u) s = .next { s with RV := r, busy := false, done := true } ∧
    (s.cfg.num = .exact → r.toReal = if N = 0 then 0 else (∑ n ∈ Finset.range N, (I n * I n + Q n * Q n)) / N)

/-- R106: PWR.SNR puts the SNR estimate into RV, 0 for a zero total power. In the `EXACT` profile `pf`, `bw` and `pt` are P0, P1 and P2
exactly; in a build they are its constants for them (log 1, the model's choice). -/
def Obligations.PwrSnrResult : Prop := ∀ (u : UnitIdx) (s : State),
  let pf := (Prim.lit s.cfg.num (s.param 0)).toReal
  let bw := (Prim.lit s.cfg.num (s.param 1)).toReal
  let pt := (Prim.lit s.cfg.num (s.param 2)).toReal
  (s.cfg.num = .exact → pf = s.param 0 ∧ bw = s.param 1 ∧ pt = s.param 2) ∧
  if u ≠ 0#6 then Faults (.pwrSnr u) s .badUnit
  else if s.paramFinite 0 = false ∨ s.paramFinite 1 = false ∨ s.paramFinite 2 = false then Faults (.pwrSnr u) s .nonfinite
  else if s.arg 0 < 1 ∨ ¬ 0 < bw ∨ pf < 0 ∨ pt < 0 then Faults (.pwrSnr u) s .badParam
  else ∃ r, exec (.pwrSnr u) s = .next { s with RV := r, busy := false, done := true } ∧
    (pt = 0 → r.toReal = 0) ∧ (s.cfg.num = .exact → r.toReal = if pt = 0 then 0 else (pf * s.arg 0 / bw) / pt)

/-! Command words -/

/-- R62, R64: words written out from the opcode map decode to the command they stand for. -/
def Obligations.SampleWordsDecode : Prop :=
  decode 0x00000000#32 = .ok (.nop 0#6) ∧ decode 0x04000000#32 = .ok (.genLpk 0#6) ∧
  decode 0x0C100000#32 = .ok (.firRun 1#6) ∧ decode 0x24200000#32 = .ok (.shfRun 2#6) ∧
  decode 0x2C300000#32 = .ok (.rdsRun 3#6) ∧ decode 0x38200000#32 = .ok (.fmdCfg 2#6) ∧
  decode 0x54000000#32 = .ok (.stsRun 0#6) ∧ decode 0x64100000#32 = .ok (.agcRun 1#6) ∧
  decode 0x74000000#32 = .ok (.pwrSnr 0#6) ∧ decode 0xFC000000#32 = .ok (.srst 0#6)

/-- R62, R65: the word of every command, on every unit field, decodes to that command, and a word that decodes to a command is that
command's word, so no two words are one command. -/
def Obligations.DecodeAndEncodeAgree : Prop :=
  (∀ i : Instr, decode (encode i) = .ok i) ∧ ∀ (w : Word) (i : Instr), decode w = .ok i → w = encode i

/-- R65, R117 steps 1 to 3: what the engine does with a word that is no command on a valid unit: which unit fields are valid follows
R9 and the OPC values of each kind R64. The turn may be listed as the next event or be the turn of a busy engine when no event is
left (log 9); `t` is the state at which it runs. -/
def Obligations.InvalidWordFaults : Prop := ∀ s t : State, s.busy = true →
  ((s.events = [] ∧ t = s) ∨ ∃ es, s.events = .engine :: es ∧ t = { s with events := es }) →
  let w := s.pending
  let opc := (w.extractLsb' 26 6).toNat
  let unit := (w.extractLsb' 20 6).toNat
  let c := s.cfg
  (0x1E ≤ opc ∧ opc ≤ 0x3E → step s = .next (t.faulted .illegalOpcode w)) ∧
  ((opc < 0x1E ∨ opc = 0x3F) ∧ w.extractLsb' 0 20 ≠ 0#20 → step s = .next (t.faulted .reservedBits w)) ∧
  (w.extractLsb' 0 20 = 0#20 →
    (∀ k ∈ [(0x02, 0x07, c.nFir), (0x08, 0x09, c.nShf), (0x0A, 0x0B, c.nRds), (0x0C, 0x0D, c.nCds), (0x0E, 0x0F, c.nFmd),
        (0x10, 0x11, c.nAmd), (0x12, 0x13, c.nSsb), (0x14, 0x15, c.nSts), (0x16, 0x17, c.nDem), (0x18, 0x19, c.nAgc),
        (0x1A, 0x1B, c.nDcb)],
      k.1 ≤ opc → opc ≤ k.2.1 → k.2.2 ≤ unit → step s = .next (t.faulted .badUnit w)) ∧
    ((opc < 0x02 ∨ opc = 0x1C ∨ opc = 0x1D ∨ opc = 0x3F) → 1 ≤ unit → step s = .next (t.faulted .badUnit w)))

/-! The steps of engine and host -/

/-- R112, R109, R110, R57: the engine's step at a pending word that decodes to `i` is the execution of `i`; the turn may be listed as
the next event or be the turn of a busy engine when no event is left. A bus write or read listed as the next event is `hostWrite` or
`hostRead` at the state without that event, and the value read is kept in `rdata`. The list of events and `rdata` are the model's
own (logs 9, 10). -/
def Obligations.StepRunsDecodedCommand : Prop := (∀ (s : State) (i : Instr), s.busy = true → decode s.pending = .ok i →
  (s.events = [] → step s = exec i s) ∧
  ∀ es, s.events = .engine :: es → step s = exec i { s with events := es }) ∧
  (∀ (s : State) (addr : BusAddr) (wd : Nat) (v : Word) (es : List Event), s.events = .write addr wd v :: es →
    step s = .next (State.hostWrite { s with events := es } addr wd v)) ∧
  ∀ (s : State) (addr : BusAddr) (wd : Nat) (es : List Event), s.events = .read addr wd :: es →
    let r := State.hostRead { s with events := es } addr wd
    step s = .next { r.2 with rdata := r.1 }

/-- R119, R112: recording a command's fault: the first is recorded with the command's word, a later one only sets FOVF. -/
def Obligations.FaultRecording : Prop := ∀ (s : State) (c : Cause) (w : Word),
  s.faulted c w =
    if s.fault then { s with fovf := true, busy := false, done := true }
    else { s with fault := true, cause := c, fcmd := w, faddr := 0#32, busy := false, done := true }

/-- R112, R115: every execution answers a next state with BUSY = 0 and DONE = 1, which records a fault and changes nothing else, or
leaves the fault record alone, or is a soft reset. -/
def Obligations.CommandFaultsOrCompletes : Prop := ∀ (i : Instr) (s : State), ∃ t, exec i s = .next t ∧
  t.busy = false ∧ t.done = true ∧
  ((∃ c, c ≠ .none ∧ t = s.faulted c (encode i)) ∨
   (t.fault = s.fault ∧ t.cause = s.cause ∧ t.fcmd = s.fcmd ∧ t.faddr = s.faddr ∧ t.fovf = s.fovf) ∨
   i = .srst 0#6)

/-- R119, R112, R7: no step stops the machine or changes its parameters, and the engine takes no step while BUSY = 0: its turn then
changes nothing but the list of events to come (log 9). -/
def Obligations.EveryStepAnswersNext : Prop := (∀ s : State, ∃ t, step s = .next t ∧ t.cfg = s.cfg) ∧
  ∀ s : State, s.busy = false →
    (s.events = [] → step s = .next s) ∧ ∀ es, s.events = .engine :: es → step s = .next { s with events := es }

/-- R17 to R23, R27: no command but SRST writes A, P or CTRL, and RV, RI and RF are written only by the commands listed. That PENDING
keeps its last word is the model's choice: R29 only says that it is consumed (log 8: DESIGN CHOICE). -/
def Obligations.ResultRegistersWritten : Prop := ∀ (i : Instr) (s t : State), exec i s = .next t → i ≠ .srst 0#6 →
  t.A = s.A ∧ t.P = s.P ∧ t.fie = s.fie ∧ t.die = s.die ∧ t.pending = s.pending ∧
  (t.RV ≠ s.RV → ∃ u, i = .firGet u ∨ i = .pwrRun u ∨ i = .pwrSnr u) ∧
  (t.RI ≠ s.RI → ∃ u, i = .genLpk u ∨ i = .firGdly u ∨ i = .rdsRun u ∨ i = .cdsRun u) ∧
  (t.rfFound ≠ s.rfFound → ∃ u, i = .stsRun u)

/-- R133: no command but SRST changes any unit other than the one it addresses, of its own kind. -/
def Obligations.OtherUnitsUntouched : Prop := ∀ (i : Instr) (s t : State) (v : UnitIdx), exec i s = .next t → i ≠ .srst 0#6 →
  (t.firUnit v ≠ s.firUnit v → i = .firSetk v ∨ i = .firRun v ∨ i = .firLoad v ∨ i = .firClr v) ∧
  (t.shfUnit v ≠ s.shfUnit v → i = .shfCfg v ∨ i = .shfRun v) ∧
  (t.rdsUnit v ≠ s.rdsUnit v → i = .rdsCfg v ∨ i = .rdsRun v) ∧
  (t.cdsUnit v ≠ s.cdsUnit v → i = .cdsCfg v ∨ i = .cdsRun v) ∧
  (t.fmdUnit v ≠ s.fmdUnit v → i = .fmdCfg v ∨ i = .fmdRun v) ∧
  (t.amdUnit v ≠ s.amdUnit v → i = .amdCfg v ∨ i = .amdRun v) ∧
  (t.ssbUnit v ≠ s.ssbUnit v → i = .ssbCfg v ∨ i = .ssbRun v) ∧
  (t.stsUnit v ≠ s.stsUnit v → i = .stsCfg v ∨ i = .stsRun v) ∧
  (t.demUnit v ≠ s.demUnit v → i = .demCfg v ∨ i = .demRun v) ∧
  (t.agcUnit v ≠ s.agcUnit v → i = .agcCfg v ∨ i = .agcRun v) ∧
  (t.dcbUnit v ≠ s.dcbUnit v → i = .dcbCfg v ∨ i = .dcbRun v)

/-! The host's steps -/

/-- R109, R120: a write to STATUS clears what its bits 0, 2 and 3 name, also while busy, and nothing else changes. -/
def Obligations.StatusWriteClears : Prop := ∀ (s : State) (v : Word),
  s.hostWrite 0x000008#24 32 v = { s with
    fault := if v.getLsbD 0 then false else s.fault
    cause := if v.getLsbD 0 then .none else s.cause
    fcmd := if v.getLsbD 0 then 0#32 else s.fcmd
    faddr := if v.getLsbD 0 then 0#32 else s.faddr
    done := if v.getLsbD 2 then false else s.done
    fovf := if v.getLsbD 3 then false else s.fovf }

/-- R111, R109: a CMD write while busy is a BUSY fault; while a fault stands every word but SRST's is discarded with FOVF set;
otherwise the word becomes pending and BUSY is set. -/
def Obligations.CmdWriteAccepts : Prop := ∀ (s : State) (w : Word),
  s.hostWrite 0x000004#24 32 w =
    if s.busy then s.recordFault .busy 0#32 0x00000004#32
    else if s.fault ∧ w ≠ 0xFC000000#32 then { s with fovf := true }
    else { s with pending := w, busy := true }

/-- R51, R45: an access that is not 32 bits wide, not word-aligned, unmapped or at a reserved register offset is a BUS fault with
that address, busy or not: a write is dropped, a read returns 0. -/
def Obligations.BadAccessIsBusFault : Prop := ∀ (s : State) (addr : BusAddr) (wd : Nat) (v : Word),
  (wd ≠ 32 ∨ addr.toNat % 4 ≠ 0 ∨ (0x68 ≤ addr.toNat ∧ addr.toNat < 0x400000) ∨
    0x400000 + 4 * s.cfg.smWords ≤ addr.toNat) →
  s.hostWrite addr wd v = s.recordFault .bus 0#32 (addr.zeroExtend 32) ∧
  s.hostRead addr wd = (0#32, s.recordFault .bus 0#32 (addr.zeroExtend 32))

/-- R55, R109, R110: while BUSY = 1 the host reads ID, CMD, STATUS, CTRL, FCMD and FADDR without effect, a write to ID is ignored, a
write to STATUS clears and a write to CTRL sets as ever (R26, R27); every other access to a mapped word is a BUSY fault: a write is
dropped, a read returns 0. -/
def Obligations.BusyAccesses : Prop := ∀ (s : State) (addr : BusAddr) (v : Word), s.busy = true → addr.toNat % 4 = 0 →
  (addr.toNat < 0x68 ∨ (0x400000 ≤ addr.toNat ∧ addr.toNat < 0x400000 + 4 * s.cfg.smWords)) →
  (s.hostRead addr 32 =
    if addr.toNat = 0x00 then (s.cfg.idValue, s)
    else if addr.toNat = 0x04 then (0#32, s)
    else if addr.toNat = 0x08 then (s.statusWord, s)
    else if addr.toNat = 0x0C then (s.ctrlWord, s)
    else if addr.toNat = 0x10 then (s.fcmd, s)
    else if addr.toNat = 0x14 then (s.faddr, s)
    else (0#32, s.recordFault .busy 0#32 (addr.zeroExtend 32))) ∧
  s.hostWrite addr 32 v =
    if addr.toNat = 0x00 then s
    else if addr.toNat = 0x08 then { s with
      fault := if v.getLsbD 0 then false else s.fault
      cause := if v.getLsbD 0 then .none else s.cause
      fcmd := if v.getLsbD 0 then 0#32 else s.fcmd
      faddr := if v.getLsbD 0 then 0#32 else s.faddr
      done := if v.getLsbD 2 then false else s.done
      fovf := if v.getLsbD 3 then false else s.fovf }
    else if addr.toNat = 0x0C then { s with fie := v.getLsbD 0, die := v.getLsbD 1 }
    else s.recordFault .busy 0#32 (addr.zeroExtend 32)

/-- R55, R57: whatever the host does while BUSY = 1 leaves BUSY, the pending word and all data the engine reads as they were. -/
def Obligations.BusyHostLeavesCommandAlone : Prop := ∀ (s t : State) (e : Event), s.busy = true →
  ((∃ addr wd v, e = .write addr wd v) ∨ ∃ addr wd, e = .read addr wd) → eventStep e s = .next t →
  ∃ fault fovf done cause fie die fcmd faddr rdata, t = { s with
    fault := fault, fovf := fovf, done := done, cause := cause, fie := fie, die := die, fcmd := fcmd, faddr := faddr,
    rdata := rdata }

/-- R17, R18, R46: an idle write to A_i, to a half of P_i or to CTRL is what the register then reads as; a half leaves the other
half, and no other state changes. -/
def Obligations.RegisterWriteReadBack : Prop := ∀ (s : State) (v : Word), s.busy = false →
  (∀ i : Fin 8, s.hostWrite (BitVec.ofNat 24 (0x20 + 4 * i.val)) 32 v = { s with A := s.A.set i v } ∧
    (s.hostWrite (BitVec.ofNat 24 (0x20 + 4 * i.val)) 32 v).hostRead (BitVec.ofNat 24 (0x20 + 4 * i.val)) 32 =
      (v, { s with A := s.A.set i v })) ∧
  (∀ i : Fin 4, ∃ p : DWord, p.extractLsb' 0 32 = v ∧ p.extractLsb' 32 32 = s.P[i].extractLsb' 32 32 ∧
    s.hostWrite (BitVec.ofNat 24 (0x40 + 8 * i.val)) 32 v = { s with P := s.P.set i p } ∧
    (s.hostWrite (BitVec.ofNat 24 (0x40 + 8 * i.val)) 32 v).hostRead (BitVec.ofNat 24 (0x40 + 8 * i.val)) 32 =
      (v, { s with P := s.P.set i p })) ∧
  (∀ i : Fin 4, ∃ p : DWord, p.extractLsb' 32 32 = v ∧ p.extractLsb' 0 32 = s.P[i].extractLsb' 0 32 ∧
    s.hostWrite (BitVec.ofNat 24 (0x44 + 8 * i.val)) 32 v = { s with P := s.P.set i p } ∧
    (s.hostWrite (BitVec.ofNat 24 (0x44 + 8 * i.val)) 32 v).hostRead (BitVec.ofNat 24 (0x44 + 8 * i.val)) 32 =
      (v, { s with P := s.P.set i p })) ∧
  s.hostWrite 0x00000C#24 32 v = { s with fie := v.getLsbD 0, die := v.getLsbD 1 } ∧
  (s.hostWrite 0x00000C#24 32 v).hostRead 0x00000C#24 32 = (v &&& 3#32, { s with fie := v.getLsbD 0, die := v.getLsbD 1 })

/-- R24, R46, R19, R52: an idle write to ID, FCMD, FADDR, RI, RF or RV is ignored, and each register reads as R110 lists; RV reads as the
binary64 pattern its exact value rounds to. -/
def Obligations.ReadOnlyRegisters : Prop := ∀ (s : State) (v : Word), s.busy = false →
  (∀ addr ∈ [0x00#24, 0x10#24, 0x14#24, 0x18#24, 0x1C#24, 0x60#24, 0x64#24], s.hostWrite addr 32 v = s) ∧
  s.hostRead 0x00#24 32 = (s.cfg.idValue, s) ∧ s.hostRead 0x04#24 32 = (0#32, s) ∧ s.hostRead 0x08#24 32 = (s.statusWord, s) ∧
  s.hostRead 0x10#24 32 = (s.fcmd, s) ∧ s.hostRead 0x14#24 32 = (s.faddr, s) ∧ s.hostRead 0x18#24 32 = (s.RI, s) ∧
  s.hostRead 0x1C#24 32 = (if s.rfFound then 1#32 else 0#32, s) ∧
  ∃ rv : DWord, s.hostRead 0x60#24 32 = (rv.extractLsb' 0 32, s) ∧ s.hostRead 0x64#24 32 = (rv.extractLsb' 32 32, s) ∧
    Rne 11 52 rv.toNat s.RV.toReal

/-- R26, R115: the places of the bits of STATUS, and the code of every cause. -/
def Obligations.StatusBits : Prop := ∀ s : State,
  s.statusWord.getLsbD 0 = s.fault ∧ s.statusWord.getLsbD 1 = s.busy ∧ s.statusWord.getLsbD 2 = s.done ∧
  s.statusWord.getLsbD 3 = s.fovf ∧ s.statusWord.extractLsb' 4 4 = 0#4 ∧
  s.statusWord.extractLsb' 8 8 = (match s.cause with
    | .none => 0#8 | .illegalOpcode => 1#8 | .reservedBits => 2#8 | .badUnit => 3#8 | .unconfigured => 4#8 | .badParam => 5#8
    | .range => 6#8 | .index => 7#8 | .busy => 8#8 | .nonfinite => 9#8 | .bus => 10#8) ∧
  s.statusWord.extractLsb' 16 16 = 0#16

/-- R53, R14, with R52 and R110: an idle write of a pattern to sample word `i` is a NONFINITE fault if its exponent field is all ones;
otherwise the word holds the pattern's value, every other word reads as before, and, in the `EXACT` profile, the word reads back as
the pattern, -0.0 as 0. The read-back is inferred from R52 and R110, and the format is log 16's (PRESUMED). -/
def Obligations.SampleWriteReadBack : Prop := ∀ (s : State) (i : Nat) (v : Word),
  s.busy = false → s.MemInv → s.cfg.Legal → i < s.cfg.smWords →
  let addr := BitVec.ofNat 24 (0x400000 + 4 * i)
  if v.extractLsb' 23 8 = 0xFF#8 then s.hostWrite addr 32 v = s.recordFault .nonfinite 0#32 (addr.zeroExtend 32)
  else ∃ m, s.hostWrite addr 32 v = { s with sm := m } ∧
    Memory.read s.epoch m i = Prim.lit s.cfg.num (value32 v) ∧ (∀ a, a ≠ i → Memory.read s.epoch m a = s.readSM a) ∧
    (s.cfg.num = .exact → Memory.read s.epoch m i = .rat (value32 v) ∧
      (s.hostWrite addr 32 v).hostRead addr 32 = (if v = 0x80000000#32 then 0#32 else v, { s with sm := m }))

/-- R52, R18, R116: a sample word reads as the binary32 pattern its exact value rounds to. A parameter register is not finite when its
bits 62:52 are all ones, and otherwise has the value of its binary64 pattern; a binary32 pattern is read in the same way. The
formats are log 16's (PRESUMED). -/
def Obligations.SampleReadIsNearest : Prop :=
  (∀ (s : State) (i : Nat), s.busy = false → s.cfg.Legal → i < s.cfg.smWords →
    let r := s.hostRead (BitVec.ofNat 24 (0x400000 + 4 * i)) 32
    r.2 = s ∧ Rne 8 23 r.1.toNat (s.readSM i).toReal) ∧
  (∀ (s : State) (i : Fin 4), (s.paramFinite i = false ↔ s.P[i].extractLsb' 52 11 = 0x7FF#11) ∧
    (s.param i : ℝ) =
      let e := (s.P[i].extractLsb' 52 11).toNat
      let f := (s.P[i].extractLsb' 0 52).toNat
      (if s.P[i].getLsbD 63 then -1 else 1) *
        if e = 0 then (f : ℝ) * 2 ^ (-1074 : ℤ) else (2 ^ 52 + f : ℝ) * 2 ^ ((e : ℤ) - 1075)) ∧
  ∀ v : Word, (finite32 v = false ↔ v.extractLsb' 23 8 = 0xFF#8) ∧
    (value32 v : ℝ) =
      let e := (v.extractLsb' 23 8).toNat
      let f := (v.extractLsb' 0 23).toNat
      (if v.getLsbD 31 then -1 else 1) *
        if e = 0 then (f : ℝ) * 2 ^ (-149 : ℤ) else (2 ^ 23 + f : ℝ) * 2 ^ ((e : ℤ) - 150)

/-- R122: IRQ is up exactly while FAULT and FIE or DONE and DIE are set; after any completion but a soft reset that is FAULT and FIE, or
DIE; and it is down once STATUS bits 0 and 2 are cleared. -/
def Obligations.IrqFollowsCompletion : Prop :=
  (∀ s : State, s.irq = true ↔ (s.fault = true ∧ s.fie = true) ∨ (s.done = true ∧ s.die = true)) ∧
  ∀ (i : Instr) (s t : State), exec i s = .next t → i ≠ .srst 0#6 →
    t.irq = ((t.fault && s.fie) || s.die) ∧
    (t.hostWrite 0x000008#24 32 0x0000000D#32).irq = false ∧ (t.hostWrite 0x000008#24 32 0x0000000D#32).statusWord = 0#32

/-- R130, R131: the hardware reset gives every piece of state its reset value; STATUS reads 0, IRQ is 0, no unit is configured, and
sample memory holds unspecified numbers (log 6). The parameters stay; the model's own fields follow logs 6, 9 and 10; PENDING and
unconfigured kernels follow logs 7 and 8. -/
def Obligations.HardResetState : Prop := ∀ (s : State) (es : List Event), s.events = .hardReset :: es →
  ∃ t, step s = .next t ∧ t = { State.init s.cfg with epoch := s.epoch + 1, events := es, rdata := s.rdata } ∧
    t.statusWord = 0#32 ∧ t.ctrlWord = 0#32 ∧ t.rfWord = 0#32 ∧ t.irq = false ∧ (∀ i : Fin 8, t.A[i] = 0#32) ∧
    (∀ i : Fin 4, t.P[i] = 0#64) ∧ t.RV = .zero ∧ t.RI = 0#32 ∧ t.fcmd = 0#32 ∧ t.faddr = 0#32 ∧
    (∀ v : UnitIdx, (t.firUnit v).configured = false ∧ (t.firUnit v).line = Line.reset ∧
      (t.shfUnit v).configured = false ∧ (t.rdsUnit v).configured = false ∧ (t.cdsUnit v).configured = false ∧
      (t.fmdUnit v).configured = false ∧ (t.amdUnit v).configured = false ∧ (t.ssbUnit v).configured = false ∧
      (t.stsUnit v).configured = false ∧ (t.demUnit v).configured = false ∧ (t.agcUnit v).configured = false ∧
      (t.dcbUnit v).configured = false) ∧
    ∀ a, t.readSM a = .held (s.epoch + 1) a

/-! Invariants of every step -/

/-- Every step keeps the canonical form of sample memory, which is the model's choice (log 5). -/
def Obligations.StepKeepsMemory : Prop := Kept State.MemInv

/-- R31, R33, R34, R37: every step keeps the lengths of all delay lines; R113: where MAX_TAPS is at most MAX_BLOCK, as in R7, every
step also keeps RI within MAX_BLOCK. -/
def Obligations.StepKeepsDelayLines : Prop := Kept State.DelayInv ∧
  Kept fun s => s.cfg.maxTaps ≤ s.cfg.maxBlock ∧ s.DelayInv ∧ s.RiInv

/-- R26, R28, R115: every step keeps the fault record consistent. -/
def Obligations.StepKeepsFaultRecord : Prop := Kept State.FaultInv

/-- R32, R38, R97: in the `EXACT` profile every step keeps all phases in `[0, 1)`, and, in a block with legal parameters, the NCO
frequency between `wmin` and `wmax`. -/
def Obligations.StepKeepsPhases : Prop := (Kept fun s => s.cfg.num = .exact ∧ s.PhaseInv) ∧
  Kept fun s => s.cfg.num = .exact ∧ s.cfg.Legal ∧ s.NcoInv

/-- R90, R99, R101, R103: in the `EXACT` profile and a block with legal parameters every step keeps the one-pole coefficients strictly
between 0 and 1 and the AGC's average not negative. -/
def Obligations.StepKeepsPoles : Prop := Kept fun s => s.cfg.num = .exact ∧ s.cfg.Legal ∧ s.PoleInv

/-- R131: the state of every block after reset meets every invariant. R7: the parameters of this spec's WRS-DSP are legal. -/
def Obligations.ResetMeetsInvariants : Prop :=
  (∀ c : Params, let s := State.init c
    s.cfg = c ∧ s.MemInv ∧ s.DelayInv ∧ s.RiInv ∧ s.FaultInv ∧ s.PhaseInv ∧ s.NcoInv ∧ s.PoleInv) ∧
  State.reset.cfg = Config.wrsDsp ∧ Config.wrsDsp.Legal ∧ Config.wrsDsp = {
    smWords := 2 ^ 20, maxBlock := 2 ^ 18, maxTaps := 1023, nFir := 4, nShf := 4, nRds := 4, nCds := 4, nFmd := 4, nAmd := 4,
    nSsb := 4, nSts := 4, nDem := 4, nAgc := 4, nDcb := 4, hilbertTaps := 151, amHpHz := 20, pilotHz := 19000, pllBwHz := 50,
    pllZeta := 0.707, pllKd := 0.05, pllErrHz := 2000, pllPullHz := 100, pllAmpTau := 0.05, pllThresh := 0.02, agcEps := 1e-6,
    num := .exact, idValue := 0x57445301#32 }

/-! Laws of the families -/

/-- R79, streaming: FIR.RUN on a block, then on the block after it, writes the same numbers and leaves the same history as one
FIR.RUN on both. `at_ a n` is the state with A0 = `a` and A1 = `n`. -/
def Obligations.FirStreaming : Prop := ∀ (u : UnitIdx) (s t1 t2 t : State) (a m n : Nat),
  s.cfg.Legal → s.MemInv → (s.firUnit u).Ok s.cfg → u.toNat < s.cfg.nFir → (s.firUnit u).configured = true →
  m + n ≤ s.cfg.maxBlock → a + (m + n) ≤ s.cfg.smWords →
  let at_ : State → Nat → Nat → State := fun s a n => { s with A := (s.A.set 0 (BitVec.ofNat 32 a)).set 1 (BitVec.ofNat 32 n) }
  exec (.firRun u) (at_ s a m) = .next t1 → exec (.firRun u) (at_ t1 (a + m) n) = .next t2 →
  exec (.firRun u) (at_ s a (m + n)) = .next t →
  (∀ b, t2.readSM b = t.readSM b) ∧ (t2.firUnit u).line.H = (t.firUnit u).line.H ∧ (t2.firUnit u).h = (t.firUnit u).h

/-- R69: a generated kernel is symmetric, and it sums to 1 unless its raw coefficients sum to 0. -/
def Obligations.LpkSymmetricUnitGain : Prop := ∀ (rate : Nat) (corner : Sys2Proof.Num) (taps : Nat), 1 ≤ taps →
  let h := lpk .exact rate corner taps
  h.length = taps + (taps + 1) % 2 ∧ h.length % 2 = 1 ∧ (∀ n, n < h.length → realAt h n = realAt h (h.length - 1 - n)) ∧
  ((lpkSum .exact rate corner taps).toReal ≠ 0 → ∑ n ∈ Finset.range h.length, realAt h n = 1)

/-- R79, linearity: the output for a window that is `a` times one window plus `b` times another is the same combination of their
outputs. -/
def Obligations.ConvIsLinear : Prop := ∀ (h X Y Z : List Sys2Proof.Num) (a b : ℝ) (i : Nat),
  (∀ j, realAt Z j = a * realAt X j + b * realAt Y j) →
  (conv .exact h Z i).toReal = a * (conv .exact h X i).toReal + b * (conv .exact h Y i).toReal

/-- R82, from R81: two shifters of equal rate and phase, the second run with the opposite frequency on the output of the first,
multiply each sample by `exp(j*4*pi*theta)`; from the phase 0 that SHF.CFG gives they reproduce the block exactly (log 20). -/
def Obligations.ShiftRoundTrip : Prop := ∀ (u v : UnitIdx) (s t1 t2 : State) (p : DWord),
  s.cfg.num = .exact → s.MemInv → u ≠ v → u.toNat < s.cfg.nShf → v.toNat < s.cfg.nShf →
  (s.shfUnit u).configured = true → s.shfUnit v = s.shfUnit u →
  s.paramFinite 0 = true → finite64 p = true → value64 p = -s.param 0 →
  s.arg 2 ≤ s.cfg.maxBlock → s.arg 0 + s.arg 2 ≤ s.cfg.smWords → s.arg 1 + s.arg 2 ≤ s.cfg.smWords →
  (s.arg 2 = 0 ∨ s.arg 0 + s.arg 2 ≤ s.arg 1 ∨ s.arg 1 + s.arg 2 ≤ s.arg 0) →
  exec (.shfRun u) s = .next t1 → exec (.shfRun v) { t1 with P := t1.P.set 0 p } = .next t2 →
  let phi := 4 * Real.pi * (s.shfUnit u).theta.toReal
  let x := s.sample (s.arg 0)
  let y := s.sample (s.arg 1)
  (∀ n, n < s.arg 2 → t2.sample (s.arg 0) n = x n * Real.cos phi - y n * Real.sin phi ∧
    t2.sample (s.arg 1) n = x n * Real.sin phi + y n * Real.cos phi) ∧
  ((s.shfUnit u).theta.toReal = 0 → ∀ a, (t2.readSM a).toReal = (s.readSM a).toReal)
end

