-- ==== Sys2Proof/Laws/Exact.lean ====
section
/-! SUPPORT. Every primitive of Machine/Number.lean denotes the exact real result of R12: the folds are identities (log 2). -/

namespace Sys2Proof.Machine

theorem toReal_rat (q : ℚ) : Num.toReal (.rat q) = (q : ℝ) := by simp [Num.toReal]

theorem toReal_zero : Num.toReal .zero = 0 := by simp [Num.toReal]

theorem toReal_of_isZeroTerm {a : Num} (h : Exact.isZeroTerm a = true) : Num.toReal a = 0 := by
  cases a <;> simp_all [Exact.isZeroTerm, Num.toReal]

theorem toReal_of_isOneTerm {a : Num} (h : Exact.isOneTerm a = true) : Num.toReal a = 1 := by
  cases a <;> simp_all [Exact.isOneTerm, Num.toReal]

@[simp] theorem exact_toReal_mono (q : ℚ) (k : ℤ) : Num.toReal (Exact.mono q k) = (q : ℝ) * Real.pi ^ k := by
  unfold Exact.mono
  split <;> simp_all [Num.toReal]

@[simp] theorem exact_toReal_pi : Num.toReal Exact.pi = Real.pi := by simp [Exact.pi, Num.toReal]

@[simp] theorem exact_toReal_add (a b : Num) : Num.toReal (Exact.add a b) = Num.toReal a + Num.toReal b := by
  unfold Exact.add
  split
  next h => rw [toReal_of_isZeroTerm h, zero_add]
  next =>
    split
    next h => rw [toReal_of_isZeroTerm h, add_zero]
    next =>
      split
      next p j q k _ _ =>
        split
        next h => subst h; simp [Num.toReal]; ring
        next => rfl
      next => rfl

@[simp] theorem exact_toReal_sub (a b : Num) : Num.toReal (Exact.sub a b) = Num.toReal a - Num.toReal b := by
  unfold Exact.sub
  split
  next h => rw [toReal_of_isZeroTerm h, sub_zero]
  next =>
    split
    next p j q k _ =>
      split
      next h => subst h; simp [Num.toReal]
      next =>
        split
        next h => subst h; simp [Num.toReal]; ring
        next => rfl
    next => rfl

@[simp] theorem exact_toReal_mul (a b : Num) : Num.toReal (Exact.mul a b) = Num.toReal a * Num.toReal b := by
  unfold Exact.mul
  split
  next h =>
    rcases Bool.or_eq_true _ _ |>.mp h with h | h <;> simp [toReal_of_isZeroTerm h, toReal_zero]
  next =>
    split
    next h => rw [toReal_of_isOneTerm h, one_mul]
    next =>
      split
      next h => rw [toReal_of_isOneTerm h, mul_one]
      next =>
        split
        next p j q k _ _ _ => simp [Num.toReal, zpow_add₀ Real.pi_ne_zero]; ring
        next => rfl

@[simp] theorem exact_toReal_div (a b : Num) : Num.toReal (Exact.div a b) = Num.toReal a / Num.toReal b := by
  unfold Exact.div
  split
  next h => simp [toReal_of_isZeroTerm h, toReal_zero]
  next =>
    split
    next h => rw [toReal_of_isOneTerm h, div_one]
    next =>
      split
      next p j q k _ _ =>
        simp only [exact_toReal_mono, Num.toReal, zpow_sub₀ Real.pi_ne_zero, Rat.cast_div]
        exact div_mul_div_comm _ _ _ _
      next => rfl

theorem ratSqrt_sound {q r : ℚ} (h : Exact.ratSqrt? q = some r) : 0 ≤ r ∧ r * r = q := by
  simp only [Exact.ratSqrt?] at h
  split at h
  next hq => cases h; exact ⟨by positivity, hq⟩
  next => cases h

@[simp] theorem exact_toReal_sqrt (a : Num) : Num.toReal (Exact.sqrt a) = Real.sqrt (Num.toReal a) := by
  unfold Exact.sqrt
  split
  next q k =>
    split
    next hk =>
      split
      next r hr =>
        obtain ⟨h0, hq⟩ := ratSqrt_sound hr
        subst hk
        have : ((q : ℚ) : ℝ) = (r : ℝ) * (r : ℝ) := by rw [← hq]; push_cast; rfl
        simp [Num.toReal, this, Real.sqrt_mul_self (by exact_mod_cast h0 : (0 : ℝ) ≤ (r : ℝ))]
      next => rfl
    next => rfl
  next => rfl

theorem sin_halfTurns (q : ℚ) : Real.sin ((q : ℝ) * Real.pi) = Real.sin ((Exact.halfTurns q : ℝ) * Real.pi) := by
  have : ((Exact.halfTurns q : ℚ) : ℝ) * Real.pi = (q : ℝ) * Real.pi - ((q / 2).floor : ℝ) * (2 * Real.pi) := by
    unfold Exact.halfTurns; push_cast; ring
  rw [this, Real.sin_sub_int_mul_two_pi]

theorem sinPi_sound {q r : ℚ} (h : Exact.sinPi? q = some r) : Real.sin ((q : ℝ) * Real.pi) = (r : ℝ) := by
  rw [sin_halfTurns]
  unfold Exact.sinPi? at h
  simp only at h
  generalize Exact.halfTurns q = t at h
  have e1 : (5 / 6 : ℝ) * Real.pi = Real.pi - Real.pi / 6 := by ring
  have e2 : (7 / 6 : ℝ) * Real.pi = Real.pi / 6 + Real.pi := by ring
  have e3 : (11 / 6 : ℝ) * Real.pi = 2 * Real.pi - Real.pi / 6 := by ring
  have e4 : (3 / 2 : ℝ) * Real.pi = Real.pi / 2 + Real.pi := by ring
  have e5 : (1 / 2 : ℝ) * Real.pi = Real.pi / 2 := by ring
  have e6 : (1 / 6 : ℝ) * Real.pi = Real.pi / 6 := by ring
  split_ifs at h with h1 h2 h3 h4 h5 <;> cases h
  · rcases h1 with rfl | rfl <;> simp
  · subst h2; push_cast; rw [e5]; simp
  · subst h3; push_cast; rw [e4, Real.sin_add_pi]; simp
  · rcases h4 with rfl | rfl <;> push_cast
    · rw [e6, Real.sin_pi_div_six]
    · rw [e1, Real.sin_pi_sub, Real.sin_pi_div_six]
  · rcases h5 with rfl | rfl <;> push_cast
    · rw [e2, Real.sin_add_pi, Real.sin_pi_div_six]; norm_num
    · rw [e3, Real.sin_two_pi_sub, Real.sin_pi_div_six]; norm_num

@[simp] theorem exact_toReal_sin (a : Num) : Num.toReal (Exact.sin a) = Real.sin (Num.toReal a) := by
  unfold Exact.sin
  split
  next q k =>
    split
    next h => subst h; simp [Num.toReal]
    next =>
      split
      next hk =>
        split
        next r hr => subst hk; rw [toReal_rat, ← sinPi_sound hr]; simp [Num.toReal]
        next => rfl
      next => rfl
  next => rfl

@[simp] theorem exact_toReal_cos (a : Num) : Num.toReal (Exact.cos a) = Real.cos (Num.toReal a) := by
  unfold Exact.cos
  split
  next q k =>
    split
    next h => subst h; simp [Num.toReal]
    next =>
      split
      next hk =>
        split
        next r hr =>
          subst hk
          rw [toReal_rat, ← sinPi_sound hr, ← Real.sin_add_pi_div_two]
          congr 1; simp [Num.toReal]; ring
        next => rfl
      next => rfl
  next => rfl

@[simp] theorem exact_toReal_exp (a : Num) : Num.toReal (Exact.exp a) = Real.exp (Num.toReal a) := by
  unfold Exact.exp
  split
  next h => rw [toReal_of_isZeroTerm h]; simp [Num.toReal]
  next => rfl

theorem realAtan2_scale {c : ℝ} (hc : 0 < c) (y x : ℝ) : realAtan2 (y * c) (x * c) = realAtan2 y x := by
  unfold realAtan2
  have hn : ∀ z : ℝ, z * c < 0 ↔ z < 0 := fun z => by
    rw [← not_le, ← not_le, mul_nonneg_iff_of_pos_right hc]
  simp only [mul_pos_iff_of_pos_right hc, hn, mul_div_mul_right _ _ hc.ne', mul_nonneg_iff_of_pos_right hc]

@[simp] theorem exact_toReal_atan2 (y x : Num) :
    Num.toReal (Exact.atan2 y x) = realAtan2 (Num.toReal y) (Num.toReal x) := by
  unfold Exact.atan2
  split
  next q j p k =>
    have hj : (0 : ℝ) < Real.pi ^ j := zpow_pos Real.pi_pos j
    have hk : (0 : ℝ) < Real.pi ^ k := zpow_pos Real.pi_pos k
    split_ifs with h1 h2 h3 h4 h5 h6 h7 h8
    · subst h1
      have : (p : ℝ) < 0 := by exact_mod_cast h2
      simp [Num.toReal, realAtan2, mul_neg_of_neg_of_pos this hk, (mul_neg_of_neg_of_pos this hk).le]
    · subst h1
      have : (0 : ℝ) ≤ (p : ℝ) := by exact_mod_cast not_lt.mp h2
      have hx : ¬ (p : ℝ) * Real.pi ^ k < 0 := not_lt.mpr (mul_nonneg this hk.le)
      simp [Num.toReal, realAtan2, hx]
    · subst h3
      have : (0 : ℝ) < (q : ℝ) := by exact_mod_cast h4
      simp [Num.toReal, realAtan2, mul_pos this hj]; ring
    · subst h3
      have : (q : ℝ) < 0 := by exact_mod_cast lt_of_le_of_ne (not_lt.mp h4) h1
      have hy : (q : ℝ) * Real.pi ^ j < 0 := mul_neg_of_neg_of_pos this hj
      simp [Num.toReal, realAtan2, hy, not_lt.mpr hy.le]; ring
    · obtain ⟨rfl, rfl⟩ := h5
      have hp : (0 : ℝ) < (q : ℝ) := by exact_mod_cast h6
      simp only [Num.toReal, realAtan2_scale hj]
      simp [realAtan2, hp, hp.ne']; ring
    · obtain ⟨rfl, rfl⟩ := h5
      have hp : (q : ℝ) < 0 := by exact_mod_cast lt_of_le_of_ne (not_lt.mp h6) h1
      simp only [Num.toReal, realAtan2_scale hj]
      simp [realAtan2, hp, hp.ne, not_lt.mpr hp.le, not_le.mpr hp]; ring
    · obtain ⟨rfl, rfl⟩ := h7
      have hp : (0 : ℝ) < (p : ℝ) := by exact_mod_cast h8
      simp only [Num.toReal, realAtan2_scale hj]
      simp [realAtan2, hp, neg_div, div_self hp.ne', Real.arctan_neg]; ring
    · obtain ⟨rfl, rfl⟩ := h7
      have hp : (p : ℝ) < 0 := by exact_mod_cast lt_of_le_of_ne (not_lt.mp h8) h3
      simp only [Num.toReal, realAtan2_scale hj]
      simp [realAtan2, hp, hp.le, not_lt.mpr hp.le, neg_div, div_self hp.ne, Real.arctan_neg]; ring
    · rfl
  next => rfl

@[simp] theorem exact_toReal_frac (a : Num) : Num.toReal (Exact.frac a) = Int.fract (Num.toReal a) := by
  unfold Exact.frac
  split
  next q k =>
    split
    next hk => subst hk; simp [Num.toReal, Int.fract, Rat.floor_cast]; rfl
    next => rfl
  next => rfl

@[simp] theorem exact_toReal_abs (a : Num) : Num.toReal (Exact.abs a) = |Num.toReal a| := by
  unfold Exact.abs
  split
  next q k =>
    have hk : (0 : ℝ) < Real.pi ^ k := zpow_pos Real.pi_pos k
    simp only [Num.toReal, abs_mul, abs_of_pos hk]
    split
    next h => rw [abs_of_neg (by exact_mod_cast h : (q : ℝ) < 0)]; push_cast; rfl
    next h => rw [abs_of_nonneg (by exact_mod_cast not_lt.mp h : (0 : ℝ) ≤ (q : ℝ))]
  next => rfl

@[simp] theorem exact_toReal_max (a b : Num) : Num.toReal (Exact.max a b) = Max.max (Num.toReal a) (Num.toReal b) := by
  unfold Exact.max
  split
  next p j q k =>
    split
    next h =>
      subst h
      have hk : (0 : ℝ) < Real.pi ^ j := zpow_pos Real.pi_pos j
      split
      next h =>
        have : (p : ℝ) ≤ (q : ℝ) := by exact_mod_cast h.le
        simp [Num.toReal, max_eq_right (mul_le_mul_of_nonneg_right this hk.le)]
      next h =>
        have : (q : ℝ) ≤ (p : ℝ) := by exact_mod_cast not_lt.mp h
        simp [Num.toReal, max_eq_left (mul_le_mul_of_nonneg_right this hk.le)]
    next => rfl
  next => rfl

@[simp] theorem exact_toReal_min (a b : Num) : Num.toReal (Exact.min a b) = Min.min (Num.toReal a) (Num.toReal b) := by
  unfold Exact.min
  split
  next p j q k =>
    split
    next h =>
      subst h
      have hk : (0 : ℝ) < Real.pi ^ j := zpow_pos Real.pi_pos j
      split
      next h =>
        have : (q : ℝ) ≤ (p : ℝ) := by exact_mod_cast h.le
        simp [Num.toReal, min_eq_right (mul_le_mul_of_nonneg_right this hk.le)]
      next h =>
        have : (p : ℝ) ≤ (q : ℝ) := by exact_mod_cast not_lt.mp h
        simp [Num.toReal, min_eq_left (mul_le_mul_of_nonneg_right this hk.le)]
    next => rfl
  next => rfl

/-! The primitives of the `EXACT` profile (R13) -/

@[simp] theorem lit_exact (q : ℚ) : Prim.lit .exact q = .rat q := by
  unfold Prim.lit
  split
  next h => subst h; rfl
  next => rfl

@[simp] theorem nat_exact (n : Nat) : Prim.nat .exact n = .rat n := lit_exact n

theorem toReal_lit (q : ℚ) : (Prim.lit .exact q).toReal = (q : ℝ) := by rw [lit_exact, toReal_rat]

theorem toReal_nat (n : Nat) : (Prim.nat .exact n).toReal = (n : ℝ) := by rw [nat_exact, toReal_rat, Rat.cast_natCast]

@[simp] theorem lit_zero (N : Profile) : Prim.lit N 0 = .zero := by simp [Prim.lit]

@[simp] theorem toReal_pi : (Prim.pi .exact).toReal = Real.pi := exact_toReal_pi
@[simp] theorem toReal_add (a b : Num) : (Prim.add .exact a b).toReal = a.toReal + b.toReal := exact_toReal_add a b
@[simp] theorem toReal_sub (a b : Num) : (Prim.sub .exact a b).toReal = a.toReal - b.toReal := exact_toReal_sub a b
@[simp] theorem toReal_mul (a b : Num) : (Prim.mul .exact a b).toReal = a.toReal * b.toReal := exact_toReal_mul a b
@[simp] theorem toReal_div (a b : Num) : (Prim.div .exact a b).toReal = a.toReal / b.toReal := exact_toReal_div a b
@[simp] theorem toReal_sqrt (a : Num) : (Prim.sqrt .exact a).toReal = Real.sqrt a.toReal := exact_toReal_sqrt a
@[simp] theorem toReal_sin (a : Num) : (Prim.sin .exact a).toReal = Real.sin a.toReal := exact_toReal_sin a
@[simp] theorem toReal_cos (a : Num) : (Prim.cos .exact a).toReal = Real.cos a.toReal := exact_toReal_cos a
@[simp] theorem toReal_exp (a : Num) : (Prim.exp .exact a).toReal = Real.exp a.toReal := exact_toReal_exp a
@[simp] theorem toReal_atan2 (y x : Num) : (Prim.atan2 .exact y x).toReal = realAtan2 y.toReal x.toReal :=
  exact_toReal_atan2 y x
@[simp] theorem toReal_frac (a : Num) : (Prim.frac .exact a).toReal = Int.fract a.toReal := exact_toReal_frac a
@[simp] theorem toReal_abs (a : Num) : (Prim.abs .exact a).toReal = |a.toReal| := exact_toReal_abs a
@[simp] theorem toReal_max (a b : Num) : (Prim.max .exact a b).toReal = Max.max a.toReal b.toReal := exact_toReal_max a b
@[simp] theorem toReal_min (a b : Num) : (Prim.min .exact a b).toReal = Min.min a.toReal b.toReal := exact_toReal_min a b

@[simp] theorem toReal_clamp (v lo hi : Num) :
    (Prim.clamp .exact v lo hi).toReal = Min.min (Max.max v.toReal lo.toReal) hi.toReal := by
  simp [Prim.clamp, Prim.run, Exact.clamp]

theorem toReal_foldl_add (ts : List Num) (a : Num) :
    (ts.foldl (Prim.add .exact) a).toReal = a.toReal + (ts.map Num.toReal).sum := by
  induction ts generalizing a with
  | nil => simp
  | cons t ts ih => simp [ih]; ring

@[simp] theorem toReal_sum (ts : List Num) : (Prim.sum .exact ts).toReal = (ts.map Num.toReal).sum := by
  simp [Prim.sum, toReal_foldl_add, toReal_zero]

end Sys2Proof.Machine
end

