-- ==== Sys2Proof/Laws/Enclosure.lean ====
section
/-! SUPPORT. The enclosures of Machine/Enclosure.lean hold: `enclose p a = some e` puts the exact value of `a` between
`e.lo / 2^p` and `e.hi / 2^p`, so a sign `signOf` reads off an enclosure is the sign of the exact value (log 3). -/

namespace Sys2Proof.Machine

/-- The real number `x` lies within the enclosure `e` of precision `p`. -/
def Encl.Holds (p : Nat) (e : Encl) (x : ℝ) : Prop := (e.lo : ℝ) ≤ x * 2 ^ p ∧ x * 2 ^ p ≤ (e.hi : ℝ)

theorem floorDiv_mul_le (n d : Int) (hd : 0 < d) : ((n / d : Int) : ℝ) * (d : ℝ) ≤ (n : ℝ) := by
  exact_mod_cast Int.ediv_mul_le n hd.ne'

theorem le_ceilDiv_mul (n d : Int) (hd : 0 < d) : (n : ℝ) ≤ (ceilDiv n d : ℝ) * (d : ℝ) := by
  have h := floorDiv_mul_le (-n) d hd
  unfold ceilDiv
  push_cast at h ⊢
  linarith

theorem floorDiv_le (n d : Int) (hd : 0 < d) : ((n / d : Int) : ℝ) ≤ (n : ℝ) / (d : ℝ) :=
  (le_div_iff₀ (by exact_mod_cast hd)).mpr (floorDiv_mul_le n d hd)

theorem le_ceilDiv (n d : Int) (hd : 0 < d) : (n : ℝ) / (d : ℝ) ≤ (ceilDiv n d : ℝ) :=
  (div_le_iff₀ (by exact_mod_cast hd)).mpr (le_ceilDiv_mul n d hd)

section
variable {p : Nat} {a b : Encl} {x y : ℝ}

theorem holds_ofRat (p : Nat) (q : ℚ) : (Encl.ofRat p q).Holds p (q : ℝ) := by
  have hd : (0 : Int) < (q.den : Int) := by exact_mod_cast q.den_pos
  have e : (q : ℝ) * 2 ^ p = ((q.num * 2 ^ p : Int) : ℝ) / ((q.den : Int) : ℝ) := by
    rw [Rat.cast_def]; push_cast; ring
  unfold Encl.Holds
  rw [e]
  exact ⟨floorDiv_le _ _ hd, le_ceilDiv _ _ hd⟩

theorem holds_one (p : Nat) : (Encl.one p).Holds p 1 := by simp [Encl.Holds, Encl.one]

theorem holds_add (ha : a.Holds p x) (hb : b.Holds p y) : (a.add b).Holds p (x + y) := by
  simp only [Encl.Holds, Encl.add] at *; push_cast; constructor <;> linarith [ha.1, ha.2, hb.1, hb.2]

theorem holds_neg (ha : a.Holds p x) : a.neg.Holds p (-x) := by
  simp only [Encl.Holds, Encl.neg] at *; push_cast; constructor <;> linarith [ha.1, ha.2]

theorem holds_sub (ha : a.Holds p x) (hb : b.Holds p y) : (a.sub b).Holds p (x - y) := by
  rw [sub_eq_add_neg]; exact holds_add ha (holds_neg hb)

theorem holds_max (ha : a.Holds p x) (hb : b.Holds p y) : (a.max b).Holds p (Max.max x y) := by
  have h2 : (0 : ℝ) ≤ 2 ^ p := by positivity
  simp only [Encl.Holds, Encl.max, max_mul_of_nonneg _ _ h2] at *
  push_cast
  exact ⟨max_le_max ha.1 hb.1, max_le_max ha.2 hb.2⟩

theorem holds_min (ha : a.Holds p x) (hb : b.Holds p y) : (a.min b).Holds p (Min.min x y) := by
  have h2 : (0 : ℝ) ≤ 2 ^ p := by positivity
  simp only [Encl.Holds, Encl.min, min_mul_of_nonneg _ _ h2] at *
  push_cast
  exact ⟨min_le_min ha.1 hb.1, min_le_min ha.2 hb.2⟩

theorem holds_abs (ha : a.Holds p x) : a.abs.Holds p |x| := by
  have h2 : (0 : ℝ) < 2 ^ p := by positivity
  have e : |x| * 2 ^ p = |x * 2 ^ p| := by rw [abs_mul, abs_of_pos h2]
  unfold Encl.abs
  split_ifs with h1 h3
  · have : (0 : ℝ) ≤ (a.lo : ℝ) := by exact_mod_cast h1
    unfold Encl.Holds; rw [e, abs_of_nonneg (this.trans ha.1)]; exact ha
  · have : (a.hi : ℝ) ≤ 0 := by exact_mod_cast h3
    have hn := holds_neg ha
    unfold Encl.Holds at hn ⊢; rw [e, abs_of_nonpos (ha.2.trans this), ← neg_mul]; exact hn
  · unfold Encl.Holds; rw [e]; push_cast
    refine ⟨abs_nonneg _, abs_le'.mpr ⟨ha.2.trans (le_max_right _ _), le_max_of_le_left ?_⟩⟩
    linarith [ha.1]

theorem holds_widen {n : Int} {z : ℝ} (ha : a.Holds p x) (h : |z - x| ≤ n / 2 ^ p) : (a.widen n).Holds p z := by
  have h2 : (0 : ℝ) < 2 ^ p := by positivity
  rw [le_div_iff₀ h2] at h
  have := abs_le.mp (show |z * 2 ^ p - x * 2 ^ p| ≤ (n : ℝ) by rwa [← sub_mul, abs_mul, abs_of_pos h2])
  simp only [Encl.Holds, Encl.widen] at *; push_cast; constructor <;> linarith [ha.1, ha.2]

theorem holds_divNat {n : Nat} (hn : 0 < n) (ha : a.Holds p x) : (a.divNat n).Holds p (x / n) := by
  have hd : (0 : Int) < (n : Int) := by exact_mod_cast hn
  have hr : (0 : ℝ) < ((n : Int) : ℝ) := by exact_mod_cast hn
  have e : x / n * 2 ^ p = x * 2 ^ p / ((n : Int) : ℝ) := by push_cast; ring
  simp only [Encl.Holds, Encl.divNat] at *
  rw [e]
  exact ⟨(floorDiv_le _ _ hd).trans (div_le_div_of_nonneg_right ha.1 hr.le),
    (div_le_div_of_nonneg_right ha.2 hr.le).trans (le_ceilDiv _ _ hd)⟩

theorem mul_between {X l h c : ℝ} (h1 : l ≤ X) (h2 : X ≤ h) :
    Min.min (l * c) (h * c) ≤ X * c ∧ X * c ≤ Max.max (l * c) (h * c) := by
  rcases le_total 0 c with hc | hc
  · exact ⟨(min_le_left _ _).trans (mul_le_mul_of_nonneg_right h1 hc),
      (mul_le_mul_of_nonneg_right h2 hc).trans (le_max_right _ _)⟩
  · exact ⟨(min_le_right _ _).trans (mul_le_mul_of_nonpos_right h2 hc),
      (mul_le_mul_of_nonpos_right h1 hc).trans (le_max_left _ _)⟩

theorem holds_mul (ha : a.Holds p x) (hb : b.Holds p y) : (a.mul p b).Holds p (x * y) := by
  have h2 : (0 : Int) < 2 ^ p := by positivity
  have hr : (0 : ℝ) < ((2 ^ p : Int) : ℝ) := by exact_mod_cast h2
  have e : x * y * 2 ^ p = x * 2 ^ p * (y * 2 ^ p) / ((2 ^ p : Int) : ℝ) := by
    push_cast; field_simp
  simp only [Encl.Holds, Encl.mul] at *
  rw [e]
  generalize x * 2 ^ p = X at *
  generalize y * 2 ^ p = Y at *
  have k := mul_between (c := Y) ha.1 ha.2
  have k1 := mul_between (c := (a.lo : ℝ)) hb.1 hb.2
  have k2 := mul_between (c := (a.hi : ℝ)) hb.1 hb.2
  simp only [mul_comm _ (a.lo : ℝ)] at k1
  simp only [mul_comm _ (a.hi : ℝ)] at k2
  constructor
  · refine (floorDiv_le _ _ h2).trans (div_le_div_of_nonneg_right ?_ hr.le)
    push_cast
    exact (min_le_min k1.1 k2.1).trans k.1
  · refine le_trans (div_le_div_of_nonneg_right ?_ hr.le) (le_ceilDiv _ _ h2)
    push_cast
    exact k.2.trans (max_le_max k1.2 k2.2)

theorem holds_inv_pos (ha : a.Holds p x) (h : 0 < a.lo) :
    (Encl.mk (2 ^ (2 * p) / a.hi) (ceilDiv (2 ^ (2 * p)) a.lo)).Holds p x⁻¹ := by
  have h2 : (0 : ℝ) < 2 ^ p := by positivity
  have hl : (0 : ℝ) < (a.lo : ℝ) := by exact_mod_cast h
  have hX : 0 < x * 2 ^ p := hl.trans_le ha.1
  have hh : (0 : ℝ) < (a.hi : ℝ) := hX.trans_le ha.2
  have hhi : 0 < a.hi := by exact_mod_cast hh
  have hx : x ≠ 0 := fun h0 => by simp [h0] at hX
  have e : x⁻¹ * 2 ^ p = ((2 ^ (2 * p) : Int) : ℝ) / (x * 2 ^ p) := by
    push_cast; field_simp; ring
  have hn : (0 : ℝ) ≤ ((2 ^ (2 * p) : Int) : ℝ) := by push_cast; positivity
  unfold Encl.Holds
  rw [e]
  exact ⟨(floorDiv_le _ _ hhi).trans (div_le_div_of_nonneg_left hn hX ha.2),
    (div_le_div_of_nonneg_left hn hl ha.1).trans (le_ceilDiv _ _ h)⟩

theorem holds_inv {r : Encl} (ha : a.Holds p x) (h : a.inv p = some r) : r.Holds p x⁻¹ := by
  unfold Encl.inv at h
  split_ifs at h with h1 h2
  · cases h; exact holds_inv_pos ha h1
  · cases h
    have hn := holds_neg ha
    have := holds_inv_pos (a := a.neg) hn (by simp only [Encl.neg]; omega)
    have k := holds_neg this
    rwa [inv_neg, neg_neg] at k

theorem holds_div {r : Encl} (ha : a.Holds p x) (hb : b.Holds p y) (h : a.div p b = some r) : r.Holds p (x / y) := by
  simp only [Encl.div, Option.map_eq_some_iff] at h
  obtain ⟨i, hi, rfl⟩ := h
  exact holds_mul ha (holds_inv hb hi)

theorem holds_pow (ha : a.Holds p x) (n : Nat) : (Encl.pow p a n).Holds p (x ^ n) := by
  induction n with
  | zero => simpa [Encl.pow] using holds_one p
  | succ n ih => rw [pow_succ']; exact holds_mul ha ih

/-! Square roots -/

theorem isqrtAux_spec (n i r : Nat) (h1 : r * r ≤ n) (h2 : n < (r + 2 ^ i) * (r + 2 ^ i)) :
    isqrtAux n i r * isqrtAux n i r ≤ n ∧ n < (isqrtAux n i r + 1) * (isqrtAux n i r + 1) := by
  induction i generalizing r with
  | zero => exact ⟨h1, by simpa [isqrtAux] using h2⟩
  | succ i ih =>
    unfold isqrtAux
    split_ifs with h
    · exact ih _ h (by rw [pow_succ] at h2; rwa [add_assoc, ← mul_two])
    · exact ih _ h1 (not_le.mp h)

theorem isqrt_spec (n : Nat) : isqrt n * isqrt n ≤ n ∧ n < (isqrt n + 1) * (isqrt n + 1) := by
  refine isqrtAux_spec n _ 0 (by simp) ?_
  rw [zero_add, ← pow_add]
  exact lt_of_lt_of_le Nat.lt_log2_self (Nat.pow_le_pow_right (by norm_num) (by omega))

theorem isqrt_le_sqrt (n : Nat) : (isqrt n : ℝ) ≤ Real.sqrt n :=
  Real.le_sqrt_of_sq_le (by rw [sq]; exact_mod_cast (isqrt_spec n).1)

theorem sqrt_le_isqrt (n : Nat) : Real.sqrt n ≤ (isqrt n : ℝ) + 1 :=
  Real.sqrt_le_iff.mpr ⟨by positivity, by rw [sq]; exact_mod_cast (isqrt_spec n).2.le⟩

theorem toNat_cast_le {n : Int} {X : ℝ} (h : (n : ℝ) ≤ X) : ((n.toNat : Nat) : ℝ) ≤ Max.max X 0 := by
  rcases le_total 0 n with hn | hn
  · have : ((n.toNat : Nat) : ℝ) = (n : ℝ) := by exact_mod_cast congrArg (Int.cast : Int → ℝ) (Int.toNat_of_nonneg hn)
    rw [this]; exact h.trans (le_max_left _ _)
  · simp [Int.toNat_of_nonpos hn]

theorem le_toNat_cast (n : Int) : (n : ℝ) ≤ ((n.toNat : Nat) : ℝ) := by exact_mod_cast Int.self_le_toNat n

theorem holds_sqrt (ha : a.Holds p x) : (Encl.sqrt p a).Holds p (Real.sqrt x) := by
  have h2 : (0 : ℝ) < 2 ^ p := by positivity
  have e : Real.sqrt x * 2 ^ p = Real.sqrt (x * 2 ^ p * 2 ^ p) := by
    rw [mul_assoc, Real.sqrt_mul' _ (by positivity), Real.sqrt_mul_self h2.le]
  simp only [Encl.Holds, Encl.sqrt]
  rw [e]
  push_cast
  constructor
  · refine (isqrt_le_sqrt _).trans ?_
    rcases le_total 0 (x * 2 ^ p) with h | h
    · refine Real.sqrt_le_sqrt ?_
      push_cast
      have := toNat_cast_le ha.1
      rw [max_eq_left h] at this
      exact mul_le_mul_of_nonneg_right this h2.le
    · have : a.lo.toNat = 0 := Int.toNat_of_nonpos (by exact_mod_cast ha.1.trans h)
      simp [this]
  · refine le_trans (Real.sqrt_le_sqrt ?_) (sqrt_le_isqrt _)
    push_cast
    exact mul_le_mul_of_nonneg_right (ha.2.trans (le_toNat_cast _)) h2.le

theorem holds_frac (ha : a.Holds p x) : (a.frac p).Holds p (Int.fract x) := by
  have h2 : (0 : ℝ) < 2 ^ p := by positivity
  have hi2 : (0 : Int) < 2 ^ p := by positivity
  unfold Encl.frac
  split_ifs with h
  · have lo1 := Int.ediv_mul_le a.lo hi2.ne'
    have hi1 : a.hi < (a.hi / 2 ^ p + 1) * 2 ^ p := Int.lt_ediv_add_one_mul_self a.hi hi2
    have hf : ⌊x⌋ = a.lo / 2 ^ p := by
      rw [Int.floor_eq_iff]
      constructor
      · refine le_of_mul_le_mul_right (le_trans ?_ ha.1) h2
        exact_mod_cast lo1
      · refine lt_of_mul_lt_mul_right (lt_of_le_of_lt ha.2 ?_) h2.le
        rw [h]
        exact_mod_cast hi1
    have e : Int.fract x * 2 ^ p = x * 2 ^ p - ((a.lo / 2 ^ p * 2 ^ p : Int) : ℝ) := by
      rw [Int.fract, hf]; push_cast; ring
    unfold Encl.Holds
    rw [e]
    push_cast
    constructor <;> linarith [ha.1, ha.2]
  · unfold Encl.Holds
    push_cast
    refine ⟨mul_nonneg (Int.fract_nonneg x) h2.le, ?_⟩
    have := mul_le_mul_of_nonneg_right (Int.fract_lt_one x).le h2.le
    linarith

/-! Exponential, sine and cosine -/

theorem abs_le_mag (ha : a.Holds p x) : |x| * 2 ^ p ≤ (a.mag : ℝ) := by
  have h2 : (0 : ℝ) < 2 ^ p := by positivity
  have e : |x| * 2 ^ p = |x * 2 ^ p| := by rw [abs_mul, abs_of_pos h2]
  have hl : (a.lo : ℝ) ≥ -((a.mag : Nat) : ℝ) := by
    have : -(a.mag : Int) ≤ a.lo := by unfold Encl.mag; omega
    exact_mod_cast this
  have hh : (a.hi : ℝ) ≤ ((a.mag : Nat) : ℝ) := by
    have : a.hi ≤ (a.mag : Int) := by unfold Encl.mag; omega
    exact_mod_cast this
  rw [e, abs_le]
  constructor <;> linarith [ha.1, ha.2]

theorem abs_le_of_mag {j : Nat} (ha : a.Holds p x) (h : a.mag * 2 ^ j ≤ 2 ^ p) : |x| ≤ (1 / 2) ^ j := by
  have h2 : (0 : ℝ) < 2 ^ p := by positivity
  have hj : (0 : ℝ) < 2 ^ j := by positivity
  have h' : (a.mag : ℝ) * 2 ^ j ≤ 2 ^ p := by exact_mod_cast h
  have := mul_le_mul_of_nonneg_right (abs_le_mag ha) hj.le
  rw [one_div, inv_pow, ← one_div, le_div_iff₀ hj]
  refine le_of_mul_le_mul_right (a := (2 : ℝ) ^ p) ?_ h2
  nlinarith

/-- The real number `Encl.expHorner` encloses. -/
noncomputable def hornerExp {𝕜 : Type} [DivisionRing 𝕜] (y : 𝕜) : Nat → Nat → 𝕜
  | 0, _ => 1
  | n + 1, i => 1 + y * hornerExp y n (i + 1) / ((i + 1 : Nat) : 𝕜)

theorem hornerExp_eq {𝕜 : Type} [Field 𝕜] [CharZero 𝕜] (y : 𝕜) (n i : Nat) :
    hornerExp y n i = ∑ m ∈ Finset.range (n + 1), y ^ m * (i.factorial : 𝕜) / ((i + m).factorial : 𝕜) := by
  induction n generalizing i with
  | zero => simp [hornerExp, div_self (Nat.cast_ne_zero.mpr i.factorial_ne_zero : (i.factorial : 𝕜) ≠ 0)]
  | succ n ih =>
    rw [hornerExp, ih, Finset.sum_range_succ' _ (n + 1), add_comm]
    congr 1
    · rw [Finset.mul_sum, Finset.sum_div]
      refine Finset.sum_congr rfl fun m _ => ?_
      have e : i + 1 + m = i + (m + 1) := by omega
      have h1 : ((i + 1 : Nat) : 𝕜) ≠ 0 := Nat.cast_ne_zero.mpr (by omega)
      rw [e, Nat.factorial_succ i]
      push_cast at h1 ⊢
      field_simp
      ring
    · simp [div_self (Nat.cast_ne_zero.mpr i.factorial_ne_zero : (i.factorial : 𝕜) ≠ 0)]

theorem hornerExp_zero {𝕜 : Type} [Field 𝕜] [CharZero 𝕜] (y : 𝕜) (n : Nat) :
    hornerExp y n 0 = ∑ m ∈ Finset.range (n + 1), y ^ m / (m.factorial : 𝕜) := by
  simp [hornerExp_eq]

theorem remainder_le {r : ℝ} (h0 : 0 ≤ r) (h : r ≤ (1 / 2) ^ 8) (p : Nat) :
    r ^ (p / 8 + 1) * (((p / 8 + 1).succ : ℝ) * (((p / 8 + 1).factorial : ℝ) * ((p / 8 + 1 : Nat) : ℝ))⁻¹) ≤ 2 / 2 ^ p := by
  have hN : 0 < p / 8 + 1 := Nat.succ_pos _
  have hp : p ≤ 8 * (p / 8 + 1) := by omega
  generalize p / 8 + 1 = N at *
  have h1 : r ^ N ≤ 1 / 2 ^ p := by
    calc r ^ N ≤ ((1 / 2) ^ 8) ^ N := pow_le_pow_left₀ h0 h N
      _ = (1 / 2) ^ (8 * N) := by rw [← pow_mul]
      _ ≤ (1 / 2) ^ p := pow_le_pow_of_le_one (by norm_num) (by norm_num) hp
      _ = 1 / 2 ^ p := by rw [one_div, one_div, inv_pow]
  have hNr : (1 : ℝ) ≤ N := by exact_mod_cast hN
  have hf : (1 : ℝ) ≤ N.factorial := by exact_mod_cast N.factorial_pos
  have h2 : (N.succ : ℝ) * ((N.factorial : ℝ) * (N : ℝ))⁻¹ ≤ 2 := by
    rw [← div_eq_mul_inv, div_le_iff₀ (by positivity)]
    push_cast
    nlinarith
  calc r ^ N * ((N.succ : ℝ) * ((N.factorial : ℝ) * (N : ℝ))⁻¹) ≤ 1 / 2 ^ p * 2 :=
        mul_le_mul h1 h2 (by positivity) (by positivity)
    _ = 2 / 2 ^ p := by ring

theorem holds_expHorner (ha : a.Holds p x) (n i : Nat) : (Encl.expHorner p a n i).Holds p (hornerExp x n i) := by
  induction n generalizing i with
  | zero => exact holds_one p
  | succ n ih => exact holds_add (holds_one p) (holds_divNat (Nat.succ_pos i) (holds_mul ha (ih (i + 1))))

theorem holds_squareN (n : Nat) : ∀ {a : Encl} {x : ℝ}, a.Holds p x → (Encl.squareN p n a).Holds p (x ^ 2 ^ n) := by
  induction n with
  | zero => intro a x h; simpa [Encl.squareN] using h
  | succ n ih =>
    intro a x h
    have := ih (holds_mul h h)
    rwa [← sq, ← pow_mul, ← pow_succ'] at this

theorem holds_exp {r : Encl} (ha : a.Holds p x) (h : a.exp p = some r) : r.Holds p (Real.exp x) := by
  simp only [Encl.exp] at h
  split_ifs at h with hm
  cases h
  have hy := holds_divNat (n := 2 ^ a.halvings p) (by positivity) ha
  have hb := abs_le_of_mag hy hm
  generalize a.halvings p = k at *
  have h1 : |x / ((2 ^ k : Nat) : ℝ)| ≤ 1 := hb.trans (by norm_num)
  have hT := holds_widen (n := 2) (z := Real.exp (x / ((2 ^ k : Nat) : ℝ))) (holds_expHorner hy (p / 8) 0) (by
    rw [hornerExp_zero]
    refine (Real.exp_bound h1 (Nat.succ_pos (p / 8))).trans ?_
    have := remainder_le (abs_nonneg _) hb p
    rw [← div_eq_mul_inv] at this
    exact this.trans_eq (by norm_num))
  have := holds_squareN k hT
  rw [← Real.exp_nat_mul] at this
  convert this using 2
  push_cast
  field_simp

theorem cisHorner_holds (ha : a.Holds p x) (n i : Nat) :
    (Encl.cisHorner p a n i).1.Holds p (hornerExp (Complex.I * x) n i).re ∧
    (Encl.cisHorner p a n i).2.Holds p (hornerExp (Complex.I * x) n i).im := by
  induction n generalizing i with
  | zero => exact ⟨by simpa [hornerExp, Encl.cisHorner] using holds_one p, by simp [hornerExp, Encl.cisHorner, Encl.Holds]⟩
  | succ n ih =>
    obtain ⟨h1, h2⟩ := ih (i + 1)
    have e : hornerExp (Complex.I * x) (n + 1) i =
        1 + Complex.I * x * hornerExp (Complex.I * x) n (i + 1) / ((i + 1 : Nat) : ℂ) := rfl
    generalize hornerExp (Complex.I * (x : ℂ)) n (i + 1) = z at *
    have re : (hornerExp (Complex.I * x) (n + 1) i).re = 1 - x * z.im / ((i + 1 : Nat) : ℝ) := by
      rw [e, Complex.add_re, Complex.div_natCast_re]; simp; ring
    have im : (hornerExp (Complex.I * x) (n + 1) i).im = x * z.re / ((i + 1 : Nat) : ℝ) := by
      rw [e, Complex.add_im, Complex.div_natCast_im]; simp
    rw [re, im]
    exact ⟨holds_sub (holds_one p) (holds_divNat (Nat.succ_pos i) (holds_mul ha h2)),
      holds_divNat (Nat.succ_pos i) (holds_mul ha h1)⟩

theorem holds_doubleN (n : Nat) : ∀ {c s : Encl} {t : ℝ}, c.Holds p (Real.cos t) → s.Holds p (Real.sin t) →
    (Encl.doubleN p n (c, s)).1.Holds p (Real.cos (2 ^ n * t)) ∧
    (Encl.doubleN p n (c, s)).2.Holds p (Real.sin (2 ^ n * t)) := by
  induction n with
  | zero => intro c s t hc hs; simpa [Encl.doubleN] using ⟨hc, hs⟩
  | succ n ih =>
    intro c s t hc hs
    have h1 := holds_sub (holds_mul hc hc) (holds_mul hs hs)
    have h2 := holds_add (holds_mul hc hs) (holds_mul hc hs)
    rw [← sq, ← sq, ← Real.cos_two_mul'] at h1
    rw [show Real.cos t * Real.sin t + Real.cos t * Real.sin t = Real.sin (2 * t) by rw [Real.sin_two_mul]; ring] at h2
    have := ih h1 h2
    rwa [← mul_assoc, ← pow_succ] at this

theorem holds_unit (ha : a.Holds p x) (h : |x| ≤ 1) :
    (Encl.mk (Max.max a.lo (-2 ^ p)) (Min.min a.hi (2 ^ p))).Holds p x := by
  have h2 : (0 : ℝ) < 2 ^ p := by positivity
  obtain ⟨h3, h4⟩ := abs_le.mp h
  unfold Encl.Holds
  push_cast
  exact ⟨max_le ha.1 (by nlinarith), le_min ha.2 (by nlinarith)⟩

theorem holds_cis {r : Encl × Encl} (ha : a.Holds p x) (h : a.cis p = some r) :
    r.1.Holds p (Real.cos x) ∧ r.2.Holds p (Real.sin x) := by
  simp only [Encl.cis] at h
  split_ifs at h with hm
  cases h
  have hy := holds_divNat (n := 2 ^ a.halvings p) (by positivity) ha
  have hb := abs_le_of_mag hy hm
  generalize a.halvings p = k at *
  set y := x / ((2 ^ k : Nat) : ℝ) with hyd
  have h1 : ‖Complex.I * (y : ℂ)‖ ≤ 1 := by simp; exact hb.trans (by norm_num)
  have hc := cisHorner_holds hy (p / 8) 0
  have hrem : ‖Complex.exp (Complex.I * (y : ℂ)) - hornerExp (Complex.I * (y : ℂ)) (p / 8) 0‖ ≤ 2 / 2 ^ p := by
    rw [hornerExp_zero]
    refine (Complex.exp_bound h1 (Nat.succ_pos (p / 8))).trans ?_
    have e : ‖Complex.I * (y : ℂ)‖ = |y| := by simp
    rw [e]
    exact_mod_cast remainder_le (abs_nonneg _) hb p
  have hexp : Complex.exp (Complex.I * (y : ℂ)) = ((Real.cos y : ℝ) : ℂ) + ((Real.sin y : ℝ) : ℂ) * Complex.I := by
    rw [mul_comm, Complex.exp_mul_I]; push_cast; rfl
  have hcos := holds_widen (n := 2) (z := Real.cos y) hc.1 (by
    have := (Complex.abs_re_le_norm _).trans hrem
    rw [hexp] at this
    simpa [-Complex.ofReal_cos, -Complex.ofReal_sin] using this)
  have hsin := holds_widen (n := 2) (z := Real.sin y) hc.2 (by
    have := (Complex.abs_im_le_norm _).trans hrem
    rw [hexp] at this
    simpa [-Complex.ofReal_cos, -Complex.ofReal_sin] using this)
  have e2 : (2 : ℝ) ^ k * y = x := by rw [hyd]; push_cast; field_simp
  have := holds_doubleN k hcos hsin
  rw [e2] at this
  exact ⟨holds_unit this.1 (Real.abs_cos_le_one x), holds_unit this.2 (Real.abs_sin_le_one x)⟩

/-! Arctangent and pi -/

theorem holds_zero_step : (Encl.mk 0 0).Holds p 0 := by simp [Encl.Holds]

/-- The real number `Encl.atanHorner` encloses. -/
noncomputable def hornerAtan (z : ℝ) : Nat → Nat → ℝ
  | 0, i => 1 / ((2 * i + 1 : Nat) : ℝ)
  | n + 1, i => 1 / ((2 * i + 1 : Nat) : ℝ) - z * hornerAtan z n (i + 1)

theorem hornerAtan_eq (z : ℝ) (n i : Nat) :
    hornerAtan z n i = ∑ m ∈ Finset.range (n + 1), (-z) ^ m / ((2 * (i + m) + 1 : Nat) : ℝ) := by
  induction n generalizing i with
  | zero => simp [hornerAtan]
  | succ n ih =>
    rw [hornerAtan, ih, Finset.sum_range_succ' _ (n + 1), add_comm, sub_eq_neg_add]
    congr 1
    · rw [← neg_mul, Finset.mul_sum]
      refine Finset.sum_congr rfl fun m _ => ?_
      rw [pow_succ', show i + 1 + m = i + (m + 1) by omega, mul_div_assoc]
    · simp
      ring

theorem holds_atanHorner (ha : a.Holds p x) (n i : Nat) : (Encl.atanHorner p a n i).Holds p (hornerAtan x n i) := by
  induction n generalizing i with
  | zero => exact holds_divNat (Nat.succ_pos _) (holds_one p)
  | succ n ih => exact holds_sub (holds_divNat (Nat.succ_pos _) (holds_one p)) (holds_mul ha (ih (i + 1)))

theorem arctan_remainder (h : |x| ≤ (1 / 2) ^ 2) :
    |Real.arctan x - x * hornerAtan (x * x) (p / 4) 0| ≤ (1 : Int) / 2 ^ p := by
  have hx1 : ‖x‖ < 1 := by rw [Real.norm_eq_abs]; exact lt_of_le_of_lt h (by norm_num)
  have hs := Real.hasSum_arctan hx1
  have hxx : x * x ≤ (1 / 16 : ℝ) := by
    have := mul_le_mul h h (abs_nonneg x) (by positivity)
    rw [← abs_mul, abs_of_nonneg (mul_self_nonneg x)] at this
    norm_num at this ⊢
    exact this
  have hr1 : x * x < 1 := lt_of_le_of_lt hxx (by norm_num)
  have key := norm_sub_le_of_geometric_bound_of_hasSum (C := |x|) (r := x * x) hr1 (fun n => by
    rw [Real.norm_eq_abs, abs_div, abs_mul, abs_pow, abs_neg, abs_one, one_pow, one_mul, abs_pow]
    have e : |x| ^ (2 * n + 1) = |x| * (x * x) ^ n := by
      rw [pow_succ', pow_mul, sq_abs, sq]
    rw [e]
    refine div_le_self (mul_nonneg (abs_nonneg x) (pow_nonneg (mul_self_nonneg x) n)) ?_
    rw [abs_of_nonneg (by positivity)]
    push_cast
    have : (0 : ℝ) ≤ n := by positivity
    linarith) hs (p / 4 + 1)
  have e : x * hornerAtan (x * x) (p / 4) 0 =
      ∑ m ∈ Finset.range (p / 4 + 1), (-1) ^ m * x ^ (2 * m + 1) / ((2 * m + 1 : Nat) : ℝ) := by
    rw [hornerAtan_eq, Finset.mul_sum]
    refine Finset.sum_congr rfl fun m _ => ?_
    rw [zero_add, neg_pow, ← sq, ← pow_mul, pow_succ']
    ring
  rw [e, abs_sub_comm, ← Real.norm_eq_abs]
  refine key.trans ?_
  have hN : p ≤ 4 * (p / 4 + 1) := by omega
  generalize p / 4 + 1 = N at *
  have h1 : (x * x) ^ N ≤ 1 / 2 ^ p := by
    calc (x * x) ^ N ≤ (1 / 16 : ℝ) ^ N := pow_le_pow_left₀ (mul_self_nonneg x) hxx N
      _ = (1 / 2) ^ (4 * N) := by rw [pow_mul]; norm_num
      _ ≤ (1 / 2) ^ p := pow_le_pow_of_le_one (by norm_num) (by norm_num) hN
      _ = 1 / 2 ^ p := by rw [one_div, one_div, inv_pow]
  have h4 : |x| ≤ 1 / 4 := h.trans (by norm_num)
  have h3 : |x| / (1 - x * x) ≤ 1 := by
    rw [div_le_one (by linarith)]
    linarith
  calc |x| * (x * x) ^ N / (1 - x * x) = (x * x) ^ N * (|x| / (1 - x * x)) := by ring
    _ ≤ 1 / 2 ^ p * 1 := mul_le_mul h1 h3 (div_nonneg (abs_nonneg x) (by linarith)) (by positivity)
    _ = ((1 : Int) : ℝ) / 2 ^ p := by simp

theorem holds_atanSmall {r : Encl} (ha : a.Holds p x) (h : a.atanSmall p = some r) : r.Holds p (Real.arctan x) := by
  simp only [Encl.atanSmall] at h
  split_ifs at h with hm
  cases h
  exact holds_widen (holds_mul ha (holds_atanHorner (holds_mul ha ha) (p / 4) 0))
    (arctan_remainder (abs_le_of_mag ha hm))

theorem arctan_half (t : ℝ) : Real.arctan t = 2 * Real.arctan (t / (1 + Real.sqrt (1 + t * t))) := by
  have hpos : (0 : ℝ) < 1 + t * t := by nlinarith [mul_self_nonneg t]
  set w := Real.sqrt (1 + t * t) with hw
  have hw2 : w * w = 1 + t * t := Real.mul_self_sqrt hpos.le
  have hw0 : 0 < w := Real.sqrt_pos.mpr hpos
  have hlt : |t| < 1 + w := by
    have : |t| ≤ w := Real.abs_le_sqrt (by nlinarith)
    linarith
  have hd : 0 < 1 + w := by linarith
  have hu : |t / (1 + w)| < 1 := by rw [abs_div, abs_of_pos hd, div_lt_one hd]; exact hlt
  obtain ⟨h1, h2⟩ := abs_lt.mp hu
  rw [Real.two_mul_arctan h1 h2]
  congr 1
  have hne : (1 + w) ^ 2 - t ^ 2 ≠ 0 := by
    have : (1 + w) ^ 2 - t ^ 2 = 2 + 2 * w := by nlinarith
    rw [this]; positivity
  have e : 1 - (t / (1 + w)) ^ 2 = ((1 + w) ^ 2 - t ^ 2) / (1 + w) ^ 2 := by field_simp
  rw [e]
  field_simp
  linear_combination t * hw2

theorem holds_halfAngle {r : Encl} (ha : a.Holds p x) (h : a.halfAngle p = some r) :
    r.Holds p (x / (1 + Real.sqrt (1 + x * x))) :=
  holds_div ha (holds_add (holds_one p) (holds_sqrt (holds_add (holds_one p) (holds_mul ha ha)))) h

theorem holds_scale (n : Int) (hn : 0 ≤ n) (ha : a.Holds p x) : (Encl.mk (n * a.lo) (n * a.hi)).Holds p (n * x) := by
  have : (0 : ℝ) ≤ (n : ℝ) := by exact_mod_cast hn
  unfold Encl.Holds
  push_cast
  rw [mul_assoc]
  exact ⟨mul_le_mul_of_nonneg_left ha.1 this, mul_le_mul_of_nonneg_left ha.2 this⟩

theorem holds_arctan {r : Encl} (ha : a.Holds p x) (h : a.arctan p = some r) : r.Holds p (Real.arctan x) := by
  simp only [Encl.arctan, Option.bind_eq_bind, Option.bind_eq_some_iff, Option.pure_def, Option.some.injEq] at h
  obtain ⟨t1, h1, t2, h2, t3, h3, s, hs, rfl⟩ := h
  have k1 := holds_halfAngle ha h1
  have k2 := holds_halfAngle k1 h2
  have k3 := holds_halfAngle k2 h3
  have := holds_scale 8 (by norm_num) (holds_atanSmall k3 hs)
  rw [arctan_half x, arctan_half (x / _), arctan_half (_ / (1 + Real.sqrt (1 + _ / _ * (_ / _))))]
  convert this using 1
  push_cast
  ring

theorem holds_pi {r : Encl} (h : Encl.pi p = some r) : r.Holds p Real.pi := by
  simp only [Encl.pi, Option.bind_eq_bind, Option.bind_eq_some_iff, Option.pure_def, Option.some.injEq] at h
  obtain ⟨a, ha, b, hb, rfl⟩ := h
  have k1 := holds_atanSmall (holds_ofRat p (1 / 5)) ha
  have k2 := holds_atanSmall (holds_ofRat p (1 / 239)) hb
  have := holds_sub (holds_scale 16 (by norm_num) k1) (holds_scale 4 (by norm_num) k2)
  have m := Real.four_mul_arctan_inv_5_sub_arctan_inv_239
  convert this using 1
  push_cast
  rw [one_div, one_div]
  linarith

theorem realAtan2_of_pos (hy : 0 < y) : realAtan2 y x = Real.pi / 2 - Real.arctan (x / y) := by
  unfold realAtan2
  rcases lt_trichotomy x 0 with hx | hx | hx
  · rw [if_neg (not_lt.mpr hx.le), if_pos hx, if_pos hy.le]
    have : Real.arctan (x / y) = -(Real.pi / 2) - Real.arctan (y / x) := by
      rw [← inv_div y x]; exact Real.arctan_inv_of_neg (div_neg_of_pos_of_neg hy hx)
    rw [this]; ring
  · subst hx; simp [hy]
  · rw [if_pos hx]
    have : Real.arctan (x / y) = Real.pi / 2 - Real.arctan (y / x) := by
      rw [← inv_div y x]; exact Real.arctan_inv_of_pos (div_pos hy hx)
    rw [this]; ring

theorem realAtan2_of_neg (hy : y < 0) : realAtan2 y x = -(Real.pi / 2) - Real.arctan (x / y) := by
  unfold realAtan2
  rcases lt_trichotomy x 0 with hx | hx | hx
  · rw [if_neg (not_lt.mpr hx.le), if_pos hx, if_neg (not_le.mpr hy)]
    have : Real.arctan (x / y) = Real.pi / 2 - Real.arctan (y / x) := by
      rw [← inv_div y x]; exact Real.arctan_inv_of_pos (div_pos_of_neg_of_neg hy hx)
    rw [this]; ring
  · subst hx; simp [hy, not_lt.mpr hy.le]
  · rw [if_pos hx]
    have : Real.arctan (x / y) = -(Real.pi / 2) - Real.arctan (y / x) := by
      rw [← inv_div y x]; exact Real.arctan_inv_of_neg (div_neg_of_neg_of_pos hy hx)
    rw [this]; ring

theorem pos_of_lo (ha : a.Holds p x) (h : 0 < a.lo) : 0 < x := by
  have h2 : (0 : ℝ) < 2 ^ p := by positivity
  have : (0 : ℝ) < (a.lo : ℝ) := by exact_mod_cast h
  exact pos_of_mul_pos_left (this.trans_le ha.1) h2.le

theorem neg_of_hi (ha : a.Holds p x) (h : a.hi < 0) : x < 0 := by
  have := pos_of_lo (holds_neg ha) (by simp only [Encl.neg]; omega)
  linarith

theorem zero_of_bounds (ha : a.Holds p x) (h1 : a.lo = 0) (h2 : a.hi = 0) : x = 0 := by
  have h : (0 : ℝ) < 2 ^ p := by positivity
  have k : x * 2 ^ p = 0 := le_antisymm (by simpa [h2] using ha.2) (by simpa [h1] using ha.1)
  exact (mul_eq_zero.mp k).resolve_right h.ne'

theorem holds_atan2 {r : Encl} (hy : a.Holds p y) (hx : b.Holds p x) (h : Encl.atan2 p a b = some r) :
    r.Holds p (realAtan2 y x) := by
  unfold Encl.atan2 at h
  split_ifs at h with h1 h2 h3 h4
  · simp only [Option.bind_eq_bind, Option.bind_eq_some_iff] at h
    obtain ⟨q, hq, h⟩ := h
    have hp := pos_of_lo hx h1
    have := holds_arctan (holds_div hy hx hq) h
    unfold realAtan2
    rwa [if_pos hp]
  · simp only [Option.bind_eq_bind, Option.bind_eq_some_iff, Option.pure_def, Option.some.injEq] at h
    obtain ⟨c, hc, q, hq, t, ht, rfl⟩ := h
    have hpi : (c.divNat 2).Holds p (Real.pi / 2) := by exact_mod_cast holds_divNat (n := 2) (by norm_num) (holds_pi hc)
    rw [realAtan2_of_pos (pos_of_lo hy h2)]
    exact holds_sub hpi (holds_arctan (holds_div hx hy hq) ht)
  · simp only [Option.bind_eq_bind, Option.bind_eq_some_iff, Option.pure_def, Option.some.injEq] at h
    obtain ⟨c, hc, q, hq, t, ht, rfl⟩ := h
    have hpi : (c.divNat 2).Holds p (Real.pi / 2) := by exact_mod_cast holds_divNat (n := 2) (by norm_num) (holds_pi hc)
    rw [realAtan2_of_neg (neg_of_hi hy h3)]
    exact holds_sub (holds_neg hpi) (holds_arctan (holds_div hx hy hq) ht)
  · have hxn := neg_of_hi hx h4.1
    have hy0 := zero_of_bounds hy h4.2.1 h4.2.2
    subst hy0
    have := holds_pi h
    simpa [realAtan2, hxn, not_lt.mpr hxn.le] using this

theorem holds_mono {q : ℚ} {k : ℤ} {r : Encl} (h : Encl.mono p q k = some r) : r.Holds p ((q : ℝ) * Real.pi ^ k) := by
  unfold Encl.mono at h
  split at h
  · cases h; simpa using holds_ofRat p q
  · simp only [Option.map_eq_some_iff] at h
    obtain ⟨c, hc, rfl⟩ := h
    exact_mod_cast holds_mul (holds_ofRat p q) (holds_pow (holds_pi hc) _)
  · next n =>
    simp only [Option.bind_eq_some_iff] at h
    obtain ⟨c, hc, h⟩ := h
    have := holds_div (holds_ofRat p q) (holds_pow (holds_pi hc) (n + 1)) h
    rwa [zpow_negSucc, ← div_eq_mul_inv]

end

/-- The enclosure of a number holds its exact value. -/
theorem enclose_sound (p : Nat) (a : Num) (e : Encl) (h : enclose p a = some e) : e.Holds p a.toReal := by
  induction a generalizing e with
  | mono q k => exact holds_mono h
  | held n m => cases h; exact holds_ofRat p _
  | built n m => cases h; exact holds_ofRat p _
  | add a b iha ihb =>
    simp only [enclose, Option.bind_eq_some_iff, Option.map_eq_some_iff] at h
    obtain ⟨x, hx, y, hy, rfl⟩ := h
    exact holds_add (iha x hx) (ihb y hy)
  | sub a b iha ihb =>
    simp only [enclose, Option.bind_eq_some_iff, Option.map_eq_some_iff] at h
    obtain ⟨x, hx, y, hy, rfl⟩ := h
    exact holds_sub (iha x hx) (ihb y hy)
  | mul a b iha ihb =>
    simp only [enclose, Option.bind_eq_some_iff, Option.map_eq_some_iff] at h
    obtain ⟨x, hx, y, hy, rfl⟩ := h
    exact holds_mul (iha x hx) (ihb y hy)
  | div a b iha ihb =>
    simp only [enclose, Option.bind_eq_some_iff] at h
    obtain ⟨x, hx, y, hy, h⟩ := h
    exact holds_div (iha x hx) (ihb y hy) h
  | sqrt a iha =>
    simp only [enclose, Option.map_eq_some_iff] at h
    obtain ⟨x, hx, rfl⟩ := h
    exact holds_sqrt (iha x hx)
  | sin a iha =>
    simp only [enclose, Option.bind_eq_some_iff, Option.map_eq_some_iff] at h
    obtain ⟨x, hx, r, hr, rfl⟩ := h
    exact (holds_cis (iha x hx) hr).2
  | cos a iha =>
    simp only [enclose, Option.bind_eq_some_iff, Option.map_eq_some_iff] at h
    obtain ⟨x, hx, r, hr, rfl⟩ := h
    exact (holds_cis (iha x hx) hr).1
  | exp a iha =>
    simp only [enclose, Option.bind_eq_some_iff] at h
    obtain ⟨x, hx, h⟩ := h
    exact holds_exp (iha x hx) h
  | atan2 y x ihy ihx =>
    simp only [enclose, Option.bind_eq_some_iff] at h
    obtain ⟨v, hv, u, hu, h⟩ := h
    exact holds_atan2 (ihy v hv) (ihx u hu) h
  | frac a iha =>
    simp only [enclose, Option.map_eq_some_iff] at h
    obtain ⟨x, hx, rfl⟩ := h
    exact holds_frac (iha x hx)
  | abs a iha =>
    simp only [enclose, Option.map_eq_some_iff] at h
    obtain ⟨x, hx, rfl⟩ := h
    exact holds_abs (iha x hx)
  | max a b iha ihb =>
    simp only [enclose, Option.bind_eq_some_iff, Option.map_eq_some_iff] at h
    obtain ⟨x, hx, y, hy, rfl⟩ := h
    exact holds_max (iha x hx) (ihb y hy)
  | min a b iha ihb =>
    simp only [enclose, Option.bind_eq_some_iff, Option.map_eq_some_iff] at h
    obtain ⟨x, hx, y, hy, rfl⟩ := h
    exact holds_min (iha x hx) (ihb y hy)

/-- A sign read off an enclosure is the sign of the exact value. -/
theorem signAt_sound (p : Nat) (a : Num) (σ : SignType) (h : signAt p a = some σ) : σ = SignType.sign a.toReal := by
  unfold signAt at h
  split at h
  next e he =>
    have hs := enclose_sound p a e he
    split_ifs at h with h1 h2 h3
    · cases h; rw [sign_pos (pos_of_lo hs h1)]; rfl
    · cases h; rw [sign_neg (neg_of_hi hs h2)]; rfl
    · cases h; rw [zero_of_bounds hs h3.1 h3.2, sign_zero]; rfl
  next => cases h

theorem ratSign_eq (q : ℚ) : ratSign q = SignType.sign (q : ℝ) := by
  unfold ratSign
  split_ifs with h1 h2
  · rw [sign_pos (by exact_mod_cast h1)]; rfl
  · rw [sign_neg (by exact_mod_cast h2)]; rfl
  · have : q = 0 := le_antisymm (not_lt.mp h1) (not_lt.mp h2)
    subst this; simp

/-- `signOf` is the exact sign of every number (log 3). -/
theorem signOf_eq (a : Num) : signOf a = SignType.sign a.toReal := by
  unfold signOf
  split
  · next q k =>
    rw [ratSign_eq, Num.toReal]
    have : (0 : ℝ) < Real.pi ^ k := zpow_pos Real.pi_pos k
    rcases lt_trichotomy (q : ℝ) 0 with hq | hq | hq
    · rw [sign_neg hq, sign_neg (mul_neg_of_neg_of_pos hq this)]
    · simp [hq]
    · rw [sign_pos hq, sign_pos (mul_pos hq this)]
  · exact ratSign_eq _
  · exact ratSign_eq _
  · split
    · next σ hσ => exact signAt_sound _ _ _ hσ
    · split
      · next σ hσ => exact signAt_sound _ _ _ hσ
      · exact (undecidedSign a fine).2

/-- The comparisons the machine makes are those of exact values (log 3 lists where it makes them). -/
theorem isPos_iff (a : Num) : isPos a = true ↔ 0 < a.toReal := by
  rw [isPos, signOf_eq, beq_iff_eq]
  exact sign_eq_one_iff

theorem isNeg_iff (a : Num) : isNeg a = true ↔ a.toReal < 0 := by
  rw [isNeg, signOf_eq, beq_iff_eq]
  exact sign_eq_neg_one_iff

theorem isZero_iff (a : Num) : isZero a = true ↔ a.toReal = 0 := by
  rw [isZero, signOf_eq, beq_iff_eq]
  exact sign_eq_zero_iff

theorem isGreater_iff (a b : Num) : isGreater a b = true ↔ b.toReal < a.toReal := by
  rw [isGreater, isPos_iff, exact_toReal_sub, sub_pos]

end Sys2Proof.Machine
end

