-- ==== Sys2Proof/Laws/State.lean ====
section
/-! SUPPORT. The state after each named update, field by field: no later proof unfolds a record update. -/

namespace Sys2Proof.Machine

section
variable (s : State)

/-! `complete` -/

@[simp] theorem complete_cfg : (s.complete).cfg = s.cfg := rfl
@[simp] theorem complete_A : (s.complete).A = s.A := rfl
@[simp] theorem complete_P : (s.complete).P = s.P := rfl
@[simp] theorem complete_RV : (s.complete).RV = s.RV := rfl
@[simp] theorem complete_RI : (s.complete).RI = s.RI := rfl
@[simp] theorem complete_rfFound : (s.complete).rfFound = s.rfFound := rfl
@[simp] theorem complete_fault : (s.complete).fault = s.fault := rfl
@[simp] theorem complete_busy : (s.complete).busy = false := rfl
@[simp] theorem complete_done : (s.complete).done = true := rfl
@[simp] theorem complete_fovf : (s.complete).fovf = s.fovf := rfl
@[simp] theorem complete_cause : (s.complete).cause = s.cause := rfl
@[simp] theorem complete_fie : (s.complete).fie = s.fie := rfl
@[simp] theorem complete_die : (s.complete).die = s.die := rfl
@[simp] theorem complete_fcmd : (s.complete).fcmd = s.fcmd := rfl
@[simp] theorem complete_faddr : (s.complete).faddr = s.faddr := rfl
@[simp] theorem complete_pending : (s.complete).pending = s.pending := rfl
@[simp] theorem complete_fir : (s.complete).fir = s.fir := rfl
@[simp] theorem complete_shf : (s.complete).shf = s.shf := rfl
@[simp] theorem complete_rds : (s.complete).rds = s.rds := rfl
@[simp] theorem complete_cds : (s.complete).cds = s.cds := rfl
@[simp] theorem complete_fmd : (s.complete).fmd = s.fmd := rfl
@[simp] theorem complete_amd : (s.complete).amd = s.amd := rfl
@[simp] theorem complete_ssb : (s.complete).ssb = s.ssb := rfl
@[simp] theorem complete_sts : (s.complete).sts = s.sts := rfl
@[simp] theorem complete_dem : (s.complete).dem = s.dem := rfl
@[simp] theorem complete_agc : (s.complete).agc = s.agc := rfl
@[simp] theorem complete_dcb : (s.complete).dcb = s.dcb := rfl
@[simp] theorem complete_sm : (s.complete).sm = s.sm := rfl
@[simp] theorem complete_epoch : (s.complete).epoch = s.epoch := rfl
@[simp] theorem complete_events : (s.complete).events = s.events := rfl
@[simp] theorem complete_rdata : (s.complete).rdata = s.rdata := rfl

/-! `memWrite` -/

@[simp] theorem memWrite_cfg (a : Nat) (vs : List Num) : (s.memWrite a vs).cfg = s.cfg := rfl
@[simp] theorem memWrite_A (a : Nat) (vs : List Num) : (s.memWrite a vs).A = s.A := rfl
@[simp] theorem memWrite_P (a : Nat) (vs : List Num) : (s.memWrite a vs).P = s.P := rfl
@[simp] theorem memWrite_RV (a : Nat) (vs : List Num) : (s.memWrite a vs).RV = s.RV := rfl
@[simp] theorem memWrite_RI (a : Nat) (vs : List Num) : (s.memWrite a vs).RI = s.RI := rfl
@[simp] theorem memWrite_rfFound (a : Nat) (vs : List Num) : (s.memWrite a vs).rfFound = s.rfFound := rfl
@[simp] theorem memWrite_fault (a : Nat) (vs : List Num) : (s.memWrite a vs).fault = s.fault := rfl
@[simp] theorem memWrite_busy (a : Nat) (vs : List Num) : (s.memWrite a vs).busy = s.busy := rfl
@[simp] theorem memWrite_done (a : Nat) (vs : List Num) : (s.memWrite a vs).done = s.done := rfl
@[simp] theorem memWrite_fovf (a : Nat) (vs : List Num) : (s.memWrite a vs).fovf = s.fovf := rfl
@[simp] theorem memWrite_cause (a : Nat) (vs : List Num) : (s.memWrite a vs).cause = s.cause := rfl
@[simp] theorem memWrite_fie (a : Nat) (vs : List Num) : (s.memWrite a vs).fie = s.fie := rfl
@[simp] theorem memWrite_die (a : Nat) (vs : List Num) : (s.memWrite a vs).die = s.die := rfl
@[simp] theorem memWrite_fcmd (a : Nat) (vs : List Num) : (s.memWrite a vs).fcmd = s.fcmd := rfl
@[simp] theorem memWrite_faddr (a : Nat) (vs : List Num) : (s.memWrite a vs).faddr = s.faddr := rfl
@[simp] theorem memWrite_pending (a : Nat) (vs : List Num) : (s.memWrite a vs).pending = s.pending := rfl
@[simp] theorem memWrite_fir (a : Nat) (vs : List Num) : (s.memWrite a vs).fir = s.fir := rfl
@[simp] theorem memWrite_shf (a : Nat) (vs : List Num) : (s.memWrite a vs).shf = s.shf := rfl
@[simp] theorem memWrite_rds (a : Nat) (vs : List Num) : (s.memWrite a vs).rds = s.rds := rfl
@[simp] theorem memWrite_cds (a : Nat) (vs : List Num) : (s.memWrite a vs).cds = s.cds := rfl
@[simp] theorem memWrite_fmd (a : Nat) (vs : List Num) : (s.memWrite a vs).fmd = s.fmd := rfl
@[simp] theorem memWrite_amd (a : Nat) (vs : List Num) : (s.memWrite a vs).amd = s.amd := rfl
@[simp] theorem memWrite_ssb (a : Nat) (vs : List Num) : (s.memWrite a vs).ssb = s.ssb := rfl
@[simp] theorem memWrite_sts (a : Nat) (vs : List Num) : (s.memWrite a vs).sts = s.sts := rfl
@[simp] theorem memWrite_dem (a : Nat) (vs : List Num) : (s.memWrite a vs).dem = s.dem := rfl
@[simp] theorem memWrite_agc (a : Nat) (vs : List Num) : (s.memWrite a vs).agc = s.agc := rfl
@[simp] theorem memWrite_dcb (a : Nat) (vs : List Num) : (s.memWrite a vs).dcb = s.dcb := rfl
@[simp] theorem memWrite_sm (a : Nat) (vs : List Num) : (s.memWrite a vs).sm = Memory.writeBlock s.epoch s.sm a vs := rfl
@[simp] theorem memWrite_epoch (a : Nat) (vs : List Num) : (s.memWrite a vs).epoch = s.epoch := rfl
@[simp] theorem memWrite_events (a : Nat) (vs : List Num) : (s.memWrite a vs).events = s.events := rfl
@[simp] theorem memWrite_rdata (a : Nat) (vs : List Num) : (s.memWrite a vs).rdata = s.rdata := rfl

/-! `setFir` -/

@[simp] theorem setFir_cfg (u : UnitIdx) (x : FirUnit) : (s.setFir u x).cfg = s.cfg := rfl
@[simp] theorem setFir_A (u : UnitIdx) (x : FirUnit) : (s.setFir u x).A = s.A := rfl
@[simp] theorem setFir_P (u : UnitIdx) (x : FirUnit) : (s.setFir u x).P = s.P := rfl
@[simp] theorem setFir_RV (u : UnitIdx) (x : FirUnit) : (s.setFir u x).RV = s.RV := rfl
@[simp] theorem setFir_RI (u : UnitIdx) (x : FirUnit) : (s.setFir u x).RI = s.RI := rfl
@[simp] theorem setFir_rfFound (u : UnitIdx) (x : FirUnit) : (s.setFir u x).rfFound = s.rfFound := rfl
@[simp] theorem setFir_fault (u : UnitIdx) (x : FirUnit) : (s.setFir u x).fault = s.fault := rfl
@[simp] theorem setFir_busy (u : UnitIdx) (x : FirUnit) : (s.setFir u x).busy = s.busy := rfl
@[simp] theorem setFir_done (u : UnitIdx) (x : FirUnit) : (s.setFir u x).done = s.done := rfl
@[simp] theorem setFir_fovf (u : UnitIdx) (x : FirUnit) : (s.setFir u x).fovf = s.fovf := rfl
@[simp] theorem setFir_cause (u : UnitIdx) (x : FirUnit) : (s.setFir u x).cause = s.cause := rfl
@[simp] theorem setFir_fie (u : UnitIdx) (x : FirUnit) : (s.setFir u x).fie = s.fie := rfl
@[simp] theorem setFir_die (u : UnitIdx) (x : FirUnit) : (s.setFir u x).die = s.die := rfl
@[simp] theorem setFir_fcmd (u : UnitIdx) (x : FirUnit) : (s.setFir u x).fcmd = s.fcmd := rfl
@[simp] theorem setFir_faddr (u : UnitIdx) (x : FirUnit) : (s.setFir u x).faddr = s.faddr := rfl
@[simp] theorem setFir_pending (u : UnitIdx) (x : FirUnit) : (s.setFir u x).pending = s.pending := rfl
@[simp] theorem setFir_fir (u : UnitIdx) (x : FirUnit) : (s.setFir u x).fir = put s.fir u x := rfl
@[simp] theorem setFir_shf (u : UnitIdx) (x : FirUnit) : (s.setFir u x).shf = s.shf := rfl
@[simp] theorem setFir_rds (u : UnitIdx) (x : FirUnit) : (s.setFir u x).rds = s.rds := rfl
@[simp] theorem setFir_cds (u : UnitIdx) (x : FirUnit) : (s.setFir u x).cds = s.cds := rfl
@[simp] theorem setFir_fmd (u : UnitIdx) (x : FirUnit) : (s.setFir u x).fmd = s.fmd := rfl
@[simp] theorem setFir_amd (u : UnitIdx) (x : FirUnit) : (s.setFir u x).amd = s.amd := rfl
@[simp] theorem setFir_ssb (u : UnitIdx) (x : FirUnit) : (s.setFir u x).ssb = s.ssb := rfl
@[simp] theorem setFir_sts (u : UnitIdx) (x : FirUnit) : (s.setFir u x).sts = s.sts := rfl
@[simp] theorem setFir_dem (u : UnitIdx) (x : FirUnit) : (s.setFir u x).dem = s.dem := rfl
@[simp] theorem setFir_agc (u : UnitIdx) (x : FirUnit) : (s.setFir u x).agc = s.agc := rfl
@[simp] theorem setFir_dcb (u : UnitIdx) (x : FirUnit) : (s.setFir u x).dcb = s.dcb := rfl
@[simp] theorem setFir_sm (u : UnitIdx) (x : FirUnit) : (s.setFir u x).sm = s.sm := rfl
@[simp] theorem setFir_epoch (u : UnitIdx) (x : FirUnit) : (s.setFir u x).epoch = s.epoch := rfl
@[simp] theorem setFir_events (u : UnitIdx) (x : FirUnit) : (s.setFir u x).events = s.events := rfl
@[simp] theorem setFir_rdata (u : UnitIdx) (x : FirUnit) : (s.setFir u x).rdata = s.rdata := rfl

/-! `setShf` -/

@[simp] theorem setShf_cfg (u : UnitIdx) (x : ShfUnit) : (s.setShf u x).cfg = s.cfg := rfl
@[simp] theorem setShf_A (u : UnitIdx) (x : ShfUnit) : (s.setShf u x).A = s.A := rfl
@[simp] theorem setShf_P (u : UnitIdx) (x : ShfUnit) : (s.setShf u x).P = s.P := rfl
@[simp] theorem setShf_RV (u : UnitIdx) (x : ShfUnit) : (s.setShf u x).RV = s.RV := rfl
@[simp] theorem setShf_RI (u : UnitIdx) (x : ShfUnit) : (s.setShf u x).RI = s.RI := rfl
@[simp] theorem setShf_rfFound (u : UnitIdx) (x : ShfUnit) : (s.setShf u x).rfFound = s.rfFound := rfl
@[simp] theorem setShf_fault (u : UnitIdx) (x : ShfUnit) : (s.setShf u x).fault = s.fault := rfl
@[simp] theorem setShf_busy (u : UnitIdx) (x : ShfUnit) : (s.setShf u x).busy = s.busy := rfl
@[simp] theorem setShf_done (u : UnitIdx) (x : ShfUnit) : (s.setShf u x).done = s.done := rfl
@[simp] theorem setShf_fovf (u : UnitIdx) (x : ShfUnit) : (s.setShf u x).fovf = s.fovf := rfl
@[simp] theorem setShf_cause (u : UnitIdx) (x : ShfUnit) : (s.setShf u x).cause = s.cause := rfl
@[simp] theorem setShf_fie (u : UnitIdx) (x : ShfUnit) : (s.setShf u x).fie = s.fie := rfl
@[simp] theorem setShf_die (u : UnitIdx) (x : ShfUnit) : (s.setShf u x).die = s.die := rfl
@[simp] theorem setShf_fcmd (u : UnitIdx) (x : ShfUnit) : (s.setShf u x).fcmd = s.fcmd := rfl
@[simp] theorem setShf_faddr (u : UnitIdx) (x : ShfUnit) : (s.setShf u x).faddr = s.faddr := rfl
@[simp] theorem setShf_pending (u : UnitIdx) (x : ShfUnit) : (s.setShf u x).pending = s.pending := rfl
@[simp] theorem setShf_fir (u : UnitIdx) (x : ShfUnit) : (s.setShf u x).fir = s.fir := rfl
@[simp] theorem setShf_shf (u : UnitIdx) (x : ShfUnit) : (s.setShf u x).shf = put s.shf u x := rfl
@[simp] theorem setShf_rds (u : UnitIdx) (x : ShfUnit) : (s.setShf u x).rds = s.rds := rfl
@[simp] theorem setShf_cds (u : UnitIdx) (x : ShfUnit) : (s.setShf u x).cds = s.cds := rfl
@[simp] theorem setShf_fmd (u : UnitIdx) (x : ShfUnit) : (s.setShf u x).fmd = s.fmd := rfl
@[simp] theorem setShf_amd (u : UnitIdx) (x : ShfUnit) : (s.setShf u x).amd = s.amd := rfl
@[simp] theorem setShf_ssb (u : UnitIdx) (x : ShfUnit) : (s.setShf u x).ssb = s.ssb := rfl
@[simp] theorem setShf_sts (u : UnitIdx) (x : ShfUnit) : (s.setShf u x).sts = s.sts := rfl
@[simp] theorem setShf_dem (u : UnitIdx) (x : ShfUnit) : (s.setShf u x).dem = s.dem := rfl
@[simp] theorem setShf_agc (u : UnitIdx) (x : ShfUnit) : (s.setShf u x).agc = s.agc := rfl
@[simp] theorem setShf_dcb (u : UnitIdx) (x : ShfUnit) : (s.setShf u x).dcb = s.dcb := rfl
@[simp] theorem setShf_sm (u : UnitIdx) (x : ShfUnit) : (s.setShf u x).sm = s.sm := rfl
@[simp] theorem setShf_epoch (u : UnitIdx) (x : ShfUnit) : (s.setShf u x).epoch = s.epoch := rfl
@[simp] theorem setShf_events (u : UnitIdx) (x : ShfUnit) : (s.setShf u x).events = s.events := rfl
@[simp] theorem setShf_rdata (u : UnitIdx) (x : ShfUnit) : (s.setShf u x).rdata = s.rdata := rfl

/-! `setRds` -/

@[simp] theorem setRds_cfg (u : UnitIdx) (x : RdsUnit) : (s.setRds u x).cfg = s.cfg := rfl
@[simp] theorem setRds_A (u : UnitIdx) (x : RdsUnit) : (s.setRds u x).A = s.A := rfl
@[simp] theorem setRds_P (u : UnitIdx) (x : RdsUnit) : (s.setRds u x).P = s.P := rfl
@[simp] theorem setRds_RV (u : UnitIdx) (x : RdsUnit) : (s.setRds u x).RV = s.RV := rfl
@[simp] theorem setRds_RI (u : UnitIdx) (x : RdsUnit) : (s.setRds u x).RI = s.RI := rfl
@[simp] theorem setRds_rfFound (u : UnitIdx) (x : RdsUnit) : (s.setRds u x).rfFound = s.rfFound := rfl
@[simp] theorem setRds_fault (u : UnitIdx) (x : RdsUnit) : (s.setRds u x).fault = s.fault := rfl
@[simp] theorem setRds_busy (u : UnitIdx) (x : RdsUnit) : (s.setRds u x).busy = s.busy := rfl
@[simp] theorem setRds_done (u : UnitIdx) (x : RdsUnit) : (s.setRds u x).done = s.done := rfl
@[simp] theorem setRds_fovf (u : UnitIdx) (x : RdsUnit) : (s.setRds u x).fovf = s.fovf := rfl
@[simp] theorem setRds_cause (u : UnitIdx) (x : RdsUnit) : (s.setRds u x).cause = s.cause := rfl
@[simp] theorem setRds_fie (u : UnitIdx) (x : RdsUnit) : (s.setRds u x).fie = s.fie := rfl
@[simp] theorem setRds_die (u : UnitIdx) (x : RdsUnit) : (s.setRds u x).die = s.die := rfl
@[simp] theorem setRds_fcmd (u : UnitIdx) (x : RdsUnit) : (s.setRds u x).fcmd = s.fcmd := rfl
@[simp] theorem setRds_faddr (u : UnitIdx) (x : RdsUnit) : (s.setRds u x).faddr = s.faddr := rfl
@[simp] theorem setRds_pending (u : UnitIdx) (x : RdsUnit) : (s.setRds u x).pending = s.pending := rfl
@[simp] theorem setRds_fir (u : UnitIdx) (x : RdsUnit) : (s.setRds u x).fir = s.fir := rfl
@[simp] theorem setRds_shf (u : UnitIdx) (x : RdsUnit) : (s.setRds u x).shf = s.shf := rfl
@[simp] theorem setRds_rds (u : UnitIdx) (x : RdsUnit) : (s.setRds u x).rds = put s.rds u x := rfl
@[simp] theorem setRds_cds (u : UnitIdx) (x : RdsUnit) : (s.setRds u x).cds = s.cds := rfl
@[simp] theorem setRds_fmd (u : UnitIdx) (x : RdsUnit) : (s.setRds u x).fmd = s.fmd := rfl
@[simp] theorem setRds_amd (u : UnitIdx) (x : RdsUnit) : (s.setRds u x).amd = s.amd := rfl
@[simp] theorem setRds_ssb (u : UnitIdx) (x : RdsUnit) : (s.setRds u x).ssb = s.ssb := rfl
@[simp] theorem setRds_sts (u : UnitIdx) (x : RdsUnit) : (s.setRds u x).sts = s.sts := rfl
@[simp] theorem setRds_dem (u : UnitIdx) (x : RdsUnit) : (s.setRds u x).dem = s.dem := rfl
@[simp] theorem setRds_agc (u : UnitIdx) (x : RdsUnit) : (s.setRds u x).agc = s.agc := rfl
@[simp] theorem setRds_dcb (u : UnitIdx) (x : RdsUnit) : (s.setRds u x).dcb = s.dcb := rfl
@[simp] theorem setRds_sm (u : UnitIdx) (x : RdsUnit) : (s.setRds u x).sm = s.sm := rfl
@[simp] theorem setRds_epoch (u : UnitIdx) (x : RdsUnit) : (s.setRds u x).epoch = s.epoch := rfl
@[simp] theorem setRds_events (u : UnitIdx) (x : RdsUnit) : (s.setRds u x).events = s.events := rfl
@[simp] theorem setRds_rdata (u : UnitIdx) (x : RdsUnit) : (s.setRds u x).rdata = s.rdata := rfl

/-! `setCds` -/

@[simp] theorem setCds_cfg (u : UnitIdx) (x : CdsUnit) : (s.setCds u x).cfg = s.cfg := rfl
@[simp] theorem setCds_A (u : UnitIdx) (x : CdsUnit) : (s.setCds u x).A = s.A := rfl
@[simp] theorem setCds_P (u : UnitIdx) (x : CdsUnit) : (s.setCds u x).P = s.P := rfl
@[simp] theorem setCds_RV (u : UnitIdx) (x : CdsUnit) : (s.setCds u x).RV = s.RV := rfl
@[simp] theorem setCds_RI (u : UnitIdx) (x : CdsUnit) : (s.setCds u x).RI = s.RI := rfl
@[simp] theorem setCds_rfFound (u : UnitIdx) (x : CdsUnit) : (s.setCds u x).rfFound = s.rfFound := rfl
@[simp] theorem setCds_fault (u : UnitIdx) (x : CdsUnit) : (s.setCds u x).fault = s.fault := rfl
@[simp] theorem setCds_busy (u : UnitIdx) (x : CdsUnit) : (s.setCds u x).busy = s.busy := rfl
@[simp] theorem setCds_done (u : UnitIdx) (x : CdsUnit) : (s.setCds u x).done = s.done := rfl
@[simp] theorem setCds_fovf (u : UnitIdx) (x : CdsUnit) : (s.setCds u x).fovf = s.fovf := rfl
@[simp] theorem setCds_cause (u : UnitIdx) (x : CdsUnit) : (s.setCds u x).cause = s.cause := rfl
@[simp] theorem setCds_fie (u : UnitIdx) (x : CdsUnit) : (s.setCds u x).fie = s.fie := rfl
@[simp] theorem setCds_die (u : UnitIdx) (x : CdsUnit) : (s.setCds u x).die = s.die := rfl
@[simp] theorem setCds_fcmd (u : UnitIdx) (x : CdsUnit) : (s.setCds u x).fcmd = s.fcmd := rfl
@[simp] theorem setCds_faddr (u : UnitIdx) (x : CdsUnit) : (s.setCds u x).faddr = s.faddr := rfl
@[simp] theorem setCds_pending (u : UnitIdx) (x : CdsUnit) : (s.setCds u x).pending = s.pending := rfl
@[simp] theorem setCds_fir (u : UnitIdx) (x : CdsUnit) : (s.setCds u x).fir = s.fir := rfl
@[simp] theorem setCds_shf (u : UnitIdx) (x : CdsUnit) : (s.setCds u x).shf = s.shf := rfl
@[simp] theorem setCds_rds (u : UnitIdx) (x : CdsUnit) : (s.setCds u x).rds = s.rds := rfl
@[simp] theorem setCds_cds (u : UnitIdx) (x : CdsUnit) : (s.setCds u x).cds = put s.cds u x := rfl
@[simp] theorem setCds_fmd (u : UnitIdx) (x : CdsUnit) : (s.setCds u x).fmd = s.fmd := rfl
@[simp] theorem setCds_amd (u : UnitIdx) (x : CdsUnit) : (s.setCds u x).amd = s.amd := rfl
@[simp] theorem setCds_ssb (u : UnitIdx) (x : CdsUnit) : (s.setCds u x).ssb = s.ssb := rfl
@[simp] theorem setCds_sts (u : UnitIdx) (x : CdsUnit) : (s.setCds u x).sts = s.sts := rfl
@[simp] theorem setCds_dem (u : UnitIdx) (x : CdsUnit) : (s.setCds u x).dem = s.dem := rfl
@[simp] theorem setCds_agc (u : UnitIdx) (x : CdsUnit) : (s.setCds u x).agc = s.agc := rfl
@[simp] theorem setCds_dcb (u : UnitIdx) (x : CdsUnit) : (s.setCds u x).dcb = s.dcb := rfl
@[simp] theorem setCds_sm (u : UnitIdx) (x : CdsUnit) : (s.setCds u x).sm = s.sm := rfl
@[simp] theorem setCds_epoch (u : UnitIdx) (x : CdsUnit) : (s.setCds u x).epoch = s.epoch := rfl
@[simp] theorem setCds_events (u : UnitIdx) (x : CdsUnit) : (s.setCds u x).events = s.events := rfl
@[simp] theorem setCds_rdata (u : UnitIdx) (x : CdsUnit) : (s.setCds u x).rdata = s.rdata := rfl

/-! `setFmd` -/

@[simp] theorem setFmd_cfg (u : UnitIdx) (x : FmdUnit) : (s.setFmd u x).cfg = s.cfg := rfl
@[simp] theorem setFmd_A (u : UnitIdx) (x : FmdUnit) : (s.setFmd u x).A = s.A := rfl
@[simp] theorem setFmd_P (u : UnitIdx) (x : FmdUnit) : (s.setFmd u x).P = s.P := rfl
@[simp] theorem setFmd_RV (u : UnitIdx) (x : FmdUnit) : (s.setFmd u x).RV = s.RV := rfl
@[simp] theorem setFmd_RI (u : UnitIdx) (x : FmdUnit) : (s.setFmd u x).RI = s.RI := rfl
@[simp] theorem setFmd_rfFound (u : UnitIdx) (x : FmdUnit) : (s.setFmd u x).rfFound = s.rfFound := rfl
@[simp] theorem setFmd_fault (u : UnitIdx) (x : FmdUnit) : (s.setFmd u x).fault = s.fault := rfl
@[simp] theorem setFmd_busy (u : UnitIdx) (x : FmdUnit) : (s.setFmd u x).busy = s.busy := rfl
@[simp] theorem setFmd_done (u : UnitIdx) (x : FmdUnit) : (s.setFmd u x).done = s.done := rfl
@[simp] theorem setFmd_fovf (u : UnitIdx) (x : FmdUnit) : (s.setFmd u x).fovf = s.fovf := rfl
@[simp] theorem setFmd_cause (u : UnitIdx) (x : FmdUnit) : (s.setFmd u x).cause = s.cause := rfl
@[simp] theorem setFmd_fie (u : UnitIdx) (x : FmdUnit) : (s.setFmd u x).fie = s.fie := rfl
@[simp] theorem setFmd_die (u : UnitIdx) (x : FmdUnit) : (s.setFmd u x).die = s.die := rfl
@[simp] theorem setFmd_fcmd (u : UnitIdx) (x : FmdUnit) : (s.setFmd u x).fcmd = s.fcmd := rfl
@[simp] theorem setFmd_faddr (u : UnitIdx) (x : FmdUnit) : (s.setFmd u x).faddr = s.faddr := rfl
@[simp] theorem setFmd_pending (u : UnitIdx) (x : FmdUnit) : (s.setFmd u x).pending = s.pending := rfl
@[simp] theorem setFmd_fir (u : UnitIdx) (x : FmdUnit) : (s.setFmd u x).fir = s.fir := rfl
@[simp] theorem setFmd_shf (u : UnitIdx) (x : FmdUnit) : (s.setFmd u x).shf = s.shf := rfl
@[simp] theorem setFmd_rds (u : UnitIdx) (x : FmdUnit) : (s.setFmd u x).rds = s.rds := rfl
@[simp] theorem setFmd_cds (u : UnitIdx) (x : FmdUnit) : (s.setFmd u x).cds = s.cds := rfl
@[simp] theorem setFmd_fmd (u : UnitIdx) (x : FmdUnit) : (s.setFmd u x).fmd = put s.fmd u x := rfl
@[simp] theorem setFmd_amd (u : UnitIdx) (x : FmdUnit) : (s.setFmd u x).amd = s.amd := rfl
@[simp] theorem setFmd_ssb (u : UnitIdx) (x : FmdUnit) : (s.setFmd u x).ssb = s.ssb := rfl
@[simp] theorem setFmd_sts (u : UnitIdx) (x : FmdUnit) : (s.setFmd u x).sts = s.sts := rfl
@[simp] theorem setFmd_dem (u : UnitIdx) (x : FmdUnit) : (s.setFmd u x).dem = s.dem := rfl
@[simp] theorem setFmd_agc (u : UnitIdx) (x : FmdUnit) : (s.setFmd u x).agc = s.agc := rfl
@[simp] theorem setFmd_dcb (u : UnitIdx) (x : FmdUnit) : (s.setFmd u x).dcb = s.dcb := rfl
@[simp] theorem setFmd_sm (u : UnitIdx) (x : FmdUnit) : (s.setFmd u x).sm = s.sm := rfl
@[simp] theorem setFmd_epoch (u : UnitIdx) (x : FmdUnit) : (s.setFmd u x).epoch = s.epoch := rfl
@[simp] theorem setFmd_events (u : UnitIdx) (x : FmdUnit) : (s.setFmd u x).events = s.events := rfl
@[simp] theorem setFmd_rdata (u : UnitIdx) (x : FmdUnit) : (s.setFmd u x).rdata = s.rdata := rfl

/-! `setAmd` -/

@[simp] theorem setAmd_cfg (u : UnitIdx) (x : AmdUnit) : (s.setAmd u x).cfg = s.cfg := rfl
@[simp] theorem setAmd_A (u : UnitIdx) (x : AmdUnit) : (s.setAmd u x).A = s.A := rfl
@[simp] theorem setAmd_P (u : UnitIdx) (x : AmdUnit) : (s.setAmd u x).P = s.P := rfl
@[simp] theorem setAmd_RV (u : UnitIdx) (x : AmdUnit) : (s.setAmd u x).RV = s.RV := rfl
@[simp] theorem setAmd_RI (u : UnitIdx) (x : AmdUnit) : (s.setAmd u x).RI = s.RI := rfl
@[simp] theorem setAmd_rfFound (u : UnitIdx) (x : AmdUnit) : (s.setAmd u x).rfFound = s.rfFound := rfl
@[simp] theorem setAmd_fault (u : UnitIdx) (x : AmdUnit) : (s.setAmd u x).fault = s.fault := rfl
@[simp] theorem setAmd_busy (u : UnitIdx) (x : AmdUnit) : (s.setAmd u x).busy = s.busy := rfl
@[simp] theorem setAmd_done (u : UnitIdx) (x : AmdUnit) : (s.setAmd u x).done = s.done := rfl
@[simp] theorem setAmd_fovf (u : UnitIdx) (x : AmdUnit) : (s.setAmd u x).fovf = s.fovf := rfl
@[simp] theorem setAmd_cause (u : UnitIdx) (x : AmdUnit) : (s.setAmd u x).cause = s.cause := rfl
@[simp] theorem setAmd_fie (u : UnitIdx) (x : AmdUnit) : (s.setAmd u x).fie = s.fie := rfl
@[simp] theorem setAmd_die (u : UnitIdx) (x : AmdUnit) : (s.setAmd u x).die = s.die := rfl
@[simp] theorem setAmd_fcmd (u : UnitIdx) (x : AmdUnit) : (s.setAmd u x).fcmd = s.fcmd := rfl
@[simp] theorem setAmd_faddr (u : UnitIdx) (x : AmdUnit) : (s.setAmd u x).faddr = s.faddr := rfl
@[simp] theorem setAmd_pending (u : UnitIdx) (x : AmdUnit) : (s.setAmd u x).pending = s.pending := rfl
@[simp] theorem setAmd_fir (u : UnitIdx) (x : AmdUnit) : (s.setAmd u x).fir = s.fir := rfl
@[simp] theorem setAmd_shf (u : UnitIdx) (x : AmdUnit) : (s.setAmd u x).shf = s.shf := rfl
@[simp] theorem setAmd_rds (u : UnitIdx) (x : AmdUnit) : (s.setAmd u x).rds = s.rds := rfl
@[simp] theorem setAmd_cds (u : UnitIdx) (x : AmdUnit) : (s.setAmd u x).cds = s.cds := rfl
@[simp] theorem setAmd_fmd (u : UnitIdx) (x : AmdUnit) : (s.setAmd u x).fmd = s.fmd := rfl
@[simp] theorem setAmd_amd (u : UnitIdx) (x : AmdUnit) : (s.setAmd u x).amd = put s.amd u x := rfl
@[simp] theorem setAmd_ssb (u : UnitIdx) (x : AmdUnit) : (s.setAmd u x).ssb = s.ssb := rfl
@[simp] theorem setAmd_sts (u : UnitIdx) (x : AmdUnit) : (s.setAmd u x).sts = s.sts := rfl
@[simp] theorem setAmd_dem (u : UnitIdx) (x : AmdUnit) : (s.setAmd u x).dem = s.dem := rfl
@[simp] theorem setAmd_agc (u : UnitIdx) (x : AmdUnit) : (s.setAmd u x).agc = s.agc := rfl
@[simp] theorem setAmd_dcb (u : UnitIdx) (x : AmdUnit) : (s.setAmd u x).dcb = s.dcb := rfl
@[simp] theorem setAmd_sm (u : UnitIdx) (x : AmdUnit) : (s.setAmd u x).sm = s.sm := rfl
@[simp] theorem setAmd_epoch (u : UnitIdx) (x : AmdUnit) : (s.setAmd u x).epoch = s.epoch := rfl
@[simp] theorem setAmd_events (u : UnitIdx) (x : AmdUnit) : (s.setAmd u x).events = s.events := rfl
@[simp] theorem setAmd_rdata (u : UnitIdx) (x : AmdUnit) : (s.setAmd u x).rdata = s.rdata := rfl

/-! `setSsb` -/

@[simp] theorem setSsb_cfg (u : UnitIdx) (x : SsbUnit) : (s.setSsb u x).cfg = s.cfg := rfl
@[simp] theorem setSsb_A (u : UnitIdx) (x : SsbUnit) : (s.setSsb u x).A = s.A := rfl
@[simp] theorem setSsb_P (u : UnitIdx) (x : SsbUnit) : (s.setSsb u x).P = s.P := rfl
@[simp] theorem setSsb_RV (u : UnitIdx) (x : SsbUnit) : (s.setSsb u x).RV = s.RV := rfl
@[simp] theorem setSsb_RI (u : UnitIdx) (x : SsbUnit) : (s.setSsb u x).RI = s.RI := rfl
@[simp] theorem setSsb_rfFound (u : UnitIdx) (x : SsbUnit) : (s.setSsb u x).rfFound = s.rfFound := rfl
@[simp] theorem setSsb_fault (u : UnitIdx) (x : SsbUnit) : (s.setSsb u x).fault = s.fault := rfl
@[simp] theorem setSsb_busy (u : UnitIdx) (x : SsbUnit) : (s.setSsb u x).busy = s.busy := rfl
@[simp] theorem setSsb_done (u : UnitIdx) (x : SsbUnit) : (s.setSsb u x).done = s.done := rfl
@[simp] theorem setSsb_fovf (u : UnitIdx) (x : SsbUnit) : (s.setSsb u x).fovf = s.fovf := rfl
@[simp] theorem setSsb_cause (u : UnitIdx) (x : SsbUnit) : (s.setSsb u x).cause = s.cause := rfl
@[simp] theorem setSsb_fie (u : UnitIdx) (x : SsbUnit) : (s.setSsb u x).fie = s.fie := rfl
@[simp] theorem setSsb_die (u : UnitIdx) (x : SsbUnit) : (s.setSsb u x).die = s.die := rfl
@[simp] theorem setSsb_fcmd (u : UnitIdx) (x : SsbUnit) : (s.setSsb u x).fcmd = s.fcmd := rfl
@[simp] theorem setSsb_faddr (u : UnitIdx) (x : SsbUnit) : (s.setSsb u x).faddr = s.faddr := rfl
@[simp] theorem setSsb_pending (u : UnitIdx) (x : SsbUnit) : (s.setSsb u x).pending = s.pending := rfl
@[simp] theorem setSsb_fir (u : UnitIdx) (x : SsbUnit) : (s.setSsb u x).fir = s.fir := rfl
@[simp] theorem setSsb_shf (u : UnitIdx) (x : SsbUnit) : (s.setSsb u x).shf = s.shf := rfl
@[simp] theorem setSsb_rds (u : UnitIdx) (x : SsbUnit) : (s.setSsb u x).rds = s.rds := rfl
@[simp] theorem setSsb_cds (u : UnitIdx) (x : SsbUnit) : (s.setSsb u x).cds = s.cds := rfl
@[simp] theorem setSsb_fmd (u : UnitIdx) (x : SsbUnit) : (s.setSsb u x).fmd = s.fmd := rfl
@[simp] theorem setSsb_amd (u : UnitIdx) (x : SsbUnit) : (s.setSsb u x).amd = s.amd := rfl
@[simp] theorem setSsb_ssb (u : UnitIdx) (x : SsbUnit) : (s.setSsb u x).ssb = put s.ssb u x := rfl
@[simp] theorem setSsb_sts (u : UnitIdx) (x : SsbUnit) : (s.setSsb u x).sts = s.sts := rfl
@[simp] theorem setSsb_dem (u : UnitIdx) (x : SsbUnit) : (s.setSsb u x).dem = s.dem := rfl
@[simp] theorem setSsb_agc (u : UnitIdx) (x : SsbUnit) : (s.setSsb u x).agc = s.agc := rfl
@[simp] theorem setSsb_dcb (u : UnitIdx) (x : SsbUnit) : (s.setSsb u x).dcb = s.dcb := rfl
@[simp] theorem setSsb_sm (u : UnitIdx) (x : SsbUnit) : (s.setSsb u x).sm = s.sm := rfl
@[simp] theorem setSsb_epoch (u : UnitIdx) (x : SsbUnit) : (s.setSsb u x).epoch = s.epoch := rfl
@[simp] theorem setSsb_events (u : UnitIdx) (x : SsbUnit) : (s.setSsb u x).events = s.events := rfl
@[simp] theorem setSsb_rdata (u : UnitIdx) (x : SsbUnit) : (s.setSsb u x).rdata = s.rdata := rfl

/-! `setSts` -/

@[simp] theorem setSts_cfg (u : UnitIdx) (x : StsUnit) : (s.setSts u x).cfg = s.cfg := rfl
@[simp] theorem setSts_A (u : UnitIdx) (x : StsUnit) : (s.setSts u x).A = s.A := rfl
@[simp] theorem setSts_P (u : UnitIdx) (x : StsUnit) : (s.setSts u x).P = s.P := rfl
@[simp] theorem setSts_RV (u : UnitIdx) (x : StsUnit) : (s.setSts u x).RV = s.RV := rfl
@[simp] theorem setSts_RI (u : UnitIdx) (x : StsUnit) : (s.setSts u x).RI = s.RI := rfl
@[simp] theorem setSts_rfFound (u : UnitIdx) (x : StsUnit) : (s.setSts u x).rfFound = s.rfFound := rfl
@[simp] theorem setSts_fault (u : UnitIdx) (x : StsUnit) : (s.setSts u x).fault = s.fault := rfl
@[simp] theorem setSts_busy (u : UnitIdx) (x : StsUnit) : (s.setSts u x).busy = s.busy := rfl
@[simp] theorem setSts_done (u : UnitIdx) (x : StsUnit) : (s.setSts u x).done = s.done := rfl
@[simp] theorem setSts_fovf (u : UnitIdx) (x : StsUnit) : (s.setSts u x).fovf = s.fovf := rfl
@[simp] theorem setSts_cause (u : UnitIdx) (x : StsUnit) : (s.setSts u x).cause = s.cause := rfl
@[simp] theorem setSts_fie (u : UnitIdx) (x : StsUnit) : (s.setSts u x).fie = s.fie := rfl
@[simp] theorem setSts_die (u : UnitIdx) (x : StsUnit) : (s.setSts u x).die = s.die := rfl
@[simp] theorem setSts_fcmd (u : UnitIdx) (x : StsUnit) : (s.setSts u x).fcmd = s.fcmd := rfl
@[simp] theorem setSts_faddr (u : UnitIdx) (x : StsUnit) : (s.setSts u x).faddr = s.faddr := rfl
@[simp] theorem setSts_pending (u : UnitIdx) (x : StsUnit) : (s.setSts u x).pending = s.pending := rfl
@[simp] theorem setSts_fir (u : UnitIdx) (x : StsUnit) : (s.setSts u x).fir = s.fir := rfl
@[simp] theorem setSts_shf (u : UnitIdx) (x : StsUnit) : (s.setSts u x).shf = s.shf := rfl
@[simp] theorem setSts_rds (u : UnitIdx) (x : StsUnit) : (s.setSts u x).rds = s.rds := rfl
@[simp] theorem setSts_cds (u : UnitIdx) (x : StsUnit) : (s.setSts u x).cds = s.cds := rfl
@[simp] theorem setSts_fmd (u : UnitIdx) (x : StsUnit) : (s.setSts u x).fmd = s.fmd := rfl
@[simp] theorem setSts_amd (u : UnitIdx) (x : StsUnit) : (s.setSts u x).amd = s.amd := rfl
@[simp] theorem setSts_ssb (u : UnitIdx) (x : StsUnit) : (s.setSts u x).ssb = s.ssb := rfl
@[simp] theorem setSts_sts (u : UnitIdx) (x : StsUnit) : (s.setSts u x).sts = put s.sts u x := rfl
@[simp] theorem setSts_dem (u : UnitIdx) (x : StsUnit) : (s.setSts u x).dem = s.dem := rfl
@[simp] theorem setSts_agc (u : UnitIdx) (x : StsUnit) : (s.setSts u x).agc = s.agc := rfl
@[simp] theorem setSts_dcb (u : UnitIdx) (x : StsUnit) : (s.setSts u x).dcb = s.dcb := rfl
@[simp] theorem setSts_sm (u : UnitIdx) (x : StsUnit) : (s.setSts u x).sm = s.sm := rfl
@[simp] theorem setSts_epoch (u : UnitIdx) (x : StsUnit) : (s.setSts u x).epoch = s.epoch := rfl
@[simp] theorem setSts_events (u : UnitIdx) (x : StsUnit) : (s.setSts u x).events = s.events := rfl
@[simp] theorem setSts_rdata (u : UnitIdx) (x : StsUnit) : (s.setSts u x).rdata = s.rdata := rfl

/-! `setDem` -/

@[simp] theorem setDem_cfg (u : UnitIdx) (x : DemUnit) : (s.setDem u x).cfg = s.cfg := rfl
@[simp] theorem setDem_A (u : UnitIdx) (x : DemUnit) : (s.setDem u x).A = s.A := rfl
@[simp] theorem setDem_P (u : UnitIdx) (x : DemUnit) : (s.setDem u x).P = s.P := rfl
@[simp] theorem setDem_RV (u : UnitIdx) (x : DemUnit) : (s.setDem u x).RV = s.RV := rfl
@[simp] theorem setDem_RI (u : UnitIdx) (x : DemUnit) : (s.setDem u x).RI = s.RI := rfl
@[simp] theorem setDem_rfFound (u : UnitIdx) (x : DemUnit) : (s.setDem u x).rfFound = s.rfFound := rfl
@[simp] theorem setDem_fault (u : UnitIdx) (x : DemUnit) : (s.setDem u x).fault = s.fault := rfl
@[simp] theorem setDem_busy (u : UnitIdx) (x : DemUnit) : (s.setDem u x).busy = s.busy := rfl
@[simp] theorem setDem_done (u : UnitIdx) (x : DemUnit) : (s.setDem u x).done = s.done := rfl
@[simp] theorem setDem_fovf (u : UnitIdx) (x : DemUnit) : (s.setDem u x).fovf = s.fovf := rfl
@[simp] theorem setDem_cause (u : UnitIdx) (x : DemUnit) : (s.setDem u x).cause = s.cause := rfl
@[simp] theorem setDem_fie (u : UnitIdx) (x : DemUnit) : (s.setDem u x).fie = s.fie := rfl
@[simp] theorem setDem_die (u : UnitIdx) (x : DemUnit) : (s.setDem u x).die = s.die := rfl
@[simp] theorem setDem_fcmd (u : UnitIdx) (x : DemUnit) : (s.setDem u x).fcmd = s.fcmd := rfl
@[simp] theorem setDem_faddr (u : UnitIdx) (x : DemUnit) : (s.setDem u x).faddr = s.faddr := rfl
@[simp] theorem setDem_pending (u : UnitIdx) (x : DemUnit) : (s.setDem u x).pending = s.pending := rfl
@[simp] theorem setDem_fir (u : UnitIdx) (x : DemUnit) : (s.setDem u x).fir = s.fir := rfl
@[simp] theorem setDem_shf (u : UnitIdx) (x : DemUnit) : (s.setDem u x).shf = s.shf := rfl
@[simp] theorem setDem_rds (u : UnitIdx) (x : DemUnit) : (s.setDem u x).rds = s.rds := rfl
@[simp] theorem setDem_cds (u : UnitIdx) (x : DemUnit) : (s.setDem u x).cds = s.cds := rfl
@[simp] theorem setDem_fmd (u : UnitIdx) (x : DemUnit) : (s.setDem u x).fmd = s.fmd := rfl
@[simp] theorem setDem_amd (u : UnitIdx) (x : DemUnit) : (s.setDem u x).amd = s.amd := rfl
@[simp] theorem setDem_ssb (u : UnitIdx) (x : DemUnit) : (s.setDem u x).ssb = s.ssb := rfl
@[simp] theorem setDem_sts (u : UnitIdx) (x : DemUnit) : (s.setDem u x).sts = s.sts := rfl
@[simp] theorem setDem_dem (u : UnitIdx) (x : DemUnit) : (s.setDem u x).dem = put s.dem u x := rfl
@[simp] theorem setDem_agc (u : UnitIdx) (x : DemUnit) : (s.setDem u x).agc = s.agc := rfl
@[simp] theorem setDem_dcb (u : UnitIdx) (x : DemUnit) : (s.setDem u x).dcb = s.dcb := rfl
@[simp] theorem setDem_sm (u : UnitIdx) (x : DemUnit) : (s.setDem u x).sm = s.sm := rfl
@[simp] theorem setDem_epoch (u : UnitIdx) (x : DemUnit) : (s.setDem u x).epoch = s.epoch := rfl
@[simp] theorem setDem_events (u : UnitIdx) (x : DemUnit) : (s.setDem u x).events = s.events := rfl
@[simp] theorem setDem_rdata (u : UnitIdx) (x : DemUnit) : (s.setDem u x).rdata = s.rdata := rfl

/-! `setAgc` -/

@[simp] theorem setAgc_cfg (u : UnitIdx) (x : AgcUnit) : (s.setAgc u x).cfg = s.cfg := rfl
@[simp] theorem setAgc_A (u : UnitIdx) (x : AgcUnit) : (s.setAgc u x).A = s.A := rfl
@[simp] theorem setAgc_P (u : UnitIdx) (x : AgcUnit) : (s.setAgc u x).P = s.P := rfl
@[simp] theorem setAgc_RV (u : UnitIdx) (x : AgcUnit) : (s.setAgc u x).RV = s.RV := rfl
@[simp] theorem setAgc_RI (u : UnitIdx) (x : AgcUnit) : (s.setAgc u x).RI = s.RI := rfl
@[simp] theorem setAgc_rfFound (u : UnitIdx) (x : AgcUnit) : (s.setAgc u x).rfFound = s.rfFound := rfl
@[simp] theorem setAgc_fault (u : UnitIdx) (x : AgcUnit) : (s.setAgc u x).fault = s.fault := rfl
@[simp] theorem setAgc_busy (u : UnitIdx) (x : AgcUnit) : (s.setAgc u x).busy = s.busy := rfl
@[simp] theorem setAgc_done (u : UnitIdx) (x : AgcUnit) : (s.setAgc u x).done = s.done := rfl
@[simp] theorem setAgc_fovf (u : UnitIdx) (x : AgcUnit) : (s.setAgc u x).fovf = s.fovf := rfl
@[simp] theorem setAgc_cause (u : UnitIdx) (x : AgcUnit) : (s.setAgc u x).cause = s.cause := rfl
@[simp] theorem setAgc_fie (u : UnitIdx) (x : AgcUnit) : (s.setAgc u x).fie = s.fie := rfl
@[simp] theorem setAgc_die (u : UnitIdx) (x : AgcUnit) : (s.setAgc u x).die = s.die := rfl
@[simp] theorem setAgc_fcmd (u : UnitIdx) (x : AgcUnit) : (s.setAgc u x).fcmd = s.fcmd := rfl
@[simp] theorem setAgc_faddr (u : UnitIdx) (x : AgcUnit) : (s.setAgc u x).faddr = s.faddr := rfl
@[simp] theorem setAgc_pending (u : UnitIdx) (x : AgcUnit) : (s.setAgc u x).pending = s.pending := rfl
@[simp] theorem setAgc_fir (u : UnitIdx) (x : AgcUnit) : (s.setAgc u x).fir = s.fir := rfl
@[simp] theorem setAgc_shf (u : UnitIdx) (x : AgcUnit) : (s.setAgc u x).shf = s.shf := rfl
@[simp] theorem setAgc_rds (u : UnitIdx) (x : AgcUnit) : (s.setAgc u x).rds = s.rds := rfl
@[simp] theorem setAgc_cds (u : UnitIdx) (x : AgcUnit) : (s.setAgc u x).cds = s.cds := rfl
@[simp] theorem setAgc_fmd (u : UnitIdx) (x : AgcUnit) : (s.setAgc u x).fmd = s.fmd := rfl
@[simp] theorem setAgc_amd (u : UnitIdx) (x : AgcUnit) : (s.setAgc u x).amd = s.amd := rfl
@[simp] theorem setAgc_ssb (u : UnitIdx) (x : AgcUnit) : (s.setAgc u x).ssb = s.ssb := rfl
@[simp] theorem setAgc_sts (u : UnitIdx) (x : AgcUnit) : (s.setAgc u x).sts = s.sts := rfl
@[simp] theorem setAgc_dem (u : UnitIdx) (x : AgcUnit) : (s.setAgc u x).dem = s.dem := rfl
@[simp] theorem setAgc_agc (u : UnitIdx) (x : AgcUnit) : (s.setAgc u x).agc = put s.agc u x := rfl
@[simp] theorem setAgc_dcb (u : UnitIdx) (x : AgcUnit) : (s.setAgc u x).dcb = s.dcb := rfl
@[simp] theorem setAgc_sm (u : UnitIdx) (x : AgcUnit) : (s.setAgc u x).sm = s.sm := rfl
@[simp] theorem setAgc_epoch (u : UnitIdx) (x : AgcUnit) : (s.setAgc u x).epoch = s.epoch := rfl
@[simp] theorem setAgc_events (u : UnitIdx) (x : AgcUnit) : (s.setAgc u x).events = s.events := rfl
@[simp] theorem setAgc_rdata (u : UnitIdx) (x : AgcUnit) : (s.setAgc u x).rdata = s.rdata := rfl

/-! `setDcb` -/

@[simp] theorem setDcb_cfg (u : UnitIdx) (x : DcbUnit) : (s.setDcb u x).cfg = s.cfg := rfl
@[simp] theorem setDcb_A (u : UnitIdx) (x : DcbUnit) : (s.setDcb u x).A = s.A := rfl
@[simp] theorem setDcb_P (u : UnitIdx) (x : DcbUnit) : (s.setDcb u x).P = s.P := rfl
@[simp] theorem setDcb_RV (u : UnitIdx) (x : DcbUnit) : (s.setDcb u x).RV = s.RV := rfl
@[simp] theorem setDcb_RI (u : UnitIdx) (x : DcbUnit) : (s.setDcb u x).RI = s.RI := rfl
@[simp] theorem setDcb_rfFound (u : UnitIdx) (x : DcbUnit) : (s.setDcb u x).rfFound = s.rfFound := rfl
@[simp] theorem setDcb_fault (u : UnitIdx) (x : DcbUnit) : (s.setDcb u x).fault = s.fault := rfl
@[simp] theorem setDcb_busy (u : UnitIdx) (x : DcbUnit) : (s.setDcb u x).busy = s.busy := rfl
@[simp] theorem setDcb_done (u : UnitIdx) (x : DcbUnit) : (s.setDcb u x).done = s.done := rfl
@[simp] theorem setDcb_fovf (u : UnitIdx) (x : DcbUnit) : (s.setDcb u x).fovf = s.fovf := rfl
@[simp] theorem setDcb_cause (u : UnitIdx) (x : DcbUnit) : (s.setDcb u x).cause = s.cause := rfl
@[simp] theorem setDcb_fie (u : UnitIdx) (x : DcbUnit) : (s.setDcb u x).fie = s.fie := rfl
@[simp] theorem setDcb_die (u : UnitIdx) (x : DcbUnit) : (s.setDcb u x).die = s.die := rfl
@[simp] theorem setDcb_fcmd (u : UnitIdx) (x : DcbUnit) : (s.setDcb u x).fcmd = s.fcmd := rfl
@[simp] theorem setDcb_faddr (u : UnitIdx) (x : DcbUnit) : (s.setDcb u x).faddr = s.faddr := rfl
@[simp] theorem setDcb_pending (u : UnitIdx) (x : DcbUnit) : (s.setDcb u x).pending = s.pending := rfl
@[simp] theorem setDcb_fir (u : UnitIdx) (x : DcbUnit) : (s.setDcb u x).fir = s.fir := rfl
@[simp] theorem setDcb_shf (u : UnitIdx) (x : DcbUnit) : (s.setDcb u x).shf = s.shf := rfl
@[simp] theorem setDcb_rds (u : UnitIdx) (x : DcbUnit) : (s.setDcb u x).rds = s.rds := rfl
@[simp] theorem setDcb_cds (u : UnitIdx) (x : DcbUnit) : (s.setDcb u x).cds = s.cds := rfl
@[simp] theorem setDcb_fmd (u : UnitIdx) (x : DcbUnit) : (s.setDcb u x).fmd = s.fmd := rfl
@[simp] theorem setDcb_amd (u : UnitIdx) (x : DcbUnit) : (s.setDcb u x).amd = s.amd := rfl
@[simp] theorem setDcb_ssb (u : UnitIdx) (x : DcbUnit) : (s.setDcb u x).ssb = s.ssb := rfl
@[simp] theorem setDcb_sts (u : UnitIdx) (x : DcbUnit) : (s.setDcb u x).sts = s.sts := rfl
@[simp] theorem setDcb_dem (u : UnitIdx) (x : DcbUnit) : (s.setDcb u x).dem = s.dem := rfl
@[simp] theorem setDcb_agc (u : UnitIdx) (x : DcbUnit) : (s.setDcb u x).agc = s.agc := rfl
@[simp] theorem setDcb_dcb (u : UnitIdx) (x : DcbUnit) : (s.setDcb u x).dcb = put s.dcb u x := rfl
@[simp] theorem setDcb_sm (u : UnitIdx) (x : DcbUnit) : (s.setDcb u x).sm = s.sm := rfl
@[simp] theorem setDcb_epoch (u : UnitIdx) (x : DcbUnit) : (s.setDcb u x).epoch = s.epoch := rfl
@[simp] theorem setDcb_events (u : UnitIdx) (x : DcbUnit) : (s.setDcb u x).events = s.events := rfl
@[simp] theorem setDcb_rdata (u : UnitIdx) (x : DcbUnit) : (s.setDcb u x).rdata = s.rdata := rfl

/-! `setRV` -/

@[simp] theorem setRV_cfg (v : Num) : (s.setRV v).cfg = s.cfg := rfl
@[simp] theorem setRV_A (v : Num) : (s.setRV v).A = s.A := rfl
@[simp] theorem setRV_P (v : Num) : (s.setRV v).P = s.P := rfl
@[simp] theorem setRV_RV (v : Num) : (s.setRV v).RV = v := rfl
@[simp] theorem setRV_RI (v : Num) : (s.setRV v).RI = s.RI := rfl
@[simp] theorem setRV_rfFound (v : Num) : (s.setRV v).rfFound = s.rfFound := rfl
@[simp] theorem setRV_fault (v : Num) : (s.setRV v).fault = s.fault := rfl
@[simp] theorem setRV_busy (v : Num) : (s.setRV v).busy = s.busy := rfl
@[simp] theorem setRV_done (v : Num) : (s.setRV v).done = s.done := rfl
@[simp] theorem setRV_fovf (v : Num) : (s.setRV v).fovf = s.fovf := rfl
@[simp] theorem setRV_cause (v : Num) : (s.setRV v).cause = s.cause := rfl
@[simp] theorem setRV_fie (v : Num) : (s.setRV v).fie = s.fie := rfl
@[simp] theorem setRV_die (v : Num) : (s.setRV v).die = s.die := rfl
@[simp] theorem setRV_fcmd (v : Num) : (s.setRV v).fcmd = s.fcmd := rfl
@[simp] theorem setRV_faddr (v : Num) : (s.setRV v).faddr = s.faddr := rfl
@[simp] theorem setRV_pending (v : Num) : (s.setRV v).pending = s.pending := rfl
@[simp] theorem setRV_fir (v : Num) : (s.setRV v).fir = s.fir := rfl
@[simp] theorem setRV_shf (v : Num) : (s.setRV v).shf = s.shf := rfl
@[simp] theorem setRV_rds (v : Num) : (s.setRV v).rds = s.rds := rfl
@[simp] theorem setRV_cds (v : Num) : (s.setRV v).cds = s.cds := rfl
@[simp] theorem setRV_fmd (v : Num) : (s.setRV v).fmd = s.fmd := rfl
@[simp] theorem setRV_amd (v : Num) : (s.setRV v).amd = s.amd := rfl
@[simp] theorem setRV_ssb (v : Num) : (s.setRV v).ssb = s.ssb := rfl
@[simp] theorem setRV_sts (v : Num) : (s.setRV v).sts = s.sts := rfl
@[simp] theorem setRV_dem (v : Num) : (s.setRV v).dem = s.dem := rfl
@[simp] theorem setRV_agc (v : Num) : (s.setRV v).agc = s.agc := rfl
@[simp] theorem setRV_dcb (v : Num) : (s.setRV v).dcb = s.dcb := rfl
@[simp] theorem setRV_sm (v : Num) : (s.setRV v).sm = s.sm := rfl
@[simp] theorem setRV_epoch (v : Num) : (s.setRV v).epoch = s.epoch := rfl
@[simp] theorem setRV_events (v : Num) : (s.setRV v).events = s.events := rfl
@[simp] theorem setRV_rdata (v : Num) : (s.setRV v).rdata = s.rdata := rfl

/-! `setRI` -/

@[simp] theorem setRI_cfg (n : Nat) : (s.setRI n).cfg = s.cfg := rfl
@[simp] theorem setRI_A (n : Nat) : (s.setRI n).A = s.A := rfl
@[simp] theorem setRI_P (n : Nat) : (s.setRI n).P = s.P := rfl
@[simp] theorem setRI_RV (n : Nat) : (s.setRI n).RV = s.RV := rfl
@[simp] theorem setRI_RI (n : Nat) : (s.setRI n).RI = BitVec.ofNat 32 n := rfl
@[simp] theorem setRI_rfFound (n : Nat) : (s.setRI n).rfFound = s.rfFound := rfl
@[simp] theorem setRI_fault (n : Nat) : (s.setRI n).fault = s.fault := rfl
@[simp] theorem setRI_busy (n : Nat) : (s.setRI n).busy = s.busy := rfl
@[simp] theorem setRI_done (n : Nat) : (s.setRI n).done = s.done := rfl
@[simp] theorem setRI_fovf (n : Nat) : (s.setRI n).fovf = s.fovf := rfl
@[simp] theorem setRI_cause (n : Nat) : (s.setRI n).cause = s.cause := rfl
@[simp] theorem setRI_fie (n : Nat) : (s.setRI n).fie = s.fie := rfl
@[simp] theorem setRI_die (n : Nat) : (s.setRI n).die = s.die := rfl
@[simp] theorem setRI_fcmd (n : Nat) : (s.setRI n).fcmd = s.fcmd := rfl
@[simp] theorem setRI_faddr (n : Nat) : (s.setRI n).faddr = s.faddr := rfl
@[simp] theorem setRI_pending (n : Nat) : (s.setRI n).pending = s.pending := rfl
@[simp] theorem setRI_fir (n : Nat) : (s.setRI n).fir = s.fir := rfl
@[simp] theorem setRI_shf (n : Nat) : (s.setRI n).shf = s.shf := rfl
@[simp] theorem setRI_rds (n : Nat) : (s.setRI n).rds = s.rds := rfl
@[simp] theorem setRI_cds (n : Nat) : (s.setRI n).cds = s.cds := rfl
@[simp] theorem setRI_fmd (n : Nat) : (s.setRI n).fmd = s.fmd := rfl
@[simp] theorem setRI_amd (n : Nat) : (s.setRI n).amd = s.amd := rfl
@[simp] theorem setRI_ssb (n : Nat) : (s.setRI n).ssb = s.ssb := rfl
@[simp] theorem setRI_sts (n : Nat) : (s.setRI n).sts = s.sts := rfl
@[simp] theorem setRI_dem (n : Nat) : (s.setRI n).dem = s.dem := rfl
@[simp] theorem setRI_agc (n : Nat) : (s.setRI n).agc = s.agc := rfl
@[simp] theorem setRI_dcb (n : Nat) : (s.setRI n).dcb = s.dcb := rfl
@[simp] theorem setRI_sm (n : Nat) : (s.setRI n).sm = s.sm := rfl
@[simp] theorem setRI_epoch (n : Nat) : (s.setRI n).epoch = s.epoch := rfl
@[simp] theorem setRI_events (n : Nat) : (s.setRI n).events = s.events := rfl
@[simp] theorem setRI_rdata (n : Nat) : (s.setRI n).rdata = s.rdata := rfl

/-! `setRF` -/

@[simp] theorem setRF_cfg (b : Bool) : (s.setRF b).cfg = s.cfg := rfl
@[simp] theorem setRF_A (b : Bool) : (s.setRF b).A = s.A := rfl
@[simp] theorem setRF_P (b : Bool) : (s.setRF b).P = s.P := rfl
@[simp] theorem setRF_RV (b : Bool) : (s.setRF b).RV = s.RV := rfl
@[simp] theorem setRF_RI (b : Bool) : (s.setRF b).RI = s.RI := rfl
@[simp] theorem setRF_rfFound (b : Bool) : (s.setRF b).rfFound = b := rfl
@[simp] theorem setRF_fault (b : Bool) : (s.setRF b).fault = s.fault := rfl
@[simp] theorem setRF_busy (b : Bool) : (s.setRF b).busy = s.busy := rfl
@[simp] theorem setRF_done (b : Bool) : (s.setRF b).done = s.done := rfl
@[simp] theorem setRF_fovf (b : Bool) : (s.setRF b).fovf = s.fovf := rfl
@[simp] theorem setRF_cause (b : Bool) : (s.setRF b).cause = s.cause := rfl
@[simp] theorem setRF_fie (b : Bool) : (s.setRF b).fie = s.fie := rfl
@[simp] theorem setRF_die (b : Bool) : (s.setRF b).die = s.die := rfl
@[simp] theorem setRF_fcmd (b : Bool) : (s.setRF b).fcmd = s.fcmd := rfl
@[simp] theorem setRF_faddr (b : Bool) : (s.setRF b).faddr = s.faddr := rfl
@[simp] theorem setRF_pending (b : Bool) : (s.setRF b).pending = s.pending := rfl
@[simp] theorem setRF_fir (b : Bool) : (s.setRF b).fir = s.fir := rfl
@[simp] theorem setRF_shf (b : Bool) : (s.setRF b).shf = s.shf := rfl
@[simp] theorem setRF_rds (b : Bool) : (s.setRF b).rds = s.rds := rfl
@[simp] theorem setRF_cds (b : Bool) : (s.setRF b).cds = s.cds := rfl
@[simp] theorem setRF_fmd (b : Bool) : (s.setRF b).fmd = s.fmd := rfl
@[simp] theorem setRF_amd (b : Bool) : (s.setRF b).amd = s.amd := rfl
@[simp] theorem setRF_ssb (b : Bool) : (s.setRF b).ssb = s.ssb := rfl
@[simp] theorem setRF_sts (b : Bool) : (s.setRF b).sts = s.sts := rfl
@[simp] theorem setRF_dem (b : Bool) : (s.setRF b).dem = s.dem := rfl
@[simp] theorem setRF_agc (b : Bool) : (s.setRF b).agc = s.agc := rfl
@[simp] theorem setRF_dcb (b : Bool) : (s.setRF b).dcb = s.dcb := rfl
@[simp] theorem setRF_sm (b : Bool) : (s.setRF b).sm = s.sm := rfl
@[simp] theorem setRF_epoch (b : Bool) : (s.setRF b).epoch = s.epoch := rfl
@[simp] theorem setRF_events (b : Bool) : (s.setRF b).events = s.events := rfl
@[simp] theorem setRF_rdata (b : Bool) : (s.setRF b).rdata = s.rdata := rfl

/-! `softReset` -/

@[simp] theorem softReset_A : (s.softReset).A = (State.init s.cfg).A := rfl
@[simp] theorem softReset_P : (s.softReset).P = (State.init s.cfg).P := rfl
@[simp] theorem softReset_RV : (s.softReset).RV = (State.init s.cfg).RV := rfl
@[simp] theorem softReset_RI : (s.softReset).RI = (State.init s.cfg).RI := rfl
@[simp] theorem softReset_rfFound : (s.softReset).rfFound = (State.init s.cfg).rfFound := rfl
@[simp] theorem softReset_fault : (s.softReset).fault = (State.init s.cfg).fault := rfl
@[simp] theorem softReset_busy : (s.softReset).busy = (State.init s.cfg).busy := rfl
@[simp] theorem softReset_done : (s.softReset).done = (State.init s.cfg).done := rfl
@[simp] theorem softReset_fovf : (s.softReset).fovf = (State.init s.cfg).fovf := rfl
@[simp] theorem softReset_cause : (s.softReset).cause = (State.init s.cfg).cause := rfl
@[simp] theorem softReset_fie : (s.softReset).fie = (State.init s.cfg).fie := rfl
@[simp] theorem softReset_die : (s.softReset).die = (State.init s.cfg).die := rfl
@[simp] theorem softReset_fcmd : (s.softReset).fcmd = (State.init s.cfg).fcmd := rfl
@[simp] theorem softReset_faddr : (s.softReset).faddr = (State.init s.cfg).faddr := rfl
@[simp] theorem softReset_pending : (s.softReset).pending = (State.init s.cfg).pending := rfl
@[simp] theorem softReset_fir : (s.softReset).fir = (State.init s.cfg).fir := rfl
@[simp] theorem softReset_shf : (s.softReset).shf = (State.init s.cfg).shf := rfl
@[simp] theorem softReset_rds : (s.softReset).rds = (State.init s.cfg).rds := rfl
@[simp] theorem softReset_cds : (s.softReset).cds = (State.init s.cfg).cds := rfl
@[simp] theorem softReset_fmd : (s.softReset).fmd = (State.init s.cfg).fmd := rfl
@[simp] theorem softReset_amd : (s.softReset).amd = (State.init s.cfg).amd := rfl
@[simp] theorem softReset_ssb : (s.softReset).ssb = (State.init s.cfg).ssb := rfl
@[simp] theorem softReset_sts : (s.softReset).sts = (State.init s.cfg).sts := rfl
@[simp] theorem softReset_dem : (s.softReset).dem = (State.init s.cfg).dem := rfl
@[simp] theorem softReset_agc : (s.softReset).agc = (State.init s.cfg).agc := rfl
@[simp] theorem softReset_dcb : (s.softReset).dcb = (State.init s.cfg).dcb := rfl
@[simp] theorem softReset_sm : (s.softReset).sm = s.sm := rfl
@[simp] theorem softReset_epoch : (s.softReset).epoch = s.epoch := rfl
@[simp] theorem softReset_events : (s.softReset).events = s.events := rfl
@[simp] theorem softReset_rdata : (s.softReset).rdata = s.rdata := rfl

/-! `hardReset` -/

@[simp] theorem hardReset_A : (s.hardReset).A = (State.init s.cfg).A := rfl
@[simp] theorem hardReset_P : (s.hardReset).P = (State.init s.cfg).P := rfl
@[simp] theorem hardReset_RV : (s.hardReset).RV = (State.init s.cfg).RV := rfl
@[simp] theorem hardReset_RI : (s.hardReset).RI = (State.init s.cfg).RI := rfl
@[simp] theorem hardReset_rfFound : (s.hardReset).rfFound = (State.init s.cfg).rfFound := rfl
@[simp] theorem hardReset_fault : (s.hardReset).fault = (State.init s.cfg).fault := rfl
@[simp] theorem hardReset_busy : (s.hardReset).busy = (State.init s.cfg).busy := rfl
@[simp] theorem hardReset_done : (s.hardReset).done = (State.init s.cfg).done := rfl
@[simp] theorem hardReset_fovf : (s.hardReset).fovf = (State.init s.cfg).fovf := rfl
@[simp] theorem hardReset_cause : (s.hardReset).cause = (State.init s.cfg).cause := rfl
@[simp] theorem hardReset_fie : (s.hardReset).fie = (State.init s.cfg).fie := rfl
@[simp] theorem hardReset_die : (s.hardReset).die = (State.init s.cfg).die := rfl
@[simp] theorem hardReset_fcmd : (s.hardReset).fcmd = (State.init s.cfg).fcmd := rfl
@[simp] theorem hardReset_faddr : (s.hardReset).faddr = (State.init s.cfg).faddr := rfl
@[simp] theorem hardReset_pending : (s.hardReset).pending = (State.init s.cfg).pending := rfl
@[simp] theorem hardReset_fir : (s.hardReset).fir = (State.init s.cfg).fir := rfl
@[simp] theorem hardReset_shf : (s.hardReset).shf = (State.init s.cfg).shf := rfl
@[simp] theorem hardReset_rds : (s.hardReset).rds = (State.init s.cfg).rds := rfl
@[simp] theorem hardReset_cds : (s.hardReset).cds = (State.init s.cfg).cds := rfl
@[simp] theorem hardReset_fmd : (s.hardReset).fmd = (State.init s.cfg).fmd := rfl
@[simp] theorem hardReset_amd : (s.hardReset).amd = (State.init s.cfg).amd := rfl
@[simp] theorem hardReset_ssb : (s.hardReset).ssb = (State.init s.cfg).ssb := rfl
@[simp] theorem hardReset_sts : (s.hardReset).sts = (State.init s.cfg).sts := rfl
@[simp] theorem hardReset_dem : (s.hardReset).dem = (State.init s.cfg).dem := rfl
@[simp] theorem hardReset_agc : (s.hardReset).agc = (State.init s.cfg).agc := rfl
@[simp] theorem hardReset_dcb : (s.hardReset).dcb = (State.init s.cfg).dcb := rfl
@[simp] theorem hardReset_sm : (s.hardReset).sm = (State.init s.cfg).sm := rfl
@[simp] theorem hardReset_epoch : (s.hardReset).epoch = s.epoch + 1 := rfl
@[simp] theorem hardReset_events : (s.hardReset).events = s.events := rfl
@[simp] theorem hardReset_rdata : (s.hardReset).rdata = s.rdata := rfl

/-! `statusW1C` -/

@[simp] theorem statusW1C_cfg (v : Word) : (s.statusW1C v).cfg = s.cfg := rfl
@[simp] theorem statusW1C_A (v : Word) : (s.statusW1C v).A = s.A := rfl
@[simp] theorem statusW1C_P (v : Word) : (s.statusW1C v).P = s.P := rfl
@[simp] theorem statusW1C_RV (v : Word) : (s.statusW1C v).RV = s.RV := rfl
@[simp] theorem statusW1C_RI (v : Word) : (s.statusW1C v).RI = s.RI := rfl
@[simp] theorem statusW1C_rfFound (v : Word) : (s.statusW1C v).rfFound = s.rfFound := rfl
@[simp] theorem statusW1C_fault (v : Word) : (s.statusW1C v).fault = (s.fault && !v.getLsbD 0) := rfl
@[simp] theorem statusW1C_busy (v : Word) : (s.statusW1C v).busy = s.busy := rfl
@[simp] theorem statusW1C_done (v : Word) : (s.statusW1C v).done = (s.done && !v.getLsbD 2) := rfl
@[simp] theorem statusW1C_fovf (v : Word) : (s.statusW1C v).fovf = (s.fovf && !v.getLsbD 3) := rfl
@[simp] theorem statusW1C_cause (v : Word) : (s.statusW1C v).cause = (if v.getLsbD 0 then .none else s.cause) := rfl
@[simp] theorem statusW1C_fie (v : Word) : (s.statusW1C v).fie = s.fie := rfl
@[simp] theorem statusW1C_die (v : Word) : (s.statusW1C v).die = s.die := rfl
@[simp] theorem statusW1C_fcmd (v : Word) : (s.statusW1C v).fcmd = (if v.getLsbD 0 then 0#32 else s.fcmd) := rfl
@[simp] theorem statusW1C_faddr (v : Word) : (s.statusW1C v).faddr = (if v.getLsbD 0 then 0#32 else s.faddr) := rfl
@[simp] theorem statusW1C_pending (v : Word) : (s.statusW1C v).pending = s.pending := rfl
@[simp] theorem statusW1C_fir (v : Word) : (s.statusW1C v).fir = s.fir := rfl
@[simp] theorem statusW1C_shf (v : Word) : (s.statusW1C v).shf = s.shf := rfl
@[simp] theorem statusW1C_rds (v : Word) : (s.statusW1C v).rds = s.rds := rfl
@[simp] theorem statusW1C_cds (v : Word) : (s.statusW1C v).cds = s.cds := rfl
@[simp] theorem statusW1C_fmd (v : Word) : (s.statusW1C v).fmd = s.fmd := rfl
@[simp] theorem statusW1C_amd (v : Word) : (s.statusW1C v).amd = s.amd := rfl
@[simp] theorem statusW1C_ssb (v : Word) : (s.statusW1C v).ssb = s.ssb := rfl
@[simp] theorem statusW1C_sts (v : Word) : (s.statusW1C v).sts = s.sts := rfl
@[simp] theorem statusW1C_dem (v : Word) : (s.statusW1C v).dem = s.dem := rfl
@[simp] theorem statusW1C_agc (v : Word) : (s.statusW1C v).agc = s.agc := rfl
@[simp] theorem statusW1C_dcb (v : Word) : (s.statusW1C v).dcb = s.dcb := rfl
@[simp] theorem statusW1C_sm (v : Word) : (s.statusW1C v).sm = s.sm := rfl
@[simp] theorem statusW1C_epoch (v : Word) : (s.statusW1C v).epoch = s.epoch := rfl
@[simp] theorem statusW1C_events (v : Word) : (s.statusW1C v).events = s.events := rfl
@[simp] theorem statusW1C_rdata (v : Word) : (s.statusW1C v).rdata = s.rdata := rfl

/-! `recordFault` -/

@[simp] theorem recordFault_cfg (c : Cause) (fw fa : Word) : (s.recordFault c fw fa).cfg = s.cfg := by
  unfold State.recordFault; split <;> rfl
@[simp] theorem recordFault_A (c : Cause) (fw fa : Word) : (s.recordFault c fw fa).A = s.A := by
  unfold State.recordFault; split <;> rfl
@[simp] theorem recordFault_P (c : Cause) (fw fa : Word) : (s.recordFault c fw fa).P = s.P := by
  unfold State.recordFault; split <;> rfl
@[simp] theorem recordFault_RV (c : Cause) (fw fa : Word) : (s.recordFault c fw fa).RV = s.RV := by
  unfold State.recordFault; split <;> rfl
@[simp] theorem recordFault_RI (c : Cause) (fw fa : Word) : (s.recordFault c fw fa).RI = s.RI := by
  unfold State.recordFault; split <;> rfl
@[simp] theorem recordFault_rfFound (c : Cause) (fw fa : Word) : (s.recordFault c fw fa).rfFound = s.rfFound := by
  unfold State.recordFault; split <;> rfl
@[simp] theorem recordFault_busy (c : Cause) (fw fa : Word) : (s.recordFault c fw fa).busy = s.busy := by
  unfold State.recordFault; split <;> rfl
@[simp] theorem recordFault_done (c : Cause) (fw fa : Word) : (s.recordFault c fw fa).done = s.done := by
  unfold State.recordFault; split <;> rfl
@[simp] theorem recordFault_fie (c : Cause) (fw fa : Word) : (s.recordFault c fw fa).fie = s.fie := by
  unfold State.recordFault; split <;> rfl
@[simp] theorem recordFault_die (c : Cause) (fw fa : Word) : (s.recordFault c fw fa).die = s.die := by
  unfold State.recordFault; split <;> rfl
@[simp] theorem recordFault_pending (c : Cause) (fw fa : Word) : (s.recordFault c fw fa).pending = s.pending := by
  unfold State.recordFault; split <;> rfl
@[simp] theorem recordFault_fir (c : Cause) (fw fa : Word) : (s.recordFault c fw fa).fir = s.fir := by
  unfold State.recordFault; split <;> rfl
@[simp] theorem recordFault_shf (c : Cause) (fw fa : Word) : (s.recordFault c fw fa).shf = s.shf := by
  unfold State.recordFault; split <;> rfl
@[simp] theorem recordFault_rds (c : Cause) (fw fa : Word) : (s.recordFault c fw fa).rds = s.rds := by
  unfold State.recordFault; split <;> rfl
@[simp] theorem recordFault_cds (c : Cause) (fw fa : Word) : (s.recordFault c fw fa).cds = s.cds := by
  unfold State.recordFault; split <;> rfl
@[simp] theorem recordFault_fmd (c : Cause) (fw fa : Word) : (s.recordFault c fw fa).fmd = s.fmd := by
  unfold State.recordFault; split <;> rfl
@[simp] theorem recordFault_amd (c : Cause) (fw fa : Word) : (s.recordFault c fw fa).amd = s.amd := by
  unfold State.recordFault; split <;> rfl
@[simp] theorem recordFault_ssb (c : Cause) (fw fa : Word) : (s.recordFault c fw fa).ssb = s.ssb := by
  unfold State.recordFault; split <;> rfl
@[simp] theorem recordFault_sts (c : Cause) (fw fa : Word) : (s.recordFault c fw fa).sts = s.sts := by
  unfold State.recordFault; split <;> rfl
@[simp] theorem recordFault_dem (c : Cause) (fw fa : Word) : (s.recordFault c fw fa).dem = s.dem := by
  unfold State.recordFault; split <;> rfl
@[simp] theorem recordFault_agc (c : Cause) (fw fa : Word) : (s.recordFault c fw fa).agc = s.agc := by
  unfold State.recordFault; split <;> rfl
@[simp] theorem recordFault_dcb (c : Cause) (fw fa : Word) : (s.recordFault c fw fa).dcb = s.dcb := by
  unfold State.recordFault; split <;> rfl
@[simp] theorem recordFault_sm (c : Cause) (fw fa : Word) : (s.recordFault c fw fa).sm = s.sm := by
  unfold State.recordFault; split <;> rfl
@[simp] theorem recordFault_epoch (c : Cause) (fw fa : Word) : (s.recordFault c fw fa).epoch = s.epoch := by
  unfold State.recordFault; split <;> rfl
@[simp] theorem recordFault_events (c : Cause) (fw fa : Word) : (s.recordFault c fw fa).events = s.events := by
  unfold State.recordFault; split <;> rfl
@[simp] theorem recordFault_rdata (c : Cause) (fw fa : Word) : (s.recordFault c fw fa).rdata = s.rdata := by
  unfold State.recordFault; split <;> rfl

@[simp] theorem recordFault_fault (c : Cause) (fw fa : Word) : (s.recordFault c fw fa).fault = true := by
  unfold State.recordFault; split <;> simp_all
@[simp] theorem recordFault_fovf (c : Cause) (fw fa : Word) :
    (s.recordFault c fw fa).fovf = (s.fault || s.fovf) := by
  unfold State.recordFault; split <;> simp_all
@[simp] theorem recordFault_cause (c : Cause) (fw fa : Word) :
    (s.recordFault c fw fa).cause = if s.fault then s.cause else c := by
  unfold State.recordFault; split <;> rfl
@[simp] theorem recordFault_fcmd (c : Cause) (fw fa : Word) :
    (s.recordFault c fw fa).fcmd = if s.fault then s.fcmd else fw := by
  unfold State.recordFault; split <;> rfl
@[simp] theorem recordFault_faddr (c : Cause) (fw fa : Word) :
    (s.recordFault c fw fa).faddr = if s.fault then s.faddr else fa := by
  unfold State.recordFault; split <;> rfl

end

/-! Unit instances -/

@[simp] theorem pick_put_same {α : Type} (v : Vector α unitSlots) (u : UnitIdx) (x : α) : pick (put v u x) u = x := by
  simp [pick, put]

@[simp] theorem pick_put_other {α : Type} (v : Vector α unitSlots) (u w : UnitIdx) (x : α) (h : w ≠ u) :
    pick (put v u x) w = pick v w := by
  have : u.toNat ≠ w.toNat := fun e => h (BitVec.eq_of_toNat_eq e.symm)
  simp [pick, put, this]

@[simp] theorem pick_replicate {α : Type} (x : α) (u : UnitIdx) : pick (Vector.replicate unitSlots x) u = x := by
  simp [pick]

theorem mem_put {α : Type} {v : Vector α unitSlots} {u : UnitIdx} {x y : α} (h : y ∈ (put v u x).toList) :
    y = x ∨ y ∈ v.toList := by
  simp only [put, Vector.toList_set] at h
  rcases List.mem_or_eq_of_mem_set h with h | h
  · exact .inr h
  · exact .inl h

theorem pick_mem {α : Type} (v : Vector α unitSlots) (u : UnitIdx) : pick v u ∈ v.toList := by
  simp [pick]

end Sys2Proof.Machine
end

