-- ==== Sys2Proof/Laws/Ops.lean ====
section
/-! SUPPORT. What each shared operation can do, said once (R112, R117, R119): later proofs cite these. -/

namespace Sys2Proof.Machine

@[simp] theorem firstFault_nil : firstFault [] = none := rfl

@[simp] theorem firstFault_cons (b : Bool) (c : Cause) (l : List (Bool × Cause)) :
    firstFault ((b, c) :: l) = if b then some c else firstFault l := by
  cases b <;> rfl

/-- A list of checks passes exactly when every check does. -/
theorem firstFault_eq_none {l : List (Bool × Cause)} : firstFault l = none ↔ ∀ x ∈ l, x.1 = false := by
  induction l with
  | nil => simp
  | cons x l ih => obtain ⟨b, c⟩ := x; cases b <;> simp [ih]

/-- A command on a valid unit whose checks pass completes with its effect. -/
theorem runCommand_pass {i : Instr} {s : State} {check : Option Cause} {effect : State → State} (h : i.ValidFor s.cfg)
    (hc : check = none) : runCommand i s check effect = .next (effect s).complete := by
  simp [runCommand, h, hc]

/-- A command on an invalid unit faults with BAD_UNIT. -/
theorem runCommand_badUnit {i : Instr} {s : State} {check : Option Cause} {effect : State → State} (h : ¬ i.ValidFor s.cfg) :
    runCommand i s check effect = .next (s.faulted .badUnit (encode i)) := by
  simp [runCommand, h]

/-- A command on a valid unit whose checks fail with `c` faults with `c`. -/
theorem runCommand_fault {i : Instr} {s : State} {check : Option Cause} {c : Cause} {effect : State → State}
    (h : i.ValidFor s.cfg) (hc : check = some c) : runCommand i s check effect = .next (s.faulted c (encode i)) := by
  simp [runCommand, h, hc]

/-- The only valid unit of a kind with one unit is unit 0 (R9). -/
theorem unit_ne_zero {u : UnitIdx} : u ≠ 0#6 ↔ ¬ u.toNat < 1 := by
  constructor
  · exact fun h hw => h (BitVec.eq_of_toNat_eq (by simpa using hw))
  · rintro h rfl
    simp at h

/-- Everything a command can do: it faults with BAD_UNIT, it faults with its first failing check, or it completes. -/
theorem runCommand_cases {i : Instr} {s t : State} {check : Option Cause} {effect : State → State}
    (h : runCommand i s check effect = .next t) :
    (¬ i.ValidFor s.cfg ∧ t = s.faulted .badUnit (encode i)) ∨
    (i.ValidFor s.cfg ∧ ∃ c, check = some c ∧ t = s.faulted c (encode i)) ∨
    (i.ValidFor s.cfg ∧ check = none ∧ t = (effect s).complete) := by
  unfold runCommand at h
  by_cases hw : i.ValidFor s.cfg
  · rw [if_pos hw] at h
    cases check with
    | none => cases h; exact .inr (.inr ⟨hw, rfl, rfl⟩)
    | some c => cases h; exact .inr (.inl ⟨hw, c, rfl, rfl⟩)
  · rw [if_neg hw] at h
    cases h
    exact .inl ⟨hw, rfl⟩

/-- Everything the host's CMD write can do (R111). -/
theorem cmdWrite_cases (s : State) (w : Word) :
    (s.fault = true ∧ w ≠ srstWord ∧ s.cmdWrite w = { s with fovf := true }) ∨
    ((s.fault = false ∨ w = srstWord) ∧ s.cmdWrite w = { s with pending := w, busy := true }) := by
  unfold State.cmdWrite
  by_cases h : s.fault = true ∧ w ≠ srstWord
  · rw [if_pos h]; exact .inl ⟨h.1, h.2, rfl⟩
  · rw [if_neg h]
    refine .inr ⟨?_, rfl⟩
    cases hf : s.fault with
    | false => exact .inl rfl
    | true => exact .inr (not_ne_iff.mp fun hw => h ⟨hf, hw⟩)

/-- A host read changes nothing but by recording a fault (R110). -/
theorem hostRead_cases (s : State) (addr : BusAddr) (wd : Nat) :
    (s.hostRead addr wd).2 = s ∨ ∃ c, c ≠ .none ∧ s.hostRead addr wd = (0#32, s.busFault c addr) := by
  unfold State.hostRead
  split
  · exact .inr ⟨.bus, by decide, rfl⟩
  · split
    · split
      · exact .inr ⟨.busy, by decide, rfl⟩
      · exact .inl rfl
    · split
      · exact .inr ⟨.busy, by decide, rfl⟩
      · exact .inl rfl
    · exact .inr ⟨.bus, by decide, rfl⟩

end Sys2Proof.Machine
end

