-- ==== Sys2Proof/Laws/Checks.lean ====
section
/-! SUPPORT. Each command's own checks as the case list of its rule, in the order of R117. -/

namespace Sys2Proof.Machine

/-- A check read as a proposition. -/
theorem ite_some_or {α : Type} {c : Bool} {p : Prop} [Decidable p] (h : c = true ↔ p) (x : α) (r : Option α) :
    (if c = true then some x else r) = if p then some x else r := by
  simp only [h]

theorem or_else_ite {α : Type} {p : Prop} [Decidable p] (x : α) (r t : Option α) :
    ((if p then some x else r) <|> t) = if p then some x else (r <|> t) := by
  split <;> rfl

theorem blockBad_iff {s : State} {n base : Nat} :
    (!s.blockOk n || !s.fits base n) = true ↔ s.cfg.maxBlock < n ∨ s.cfg.smWords < base + n := by
  simp [State.blockOk, State.fits]

theorem not_fits_iff {s : State} {base n : Nat} : (!s.fits base n) = true ↔ s.cfg.smWords < base + n := by simp [State.fits]

theorem not_blockOk_iff {s : State} {n : Nat} : (!s.blockOk n) = true ↔ s.cfg.maxBlock < n := by simp [State.blockOk]

theorem demodRangeBad_iff {s : State} : demodRangeBad s = true ↔
    s.cfg.maxBlock < s.arg 2 ∨ s.cfg.smWords < s.arg 0 + s.arg 2 ∨ s.cfg.smWords < s.arg 1 + s.arg 2 ∨
      s.cfg.smWords < s.arg 3 + s.arg 2 := by
  simp [demodRangeBad, State.blockOk, State.fits, or_assoc]

theorem tapsBad_iff {s : State} {t : Nat} : s.tapsBad t = true ↔ t < 1 ∨ s.cfg.maxTaps < t + (t + 1) % 2 := by
  simp [State.tapsBad, oddTaps]

theorem not_isPos_iff {a : Num} : (!isPos a) = true ↔ ¬ 0 < a.toReal := by
  rw [← isPos_iff, Bool.not_eq_true', Bool.not_eq_true]

theorem not_isGreater_iff {a b : Num} : (!isGreater a b) = true ↔ a.toReal ≤ b.toReal := by
  rw [← not_lt, ← isGreater_iff, Bool.not_eq_true', Bool.not_eq_true]

theorem genLpkCheck_eq (s : State) : genLpkCheck s =
    if s.paramFinite 0 = false then some .nonfinite
    else if s.arg 1 < 1 ∨ s.cfg.maxTaps < s.arg 1 + (s.arg 1 + 1) % 2 ∨ s.arg 2 < 1 then some .badParam
    else if ¬ (0 < (s.paramNum 0).toReal ∧ (s.paramNum 0).toReal ≤ (half s.num (s.arg 2)).toReal) then some .badParam
    else if isZero (lpkSum s.num (s.arg 2) (s.paramNum 0) (s.arg 1)) then some .badParam
    else if s.cfg.smWords < s.arg 0 + (s.arg 1 + (s.arg 1 + 1) % 2) then some .range
    else none := by
  simp only [genLpkCheck, firstFault_cons, firstFault_nil, or_else_ite]
  rw [ite_some_or (p := s.paramFinite 0 = false) (by simp),
    ite_some_or (p := s.arg 1 < 1 ∨ s.cfg.maxTaps < s.arg 1 + (s.arg 1 + 1) % 2 ∨ s.arg 2 < 1)
      (by simp [State.tapsBad, oddTaps, or_assoc]),
    ite_some_or (p := ¬ (0 < (s.paramNum 0).toReal ∧ (s.paramNum 0).toReal ≤ (half s.num (s.arg 2)).toReal))
      (by simp only [Bool.not_eq_true', ← Bool.not_eq_true, Bool.and_eq_true, isPos_iff, isGreater_iff, not_lt]),
    ite_some_or (c := !s.fits (s.arg 0) (oddTaps (s.arg 1))) (p := s.cfg.smWords < s.arg 0 + (s.arg 1 + (s.arg 1 + 1) % 2))
      not_fits_iff]
  rfl

theorem firSetkCheck_eq (s : State) : firSetkCheck s =
    if s.arg 1 < 1 ∨ s.cfg.maxTaps < s.arg 1 ∨ s.arg 1 % 2 = 0 then some .badParam
    else if s.cfg.smWords < s.arg 0 + s.arg 1 then some .range
    else none := by
  simp only [firSetkCheck, firstFault_cons, firstFault_nil]
  rw [ite_some_or (p := s.arg 1 < 1 ∨ s.cfg.maxTaps < s.arg 1 ∨ s.arg 1 % 2 = 0) (by simp [or_assoc]),
    ite_some_or (p := s.cfg.smWords < s.arg 0 + s.arg 1) (by simp [State.fits])]

theorem firBlockCheck_eq (u : UnitIdx) (s : State) : firBlockCheck u s =
    if (s.firUnit u).configured = false then some .unconfigured
    else if s.cfg.maxBlock < s.arg 1 ∨ s.cfg.smWords < s.arg 0 + s.arg 1 then some .range
    else none := by
  simp only [firBlockCheck, firstFault_cons, firstFault_nil]
  rw [ite_some_or (p := (s.firUnit u).configured = false) (by simp), ite_some_or blockBad_iff]

theorem firGetCheck_eq (u : UnitIdx) (s : State) : firGetCheck u s =
    if (s.firUnit u).configured = false then some .unconfigured
    else if (s.firUnit u).line.WL ≤ s.arg 0 then some .index
    else none := by
  simp only [firGetCheck, firstFault_cons, firstFault_nil]
  rw [ite_some_or (p := (s.firUnit u).configured = false) (by simp),
    ite_some_or (p := (s.firUnit u).line.WL ≤ s.arg 0) (by simp)]

theorem firConfiguredCheck_eq (u : UnitIdx) (s : State) : firConfiguredCheck u s =
    if (s.firUnit u).configured = false then some .unconfigured else none := by
  simp only [firConfiguredCheck, firstFault_cons, firstFault_nil]
  rw [ite_some_or (p := (s.firUnit u).configured = false) (by simp)]

theorem shfCfgCheck_eq (s : State) : shfCfgCheck s = if s.arg 0 < 1 then some .badParam else none := by
  simp only [shfCfgCheck, firstFault_cons, firstFault_nil]
  rw [ite_some_or (p := s.arg 0 < 1) (by simp)]

theorem shfRunCheck_eq (u : UnitIdx) (s : State) : shfRunCheck u s =
    if (s.shfUnit u).configured = false then some .unconfigured
    else if s.paramFinite 0 = false then some .nonfinite
    else if s.cfg.maxBlock < s.arg 2 ∨ s.cfg.smWords < s.arg 0 + s.arg 2 ∨ s.cfg.smWords < s.arg 1 + s.arg 2 then some .range
    else if ¬ (s.arg 2 = 0 ∨ s.arg 0 + s.arg 2 ≤ s.arg 1 ∨ s.arg 1 + s.arg 2 ≤ s.arg 0) then some .range
    else none := by
  simp only [shfRunCheck, firstFault_cons, firstFault_nil]
  rw [ite_some_or (p := (s.shfUnit u).configured = false) (by simp),
    ite_some_or (p := s.paramFinite 0 = false) (by simp),
    ite_some_or (p := s.cfg.maxBlock < s.arg 2 ∨ s.cfg.smWords < s.arg 0 + s.arg 2 ∨ s.cfg.smWords < s.arg 1 + s.arg 2)
      (by simp [State.blockOk, State.fits, or_assoc]),
    ite_some_or (p := ¬ (s.arg 2 = 0 ∨ s.arg 0 + s.arg 2 ≤ s.arg 1 ∨ s.arg 1 + s.arg 2 ≤ s.arg 0))
      (by simp [disjoint, and_assoc])]

theorem downCfgCheck_eq (s : State) : downCfgCheck s =
    if s.arg 0 < 1 ∨ s.arg 1 < 1 ∨ s.arg 0 < s.arg 1 then some .badParam
    else if s.arg 2 < 1 ∨ s.cfg.maxTaps < s.arg 2 + (s.arg 2 + 1) % 2 then some .badParam
    else if isZero (lpkSum s.num (s.arg 0) (half s.num (s.arg 1)) (s.arg 2)) then some .badParam
    else none := by
  simp only [downCfgCheck, firstFault_cons, firstFault_nil, or_else_ite]
  rw [ite_some_or (p := s.arg 0 < 1 ∨ s.arg 1 < 1 ∨ s.arg 0 < s.arg 1) (by simp [or_assoc]), ite_some_or tapsBad_iff]
  rfl

theorem rdsRunCheck_eq (u : UnitIdx) (s : State) : rdsRunCheck u s =
    if (s.rdsUnit u).configured = false then some .unconfigured
    else if s.cfg.maxBlock < s.arg 1 ∨ s.cfg.smWords < s.arg 0 + s.arg 1 ∨
      s.cfg.smWords < s.arg 2 + s.arg 1 * (s.rdsUnit u).outRate / (s.rdsUnit u).inRate then some .range
    else none := by
  simp only [rdsRunCheck, firstFault_cons, firstFault_nil]
  rw [ite_some_or (p := (s.rdsUnit u).configured = false) (by simp),
    ite_some_or (p := s.cfg.maxBlock < s.arg 1 ∨ s.cfg.smWords < s.arg 0 + s.arg 1 ∨
      s.cfg.smWords < s.arg 2 + s.arg 1 * (s.rdsUnit u).outRate / (s.rdsUnit u).inRate)
      (by simp only [Bool.or_eq_true, not_blockOk_iff, not_fits_iff, or_assoc, downLength])]

theorem cdsRunCheck_eq (u : UnitIdx) (s : State) : cdsRunCheck u s =
    if (s.cdsUnit u).configured = false then some .unconfigured
    else if s.cfg.maxBlock < s.arg 2 ∨ s.cfg.smWords < s.arg 0 + s.arg 2 ∨ s.cfg.smWords < s.arg 1 + s.arg 2 ∨
      s.cfg.smWords < s.arg 3 + s.arg 2 * (s.cdsUnit u).outRate / (s.cdsUnit u).inRate ∨
      s.cfg.smWords < s.arg 4 + s.arg 2 * (s.cdsUnit u).outRate / (s.cdsUnit u).inRate then some .range
    else if ¬ (s.arg 2 * (s.cdsUnit u).outRate / (s.cdsUnit u).inRate = 0 ∨
      s.arg 3 + s.arg 2 * (s.cdsUnit u).outRate / (s.cdsUnit u).inRate ≤ s.arg 4 ∨
      s.arg 4 + s.arg 2 * (s.cdsUnit u).outRate / (s.cdsUnit u).inRate ≤ s.arg 3) then some .range
    else none := by
  simp only [cdsRunCheck, firstFault_cons, firstFault_nil]
  generalize hL : downLength (s.cdsUnit u).inRate (s.cdsUnit u).outRate (s.arg 2) = Lout
  rw [downLength] at hL
  rw [hL, ite_some_or (p := (s.cdsUnit u).configured = false) (by simp),
    ite_some_or (p := s.cfg.maxBlock < s.arg 2 ∨ s.cfg.smWords < s.arg 0 + s.arg 2 ∨ s.cfg.smWords < s.arg 1 + s.arg 2 ∨
      s.cfg.smWords < s.arg 3 + Lout ∨ s.cfg.smWords < s.arg 4 + Lout) (by simp [State.blockOk, State.fits, or_assoc]),
    ite_some_or (p := ¬ (Lout = 0 ∨ s.arg 3 + Lout ≤ s.arg 4 ∨ s.arg 4 + Lout ≤ s.arg 3)) (by simp [disjoint, and_assoc])]

theorem fmdCfgCheck_eq (s : State) : fmdCfgCheck s =
    if s.paramFinite 0 = false then some .nonfinite
    else if s.arg 0 < 1 ∨ ¬ 0 < (s.paramNum 0).toReal then some .badParam
    else none := by
  simp only [fmdCfgCheck, firstFault_cons, firstFault_nil]
  rw [ite_some_or (p := s.paramFinite 0 = false) (by simp), ite_some_or (p := s.arg 0 < 1 ∨ ¬ 0 < (s.paramNum 0).toReal)
    (by simp [← isPos_iff])]

theorem fmdRunCheck_eq (u : UnitIdx) (s : State) : fmdRunCheck u s =
    if (s.fmdUnit u).configured = false then some .unconfigured
    else if s.cfg.maxBlock < s.arg 2 ∨ s.cfg.smWords < s.arg 0 + s.arg 2 ∨ s.cfg.smWords < s.arg 1 + s.arg 2 ∨
      s.cfg.smWords < s.arg 3 + s.arg 2 then some .range
    else none := by
  simp only [fmdRunCheck, firstFault_cons, firstFault_nil]
  rw [ite_some_or (p := (s.fmdUnit u).configured = false) (by simp), ite_some_or demodRangeBad_iff]

theorem amdCfgCheck_eq (s : State) : amdCfgCheck s = if s.arg 0 < 1 then some .badParam else none := by
  simp only [amdCfgCheck, firstFault_cons, firstFault_nil]
  rw [ite_some_or (p := s.arg 0 < 1) (by simp)]

theorem amdRunCheck_eq (u : UnitIdx) (s : State) : amdRunCheck u s =
    if (s.amdUnit u).configured = false then some .unconfigured
    else if s.cfg.maxBlock < s.arg 2 ∨ s.cfg.smWords < s.arg 0 + s.arg 2 ∨ s.cfg.smWords < s.arg 1 + s.arg 2 ∨
      s.cfg.smWords < s.arg 3 + s.arg 2 then some .range
    else none := by
  simp only [amdRunCheck, firstFault_cons, firstFault_nil]
  rw [ite_some_or (p := (s.amdUnit u).configured = false) (by simp), ite_some_or demodRangeBad_iff]

theorem ssbCfgCheck_eq (s : State) : ssbCfgCheck s = if 1 < s.arg 0 then some .badParam else none := by
  simp only [ssbCfgCheck, firstFault_cons, firstFault_nil]
  rw [ite_some_or (p := 1 < s.arg 0) (by simp)]

theorem ssbRunCheck_eq (u : UnitIdx) (s : State) : ssbRunCheck u s =
    if (s.ssbUnit u).configured = false then some .unconfigured
    else if s.cfg.maxBlock < s.arg 2 ∨ s.cfg.smWords < s.arg 0 + s.arg 2 ∨ s.cfg.smWords < s.arg 1 + s.arg 2 ∨
      s.cfg.smWords < s.arg 3 + s.arg 2 then some .range
    else none := by
  simp only [ssbRunCheck, firstFault_cons, firstFault_nil]
  rw [ite_some_or (p := (s.ssbUnit u).configured = false) (by simp), ite_some_or demodRangeBad_iff]

theorem stsCfgCheck_eq (s : State) : stsCfgCheck s = if (Prim.nat s.num (s.arg 0)).toReal ≤ (pilotLimit s.cfg).toReal then some .badParam else none := by
  simp only [stsCfgCheck, firstFault_cons, firstFault_nil]
  rw [ite_some_or not_isGreater_iff]

theorem stsRunCheck_eq (u : UnitIdx) (s : State) : stsRunCheck u s =
    if (s.stsUnit u).configured = false then some .unconfigured
    else if s.cfg.maxBlock < s.arg 1 ∨ s.cfg.smWords < s.arg 0 + s.arg 1 ∨ s.cfg.smWords < s.arg 2 + s.arg 1 then some .range
    else none := by
  simp only [stsRunCheck, firstFault_cons, firstFault_nil]
  rw [ite_some_or (p := (s.stsUnit u).configured = false) (by simp),
    ite_some_or (p := s.cfg.maxBlock < s.arg 1 ∨ s.cfg.smWords < s.arg 0 + s.arg 1 ∨ s.cfg.smWords < s.arg 2 + s.arg 1)
      (by simp [State.blockOk, State.fits, or_assoc])]

theorem tauCfgCheck_eq (s : State) : tauCfgCheck s =
    if s.paramFinite 0 = false then some .nonfinite
    else if s.arg 0 < 1 ∨ ¬ 0 < (s.paramNum 0).toReal then some .badParam
    else none := by
  simp only [tauCfgCheck, firstFault_cons, firstFault_nil]
  rw [ite_some_or (p := s.paramFinite 0 = false) (by simp), ite_some_or (p := s.arg 0 < 1 ∨ ¬ 0 < (s.paramNum 0).toReal)
    (by simp [← isPos_iff])]

theorem inPlaceCheck_eq (c : Bool) (s : State) : inPlaceCheck c s =
    if c = false then some .unconfigured
    else if s.cfg.maxBlock < s.arg 1 ∨ s.cfg.smWords < s.arg 0 + s.arg 1 then some .range
    else none := by
  simp only [inPlaceCheck, firstFault_cons, firstFault_nil]
  rw [ite_some_or (p := c = false) (by simp), ite_some_or blockBad_iff]

theorem pwrRunCheck_eq (s : State) : pwrRunCheck s =
    if s.cfg.maxBlock < s.arg 2 ∨ s.cfg.smWords < s.arg 0 + s.arg 2 ∨ s.cfg.smWords < s.arg 1 + s.arg 2 then some .range
    else none := by
  simp only [pwrRunCheck, firstFault_cons, firstFault_nil]
  rw [ite_some_or (p := s.cfg.maxBlock < s.arg 2 ∨ s.cfg.smWords < s.arg 0 + s.arg 2 ∨ s.cfg.smWords < s.arg 1 + s.arg 2)
    (by simp [State.blockOk, State.fits, or_assoc])]

theorem pwrSnrCheck_eq (s : State) : pwrSnrCheck s =
    if s.paramFinite 0 = false ∨ s.paramFinite 1 = false ∨ s.paramFinite 2 = false then some .nonfinite
    else if s.arg 0 < 1 ∨ ¬ 0 < (s.paramNum 1).toReal ∨ (s.paramNum 0).toReal < 0 ∨ (s.paramNum 2).toReal < 0 then some .badParam
    else none := by
  simp only [pwrSnrCheck, firstFault_cons, firstFault_nil]
  rw [ite_some_or (p := s.paramFinite 0 = false ∨ s.paramFinite 1 = false ∨ s.paramFinite 2 = false) (by simp [or_assoc]),
    ite_some_or (p := s.arg 0 < 1 ∨ ¬ 0 < (s.paramNum 1).toReal ∨ (s.paramNum 0).toReal < 0 ∨ (s.paramNum 2).toReal < 0)
      (by simp [← isPos_iff, ← isNeg_iff, or_assoc])]

end Sys2Proof.Machine
end

