-- ==== Sys2Proof/Laws/Memory.lean ====
section
/-! SUPPORT. Sample memory: a word read back is the word written, other words stay, and every operation keeps the canonical
form (R11, R47, R49, log 5). -/

namespace Sys2Proof.Machine

/-- Word indices rise strictly. -/
abbrev Memory.Sorted (m : Memory) : Prop := m.Pairwise (fun c d => c.1 < d.1)

theorem read_of_lt_head (e : Nat) (m : Memory) (a : Nat) (h : ∀ c ∈ m, a < c.1) : Memory.read e m a = .held e a := by
  induction m with
  | nil => rfl
  | cons c m ih =>
    have := h c (by simp)
    simp only [Memory.read, if_neg this.ne, ih fun d hd => h d (by simp [hd])]

/-- Writing word `a` leaves every other word as it was. -/
theorem read_write_other (e : Nat) (m : Memory) (a b : Nat) (v : Num) (h : b ≠ a) :
    Memory.read e (Memory.write e m a v) b = Memory.read e m b := by
  induction m with
  | nil => unfold Memory.write; split <;> simp [Memory.read, h]
  | cons c m ih =>
    obtain ⟨d, w⟩ := c
    unfold Memory.write
    split_ifs with h1 h2 h3 h4
    · rfl
    · simp [Memory.read, h]
    · subst h3; simp [Memory.read, h]
    · subst h3; simp [Memory.read, h]
    · simp [Memory.read, ih]

/-- Writing word `a` of a sorted memory makes it read as the value written. -/
theorem read_write_same (e : Nat) (m : Memory) (a : Nat) (v : Num) (hm : Memory.Sorted m) :
    Memory.read e (Memory.write e m a v) a = v := by
  induction m with
  | nil => unfold Memory.write; split <;> simp_all [Memory.read]
  | cons c m ih =>
    obtain ⟨d, w⟩ := c
    rw [Memory.Sorted, List.pairwise_cons] at hm
    unfold Memory.write
    split_ifs with h1 h2 h3 h4
    · rw [h2]
      refine read_of_lt_head e _ a fun c hc => ?_
      rcases List.mem_cons.mp hc with rfl | hc
      · exact h1
      · exact h1.trans (hm.1 c hc)
    · simp [Memory.read]
    · subst h3
      rw [h4]
      exact read_of_lt_head e _ a fun c hc => hm.1 c hc
    · simp [Memory.read]
    · simp [Memory.read, h3, ih hm.2]

theorem mem_write {e : Nat} {m : Memory} {a : Nat} {v : Num} {c : Nat × Num} (h : c ∈ Memory.write e m a v) :
    (c = (a, v) ∧ v ≠ .held e a) ∨ c ∈ m := by
  induction m with
  | nil => unfold Memory.write at h; split at h <;> simp_all
  | cons d m ih =>
    obtain ⟨d, w⟩ := d
    unfold Memory.write at h
    split_ifs at h with h1 h2 h3 h4
    · exact .inr h
    · rcases List.mem_cons.mp h with h | h
      · exact .inl ⟨h, h2⟩
      · exact .inr h
    · exact .inr (List.mem_cons_of_mem _ h)
    · rcases List.mem_cons.mp h with h | h
      · exact .inl ⟨h, h4⟩
      · exact .inr (List.mem_cons_of_mem _ h)
    · rcases List.mem_cons.mp h with h | h
      · exact .inr (by simp [h])
      · rcases ih h with h | h
        · exact .inl h
        · exact .inr (List.mem_cons_of_mem _ h)

theorem write_sorted (e : Nat) (m : Memory) (a : Nat) (v : Num) (hm : Memory.Sorted m) :
    Memory.Sorted (Memory.write e m a v) := by
  induction m with
  | nil => unfold Memory.write; split <;> simp
  | cons c m ih =>
    obtain ⟨d, w⟩ := c
    have hm' := List.pairwise_cons.mp hm
    unfold Memory.write
    split_ifs with h1 h2 h3 h4
    · exact hm
    · refine List.pairwise_cons.mpr ⟨fun c hc => ?_, hm⟩
      rcases List.mem_cons.mp hc with rfl | hc
      · exact h1
      · exact h1.trans (hm'.1 c hc)
    · exact hm'.2
    · subst h3; exact List.pairwise_cons.mpr hm'
    · refine List.pairwise_cons.mpr ⟨fun c hc => ?_, ih hm'.2⟩
      rcases mem_write hc with ⟨rfl, _⟩ | hc
      · exact lt_of_le_of_ne (not_lt.mp h1) (Ne.symm h3)
      · exact hm'.1 c hc

/-- A write below SM_WORDS keeps the canonical form. -/
theorem write_wf (size e : Nat) (m : Memory) (a : Nat) (v : Num) (ha : a < size) (hm : Memory.wf size e m) :
    Memory.wf size e (Memory.write e m a v) := by
  refine ⟨write_sorted e m a v hm.1, fun c hc => ?_⟩
  rcases mem_write hc with ⟨rfl, h⟩ | hc
  · exact ⟨ha, h⟩
  · exact hm.2 c hc

/-- A block written below SM_WORDS keeps the canonical form. -/
theorem writeBlock_wf (size e : Nat) (vs : List Num) : ∀ (m : Memory) (a : Nat), a + vs.length ≤ size →
    Memory.wf size e m → Memory.wf size e (Memory.writeBlock e m a vs) := by
  induction vs with
  | nil => exact fun m a _ hm => hm
  | cons v vs ih =>
    intro m a ha hm
    rw [List.length_cons] at ha
    exact ih _ _ (by omega) (write_wf size e m a v (by omega) hm)

/-- A block write leaves every word outside the block as it was. -/
theorem read_writeBlock_other (e : Nat) (vs : List Num) : ∀ (m : Memory) (a b : Nat), b < a ∨ a + vs.length ≤ b →
    Memory.read e (Memory.writeBlock e m a vs) b = Memory.read e m b := by
  induction vs with
  | nil => exact fun m a b _ => rfl
  | cons v vs ih =>
    intro m a b hb
    rw [List.length_cons] at hb
    rw [Memory.writeBlock, ih _ _ _ (by omega), read_write_other e m a b v (by omega)]

/-- Word `i` of a block written to a sorted memory reads back. -/
theorem read_writeBlock_same (e : Nat) (vs : List Num) : ∀ (m : Memory) (a i : Nat) (hi : i < vs.length),
    Memory.Sorted m → Memory.read e (Memory.writeBlock e m a vs) (a + i) = vs[i] := by
  induction vs with
  | nil => intro m a i hi; simp at hi
  | cons v vs ih =>
    intro m a i hi hm
    rw [Memory.writeBlock]
    cases i with
    | zero =>
      rw [read_writeBlock_other e vs _ _ _ (by omega)]
      simpa using read_write_same e m a v hm
    | succ i =>
      have := ih (Memory.write e m a v) (a + 1) i (by simpa using hi) (write_sorted e m a v hm)
      rw [show a + (i + 1) = a + 1 + i by omega, this]
      simp

/-- Sample memory after a hardware reset has its canonical form. -/
theorem init_wf (c : Params) : Memory.wf c.smWords (State.init c).epoch (State.init c).sm :=
  ⟨List.Pairwise.nil, fun c h => by simp [State.init] at h⟩

@[simp] theorem memRead_length (s : State) (a n : Nat) : (s.memRead a n).length = n := by simp [State.memRead]

/-- What a block write does to one word of a state's sample memory, in one lemma. -/
theorem readSM_memWrite (s : State) (a b : Nat) (vs : List Num) (hm : Memory.wf s.cfg.smWords s.epoch s.sm) :
    (s.memWrite a vs).readSM b = if h : a ≤ b ∧ b < a + vs.length then vs[b - a]'(by omega) else s.readSM b := by
  unfold State.readSM
  simp only [memWrite_sm, memWrite_epoch]
  split
  next h =>
    have := read_writeBlock_same s.epoch vs s.sm a (b - a) (by omega) hm.1
    rwa [Nat.add_sub_cancel' h.1] at this
  next h => exact read_writeBlock_other s.epoch vs s.sm a b (by omega)

end Sys2Proof.Machine
end

