-- ==== Sys2Proof/Laws/Effects.lean ====
section
/-! SUPPORT. Everything a command, a host access and a step can do, each said once (R57, R109, R112). -/

namespace Sys2Proof.Machine

/-- The command passes its own checks at `s`, and its effect there is `t` (before BUSY <- 0, DONE <- 1). -/
def Instr.Runs (i : Instr) (s t : State) : Prop :=
  match i with
  | .nop _ => t = s
  | .genLpk _ => genLpkCheck s = none ∧ t = genLpkEffect s
  | .firSetk u => firSetkCheck s = none ∧ t = firSetkEffect u s
  | .firRun u => firBlockCheck u s = none ∧ t = firRunEffect u s
  | .firLoad u => firBlockCheck u s = none ∧ t = firLoadEffect u s
  | .firGet u => firGetCheck u s = none ∧ t = firGetEffect u s
  | .firGdly u => firConfiguredCheck u s = none ∧ t = firGdlyEffect u s
  | .firClr u => firConfiguredCheck u s = none ∧ t = firClrEffect u s
  | .shfCfg u => shfCfgCheck s = none ∧ t = shfCfgEffect u s
  | .shfRun u => shfRunCheck u s = none ∧ t = shfRunEffect u s
  | .rdsCfg u => downCfgCheck s = none ∧ t = rdsCfgEffect u s
  | .rdsRun u => rdsRunCheck u s = none ∧ t = rdsRunEffect u s
  | .cdsCfg u => downCfgCheck s = none ∧ t = cdsCfgEffect u s
  | .cdsRun u => cdsRunCheck u s = none ∧ t = cdsRunEffect u s
  | .fmdCfg u => fmdCfgCheck s = none ∧ t = fmdCfgEffect u s
  | .fmdRun u => fmdRunCheck u s = none ∧ t = fmdRunEffect u s
  | .amdCfg u => amdCfgCheck s = none ∧ t = amdCfgEffect u s
  | .amdRun u => amdRunCheck u s = none ∧ t = amdRunEffect u s
  | .ssbCfg u => ssbCfgCheck s = none ∧ t = ssbCfgEffect u s
  | .ssbRun u => ssbRunCheck u s = none ∧ t = ssbRunEffect u s
  | .stsCfg u => stsCfgCheck s = none ∧ t = stsCfgEffect u s
  | .stsRun u => stsRunCheck u s = none ∧ t = stsRunEffect u s
  | .demCfg u => tauCfgCheck s = none ∧ t = demCfgEffect u s
  | .demRun u => inPlaceCheck (s.demUnit u).configured s = none ∧ t = demRunEffect u s
  | .agcCfg u => tauCfgCheck s = none ∧ t = agcCfgEffect u s
  | .agcRun u => inPlaceCheck (s.agcUnit u).configured s = none ∧ t = agcRunEffect u s
  | .dcbCfg u => tauCfgCheck s = none ∧ t = dcbCfgEffect u s
  | .dcbRun u => inPlaceCheck (s.dcbUnit u).configured s = none ∧ t = dcbRunEffect u s
  | .pwrRun _ => pwrRunCheck s = none ∧ t = pwrRunEffect s
  | .pwrSnr _ => pwrSnrCheck s = none ∧ t = pwrSnrEffect s
  | .srst _ => t = s.softReset

/-- No check of a command reports the cause NONE. -/
theorem firstFault_ne {l : List (Bool × Cause)} (h : ∀ x ∈ l, x.2 ≠ .none) : firstFault l ≠ some .none := by
  induction l with
  | nil => simp
  | cons x l ih =>
    obtain ⟨b, c⟩ := x
    rw [firstFault_cons]
    split
    · exact fun e => h (b, c) (by simp) (by simpa using e)
    · exact ih fun y hy => h y (by simp [hy])

theorem orElse_ne {o p : Option Cause} (ho : o ≠ some .none) (hp : p ≠ some .none) : (o <|> p) ≠ some .none := by
  cases o <;> simp_all

theorem check_ne (u : UnitIdx) (c : Bool) (s : State) :
    genLpkCheck s ≠ some .none ∧ firSetkCheck s ≠ some .none ∧ firBlockCheck u s ≠ some .none ∧
    firGetCheck u s ≠ some .none ∧ firConfiguredCheck u s ≠ some .none ∧ shfCfgCheck s ≠ some .none ∧
    shfRunCheck u s ≠ some .none ∧ downCfgCheck s ≠ some .none ∧ rdsRunCheck u s ≠ some .none ∧
    cdsRunCheck u s ≠ some .none ∧ fmdCfgCheck s ≠ some .none ∧ fmdRunCheck u s ≠ some .none ∧
    amdCfgCheck s ≠ some .none ∧ amdRunCheck u s ≠ some .none ∧ ssbCfgCheck s ≠ some .none ∧
    ssbRunCheck u s ≠ some .none ∧ stsCfgCheck s ≠ some .none ∧ stsRunCheck u s ≠ some .none ∧
    tauCfgCheck s ≠ some .none ∧ inPlaceCheck c s ≠ some .none ∧ pwrRunCheck s ≠ some .none ∧
    pwrSnrCheck s ≠ some .none := by
  refine ⟨orElse_ne (firstFault_ne ?_) (firstFault_ne ?_), firstFault_ne ?_, firstFault_ne ?_, firstFault_ne ?_,
    firstFault_ne ?_, firstFault_ne ?_, firstFault_ne ?_, orElse_ne (firstFault_ne ?_) (firstFault_ne ?_), firstFault_ne ?_,
    firstFault_ne ?_, firstFault_ne ?_, firstFault_ne ?_, firstFault_ne ?_, firstFault_ne ?_, firstFault_ne ?_,
    firstFault_ne ?_, firstFault_ne ?_, firstFault_ne ?_, firstFault_ne ?_, firstFault_ne ?_, firstFault_ne ?_,
    firstFault_ne ?_⟩ <;> simp

theorem runCommand_ne {i : Instr} {s t : State} {check : Option Cause} {effect : State → State}
    (h : runCommand i s check effect = .next t) (hc : check ≠ some .none) :
    (∃ c, c ≠ .none ∧ t = s.faulted c (encode i)) ∨ (i.ValidFor s.cfg ∧ check = none ∧ t = (effect s).complete) := by
  rcases runCommand_cases h with ⟨_, h⟩ | ⟨_, c, h1, h2⟩ | h
  · exact .inl ⟨_, by decide, h⟩
  · exact .inl ⟨c, fun e => hc (e ▸ h1), h2⟩
  · exact .inr h

/-- Everything a command can do: it faults, or it passes its checks and completes with its effect. -/
theorem exec_cases {i : Instr} {s t : State} (h : exec i s = .next t) :
    (∃ c, c ≠ .none ∧ t = s.faulted c (encode i)) ∨
    (i.ValidFor s.cfg ∧ ∃ v, Instr.Runs i s v ∧ t = v.complete) := by
  have hc := check_ne i.unit
  cases i
  case nop u =>
    rcases runCommand_ne h (by simp) with h | ⟨hw, _, h⟩
    exacts [.inl h, .inr ⟨hw, _, rfl, h⟩]
  case srst u =>
    rcases runCommand_ne h (by simp) with h | ⟨hw, _, h⟩
    exacts [.inl h, .inr ⟨hw, _, rfl, h⟩]
  all_goals
    rcases runCommand_ne h (by first
      | exact (hc true s).1 | exact (hc true s).2.1 | exact (hc true s).2.2.1 | exact (hc true s).2.2.2.1
      | exact (hc true s).2.2.2.2.1 | exact (hc true s).2.2.2.2.2.1 | exact (hc true s).2.2.2.2.2.2.1
      | exact (hc true s).2.2.2.2.2.2.2.1 | exact (hc true s).2.2.2.2.2.2.2.2.1
      | exact (hc true s).2.2.2.2.2.2.2.2.2.1 | exact (hc true s).2.2.2.2.2.2.2.2.2.2.1
      | exact (hc true s).2.2.2.2.2.2.2.2.2.2.2.1 | exact (hc true s).2.2.2.2.2.2.2.2.2.2.2.2.1
      | exact (hc true s).2.2.2.2.2.2.2.2.2.2.2.2.2.1 | exact (hc true s).2.2.2.2.2.2.2.2.2.2.2.2.2.2.1
      | exact (hc true s).2.2.2.2.2.2.2.2.2.2.2.2.2.2.2.1 | exact (hc true s).2.2.2.2.2.2.2.2.2.2.2.2.2.2.2.2.1
      | exact (hc true s).2.2.2.2.2.2.2.2.2.2.2.2.2.2.2.2.2.1 | exact (hc true s).2.2.2.2.2.2.2.2.2.2.2.2.2.2.2.2.2.2.1
      | exact (hc _ s).2.2.2.2.2.2.2.2.2.2.2.2.2.2.2.2.2.2.2.1 | exact (hc true s).2.2.2.2.2.2.2.2.2.2.2.2.2.2.2.2.2.2.2.2.1
      | exact (hc true s).2.2.2.2.2.2.2.2.2.2.2.2.2.2.2.2.2.2.2.2.2) with h | ⟨hw, hk, h⟩
    exacts [.inl h, .inr ⟨hw, _, ⟨hk, rfl⟩, h⟩]

/-- Everything a host write can do (R109). -/
theorem hostWrite_cases (s : State) (addr : BusAddr) (wd : Nat) (v : Word) :
    (∃ c, c ≠ .none ∧ s.hostWrite addr wd v = s.busFault c addr) ∨ s.hostWrite addr wd v = s ∨
    s.hostWrite addr wd v = s.statusW1C v ∨
    s.hostWrite addr wd v = { s with fie := v.getLsbD 0, die := v.getLsbD 1 } ∨
    (s.busy = false ∧ s.hostWrite addr wd v = s.cmdWrite v) ∨
    (s.busy = false ∧ ∃ i : Fin 8, s.hostWrite addr wd v = { s with A := s.A.set i.1 v i.2 }) ∨
    (s.busy = false ∧ ∃ (i : Fin 4) (p : DWord), s.hostWrite addr wd v = { s with P := s.P.set i.1 p i.2 }) ∨
    (s.busy = false ∧ finite32 v = true ∧ ∃ i, i < s.cfg.smWords ∧
      s.hostWrite addr wd v = { s with sm := Memory.write s.epoch s.sm i (Prim.lit s.cfg.num (value32 v)) }) := by
  unfold State.hostWrite
  split
  · exact .inl ⟨.bus, by decide, rfl⟩
  · split
    · rename_i i hi
      split
      · exact .inl ⟨.busy, by decide, rfl⟩
      · rename_i hb
        split
        · exact .inl ⟨.nonfinite, by decide, rfl⟩
        · rename_i hf
          refine .inr (.inr (.inr (.inr (.inr (.inr (.inr ⟨by simpa using hb, by simpa using hf, i, ?_, rfl⟩))))))
          unfold target at hi
          split at hi
          · rename_i ha
            cases hi
            omega
          · split at hi
            · split at hi <;> cases hi
            · cases hi
    · rename_i r hr
      clear hr
      unfold State.regWrite
      cases r <;> dsimp only
      case id => exact .inr (.inl rfl)
      case status => exact .inr (.inr (.inl rfl))
      case ctrl => exact .inr (.inr (.inr (.inl rfl)))
      case cmd =>
        split
        · exact .inl ⟨.busy, by decide, rfl⟩
        · exact .inr (.inr (.inr (.inr (.inl ⟨by simpa using ‹¬ s.busy = true›, rfl⟩))))
      case a i =>
        split
        · exact .inl ⟨.busy, by decide, rfl⟩
        · exact .inr (.inr (.inr (.inr (.inr (.inl ⟨by simpa using ‹¬ s.busy = true›, i, rfl⟩)))))
      case pLo i =>
        split
        · exact .inl ⟨.busy, by decide, rfl⟩
        · exact .inr (.inr (.inr (.inr (.inr (.inr (.inl ⟨by simpa using ‹¬ s.busy = true›, i, _, rfl⟩))))))
      case pHi i =>
        split
        · exact .inl ⟨.busy, by decide, rfl⟩
        · exact .inr (.inr (.inr (.inr (.inr (.inr (.inl ⟨by simpa using ‹¬ s.busy = true›, i, _, rfl⟩))))))
      all_goals
        split
        · exact .inl ⟨.busy, by decide, rfl⟩
        · exact .inr (.inl rfl)
    · exact .inl ⟨.bus, by decide, rfl⟩

/-- Everything the engine's turn can do (R112). -/
theorem engineTurn_cases {s t : State} (h : engineTurn s = .next t) :
    t = s ∨ (∃ c w, c ≠ .none ∧ t = s.faulted c w) ∨
    ∃ i v, decode s.pending = .ok i ∧ i.ValidFor s.cfg ∧ Instr.Runs i s v ∧ t = v.complete := by
  unfold engineTurn at h
  split at h
  · unfold engineStep at h
    split at h
    · rename_i i hi
      rcases exec_cases h with ⟨c, hc, h⟩ | ⟨hw, v, hv, h⟩
      · exact .inr (.inl ⟨c, _, hc, h⟩)
      · exact .inr (.inr ⟨i, v, hi, hw, hv, h⟩)
    · rename_i r _
      cases h
      exact .inr (.inl ⟨_, _, by cases r <;> decide, rfl⟩)
  · cases h; exact .inl rfl

/-- Everything a step can do: the engine's turn, a host write, a host read or a hardware reset, at the state with the events
still to come after it. -/
theorem step_cases {s t : State} (h : step s = .next t) :
    ∃ es, (engineTurn { s with events := es } = .next t) ∨
      (∃ addr wd v, t = State.hostWrite { s with events := es } addr wd v) ∨
      (∃ addr wd, t = { (State.hostRead { s with events := es } addr wd).2 with
        rdata := (State.hostRead { s with events := es } addr wd).1 }) ∨
      t = State.hardReset { s with events := es } := by
  unfold step at h
  split at h
  · rename_i he
    exact ⟨[], .inl (by rw [← he]; exact h)⟩
  · rename_i e es _
    refine ⟨es, ?_⟩
    unfold eventStep at h
    cases e with
    | write addr wd v => cases h; exact .inr (.inl ⟨addr, wd, v, rfl⟩)
    | read addr wd => cases h; exact .inr (.inr (.inl ⟨addr, wd, rfl⟩))
    | hardReset => cases h; exact .inr (.inr (.inr rfl))
    | engine => exact .inl h

/-- An invariant that every kind of change keeps is kept by every step (R57). -/
theorem kept_of (Inv : State → Prop)
    (hev : ∀ s es, Inv s → Inv { s with events := es })
    (hf : ∀ s c w, Inv s → c ≠ .none → Inv (s.faulted c w))
    (hx : ∀ s i v, Inv s → i.ValidFor s.cfg → Instr.Runs i s v → Inv v.complete)
    (hbf : ∀ s c a, Inv s → c ≠ .none → Inv (s.busFault c a))
    (hst : ∀ s v, Inv s → Inv (s.statusW1C v))
    (hct : ∀ s a b, Inv s → Inv { s with fie := a, die := b })
    (hfv : ∀ s, s.fault = true → Inv s → Inv { s with fovf := true })
    (hcm : ∀ s w, Inv s → Inv { s with pending := w, busy := true })
    (hA : ∀ s A, Inv s → Inv { s with A := A })
    (hP : ∀ s P, Inv s → Inv { s with P := P })
    (hs : ∀ s i q, Inv s → i < s.cfg.smWords → Inv { s with sm := Memory.write s.epoch s.sm i (Prim.lit s.cfg.num q) })
    (hr : ∀ s v, Inv s → Inv { s with rdata := v })
    (hh : ∀ s, Inv s → Inv s.hardReset) : Kept Inv := by
  intro s t hs0 h
  obtain ⟨es, h⟩ := step_cases h
  have h0 := hev s es hs0
  rcases h with h | ⟨addr, wd, v, rfl⟩ | ⟨addr, wd, rfl⟩ | rfl
  · rcases engineTurn_cases h with rfl | ⟨c, w, hc, rfl⟩ | ⟨i, v, _, hw, hv, rfl⟩
    · exact h0
    · exact hf _ _ _ h0 hc
    · exact hx _ _ _ h0 hw hv
  · rcases hostWrite_cases { s with events := es } addr wd v with ⟨c, hc, h⟩ | h | h | h | ⟨_, h⟩ | ⟨_, i, h⟩ | ⟨_, i, p, h⟩ | ⟨_, _, i, hi, h⟩
    · rw [h]; exact hbf _ _ _ h0 hc
    · rw [h]; exact h0
    · rw [h]; exact hst _ _ h0
    · rw [h]; exact hct _ _ _ h0
    · rw [h]; rcases cmdWrite_cases { s with events := es } v with ⟨h1, _, h⟩ | ⟨_, h⟩
      · rw [h]; exact hfv _ h1 h0
      · rw [h]; exact hcm _ _ h0
    · rw [h]; exact hA _ _ h0
    · rw [h]; exact hP _ _ h0
    · rw [h]; exact hs _ _ _ h0 hi
  · rcases hostRead_cases { s with events := es } addr wd with h | ⟨c, hc, h⟩
    · rw [h]; exact hr _ _ h0
    · rw [h]; exact hr _ _ (hbf _ _ _ h0 hc)
  · exact hh _ h0

end Sys2Proof.Machine
end

