-- ==== Sys2Proof/Laws/Ieee.lean ====
section
/-! SUPPORT. The patterns the host reads: `floatPattern` and the enclosures give the pattern of the exact value, and that pattern is
`binaryN_RNE` of it (R52, log 4). -/

namespace Sys2Proof.Machine

/-! Rounding to an integer -/

theorem pow2_eq (z : Int) : ((pow2 z : ℚ) : ℝ) = (2 : ℝ) ^ z := by
  unfold pow2
  split
  next h =>
    obtain ⟨n, rfl⟩ := Int.eq_ofNat_of_zero_le h
    simp
  next h =>
    obtain ⟨n, hn⟩ := Int.eq_ofNat_of_zero_le (show 0 ≤ -z by omega)
    have : z = -(n : Int) := by omega
    subst this
    simp

/-- Everything rounding to an integer does: the result is within a half, and even if it is a half away. -/
theorem realRoundEven_spec (v : ℝ) :
    |(realRoundEven v : ℝ) - v| ≤ 1 / 2 ∧ (|(realRoundEven v : ℝ) - v| = 1 / 2 → realRoundEven v % 2 = 0) := by
  have h0 := Int.floor_le v
  have h1 := Int.lt_floor_add_one v
  unfold realRoundEven
  split_ifs with a b c
  · rw [abs_of_nonpos (by linarith)]
    exact ⟨by linarith, fun h => by linarith⟩
  · push_cast
    rw [abs_of_nonneg (by linarith)]
    exact ⟨by linarith, fun h => by linarith⟩
  · rw [abs_of_nonpos (by linarith)]
    exact ⟨by linarith, fun _ => c⟩
  · push_cast
    rw [abs_of_nonneg (by linarith)]
    exact ⟨by linarith, fun _ => by omega⟩

/-- The rounded integer is as near as any other, and even if another is as near. -/
theorem realRoundEven_nearest (v : ℝ) (k : Int) :
    |(realRoundEven v : ℝ) - v| ≤ |(k : ℝ) - v| ∧
    (k ≠ realRoundEven v → |(realRoundEven v : ℝ) - v| = |(k : ℝ) - v| → realRoundEven v % 2 = 0) := by
  obtain ⟨h1, h2⟩ := realRoundEven_spec v
  generalize realRoundEven v = m at *
  by_cases h : k = m
  · subst h; exact ⟨le_rfl, fun h => absurd rfl h⟩
  · have hk : (1 : ℝ) ≤ |(k : ℝ) - m| := by
      have : 1 ≤ |k - m| := Int.one_le_abs (sub_ne_zero.mpr h)
      exact_mod_cast this
    have ht : |(k : ℝ) - m| ≤ |(k : ℝ) - v| + |(m : ℝ) - v| := by
      have := abs_sub_abs_le_abs_sub ((k : ℝ) - m) ((k : ℝ) - v)
      rw [show (k : ℝ) - m - (k - v) = -(m - v) by ring, abs_neg] at this
      linarith
    exact ⟨by linarith, fun _ he => h2 (by linarith)⟩

theorem realRoundEven_int (k : Int) : realRoundEven k = k := by
  have h := (realRoundEven_spec (k : ℝ)).1
  have : |(realRoundEven (k : ℝ) - k : Int)| < 1 := by
    have : |((realRoundEven (k : ℝ) - k : Int) : ℝ)| < 1 := by push_cast; linarith
    exact_mod_cast this
  rw [abs_lt] at this
  omega

theorem realRoundEven_mono {v w : ℝ} (h : v ≤ w) : realRoundEven v ≤ realRoundEven w := by
  by_contra hc
  have hc : realRoundEven w + 1 ≤ realRoundEven v := by omega
  have hr : (realRoundEven w : ℝ) + 1 ≤ realRoundEven v := by exact_mod_cast hc
  obtain ⟨h1, h2⟩ := realRoundEven_spec v
  obtain ⟨h3, h4⟩ := realRoundEven_spec w
  have a1 := abs_le.mp h1
  have a3 := abs_le.mp h3
  have e : (realRoundEven v : ℝ) - v = 1 / 2 ∧ (realRoundEven w : ℝ) - w = -(1 / 2) := by constructor <;> linarith [a1.1, a1.2, a3.1, a3.2]
  have k1 := h2 (by rw [e.1]; norm_num)
  have k2 := h4 (by rw [e.2]; norm_num)
  have : (realRoundEven v : ℝ) = realRoundEven w + 1 := by linarith [e.1, e.2]
  have : realRoundEven v = realRoundEven w + 1 := by exact_mod_cast this
  omega

/-! Magnitudes, in units of the least subnormal -/

/-- The binade of `y`, counted from the subnormals' (0). -/
noncomputable def binade (fb : Nat) (y : ℝ) : Nat := Nat.log2 ⌊y / 2 ^ fb⌋.toNat

/-- The pattern of the magnitude `y`, without a bound on the exponent. -/
noncomputable def magPattern (fb : Nat) (y : ℝ) : Nat :=
  binade fb y * 2 ^ fb + (realRoundEven (y / 2 ^ binade fb y)).toNat

/-- The magnitude of a pattern. -/
def magValue (fb n : Nat) : Nat := if n / 2 ^ fb = 0 then n else (2 ^ fb + n % 2 ^ fb) * 2 ^ (n / 2 ^ fb - 1)

theorem binade_spec (fb : Nat) {y : ℝ} (hy : 0 ≤ y) :
    y < 2 ^ fb * 2 ^ (binade fb y + 1) ∧ (binade fb y = 0 ∨ (2 : ℝ) ^ fb * 2 ^ binade fb y ≤ y) := by
  have hf : (0 : ℝ) < 2 ^ fb := by positivity
  have h0 : 0 ≤ y / 2 ^ fb := by positivity
  have hfl : 0 ≤ ⌊y / 2 ^ fb⌋ := Int.floor_nonneg.mpr h0
  obtain ⟨n, hn⟩ := Int.eq_ofNat_of_zero_le hfl
  have hlt := Int.lt_floor_add_one (y / 2 ^ fb)
  have hle := Int.floor_le (y / 2 ^ fb)
  have hb : binade fb y = Nat.log2 n := by simp [binade, hn]
  rw [hn] at hlt hle
  push_cast at hlt hle
  rw [hb]
  constructor
  · have h1 : n + 1 ≤ 2 ^ (Nat.log2 n + 1) := Nat.lt_log2_self
    have h2 : ((n : ℝ) + 1) ≤ 2 ^ (Nat.log2 n + 1) := by exact_mod_cast h1
    rw [← div_lt_iff₀' hf]
    linarith
  · by_cases h : n = 0
    · left; subst h; simp
    · right
      have h1 : 2 ^ Nat.log2 n ≤ n := Nat.log2_self_le h
      have h2 : (2 : ℝ) ^ Nat.log2 n ≤ n := by exact_mod_cast h1
      rw [← le_div_iff₀' hf]
      linarith

/-- The rounded fraction lies within its binade, ends included. -/
theorem mantissa_bounds (fb : Nat) {y : ℝ} (hy : 0 ≤ y) :
    0 ≤ realRoundEven (y / 2 ^ binade fb y) ∧ realRoundEven (y / 2 ^ binade fb y) ≤ 2 ^ (fb + 1) ∧
    (binade fb y = 0 ∨ (2 : Int) ^ fb ≤ realRoundEven (y / 2 ^ binade fb y)) := by
  obtain ⟨h1, h2⟩ := binade_spec fb hy
  generalize binade fb y = e at *
  have he : (0 : ℝ) < 2 ^ e := by positivity
  refine ⟨?_, ?_, ?_⟩
  · have := realRoundEven_mono (show ((0 : Int) : ℝ) ≤ y / 2 ^ e by push_cast; positivity)
    rwa [realRoundEven_int] at this
  · have := realRoundEven_mono (show y / 2 ^ e ≤ ((2 ^ (fb + 1) : Int) : ℝ) by
      push_cast; rw [div_le_iff₀ he]; rw [pow_succ] at h1 ⊢; linarith)
    rwa [realRoundEven_int] at this
  · refine h2.imp id fun h2 => ?_
    have := realRoundEven_mono (show ((2 ^ fb : Int) : ℝ) ≤ y / 2 ^ e by
      push_cast; rwa [le_div_iff₀ he])
    rwa [realRoundEven_int] at this

theorem binade_mono (fb : Nat) {y z : ℝ} (hy : 0 ≤ y) (h : y ≤ z) : binade fb y ≤ binade fb z := by
  by_contra hc
  obtain ⟨h1, _⟩ := binade_spec fb (hy.trans h)
  obtain ⟨_, h2⟩ := binade_spec fb hy
  have h2 := h2.resolve_left (by omega)
  have : (2 : ℝ) ^ (binade fb z + 1) ≤ 2 ^ binade fb y := pow_le_pow_right₀ (by norm_num) (by omega)
  have := mul_le_mul_of_nonneg_left this (show (0 : ℝ) ≤ 2 ^ fb by positivity)
  linarith

theorem magPattern_mono (fb : Nat) {y z : ℝ} (hy : 0 ≤ y) (h : y ≤ z) : magPattern fb y ≤ magPattern fb z := by
  have hb := binade_mono fb hy h
  obtain ⟨a0, a1, _⟩ := mantissa_bounds fb hy
  obtain ⟨b0, _, b1⟩ := mantissa_bounds fb (hy.trans h)
  unfold magPattern
  rcases Nat.lt_or_eq_of_le hb with hb | hb
  · have b1 := b1.resolve_left (by omega)
    have c1 : (realRoundEven (y / 2 ^ binade fb y)).toNat ≤ 2 ^ (fb + 1) := by
      have := Int.toNat_le_toNat a1; simpa using this
    have c2 : 2 ^ fb ≤ (realRoundEven (z / 2 ^ binade fb z)).toNat := by
      exact (Int.le_toNat b0).mpr (by exact_mod_cast b1)
    have : (binade fb y + 1) * 2 ^ fb ≤ binade fb z * 2 ^ fb := Nat.mul_le_mul_right _ hb
    rw [pow_succ] at c1
    nlinarith
  · rw [hb]
    have : realRoundEven (y / 2 ^ binade fb z) ≤ realRoundEven (z / 2 ^ binade fb z) :=
      realRoundEven_mono (div_le_div_of_nonneg_right h (by positivity))
    have := Int.toNat_le_toNat this
    omega

/-- The magnitude of the pattern is the rounded fraction in its binade. -/
theorem magValue_magPattern (fb : Nat) {y : ℝ} (hy : 0 ≤ y) :
    (magValue fb (magPattern fb y) : ℝ) = realRoundEven (y / 2 ^ binade fb y) * 2 ^ binade fb y := by
  obtain ⟨h0, h1, h2⟩ := mantissa_bounds fb hy
  unfold magPattern
  generalize binade fb y = e at *
  generalize realRoundEven (y / 2 ^ e) = m at *
  obtain ⟨k, rfl⟩ := Int.eq_ofNat_of_zero_le h0
  have h1 : k ≤ 2 ^ (fb + 1) := by exact_mod_cast h1
  have h2 : e = 0 ∨ 2 ^ fb ≤ k := by exact_mod_cast h2
  have hp : 0 < 2 ^ fb := by positivity
  have key : magValue fb (e * 2 ^ fb + k) = k * 2 ^ e := by
    unfold magValue
    rw [pow_succ] at h1
    rcases Nat.lt_or_ge k (2 ^ fb) with hk | hk
    · have he : e = 0 := h2.resolve_right (by omega)
      subst he
      simp [Nat.div_eq_of_lt hk]
    · rcases Nat.lt_or_ge k (2 ^ fb * 2) with hk2 | hk2
      · have e1 : e * 2 ^ fb + k = (k - 2 ^ fb) + 2 ^ fb * (e + 1) := by
          rw [Nat.mul_add, Nat.mul_comm e]; omega
        have hl : k - 2 ^ fb < 2 ^ fb := by omega
        rw [e1, Nat.add_mul_div_left _ _ hp, Nat.add_mul_mod_self_left, Nat.div_eq_of_lt hl, Nat.mod_eq_of_lt hl,
          if_neg (by omega), show 2 ^ fb + (k - 2 ^ fb) = k by omega]
        simp
      · have hk3 : k = 2 ^ fb * 2 := by omega
        subst hk3
        have e1 : e * 2 ^ fb + 2 ^ fb * 2 = 2 ^ fb * (e + 2) := by ring
        rw [e1, Nat.mul_div_cancel_left _ hp, Nat.mul_mod_right, if_neg (by omega)]
        simp [pow_succ]; ring
  rw [show ((k : Int)).toNat = k from rfl, key]
  push_cast; rfl

/-- A pattern's magnitude is a multiple of the binade's step, or smaller than the binade. -/
theorem magValue_grid (fb e n : Nat) : (∃ k : Nat, magValue fb n = k * 2 ^ e) ∨ (magValue fb n < 2 ^ fb * 2 ^ e ∧ e ≠ 0) := by
  unfold magValue
  split_ifs with h
  · have hn : n < 2 ^ fb := by
      rcases Nat.div_eq_zero_iff.mp h with h | h
      · simp at h
      · exact h
    by_cases he : e = 0
    · exact .inl ⟨n, by simp [he]⟩
    · refine .inr ⟨lt_of_lt_of_le hn (Nat.le_mul_of_pos_right _ (by positivity)), he⟩
  · rcases Nat.lt_or_ge (n / 2 ^ fb - 1) e with hl | hg
    · right
      refine ⟨?_, by omega⟩
      have hm : n % 2 ^ fb < 2 ^ fb := Nat.mod_lt _ (by positivity)
      calc (2 ^ fb + n % 2 ^ fb) * 2 ^ (n / 2 ^ fb - 1) < 2 ^ fb * 2 * 2 ^ (n / 2 ^ fb - 1) :=
            Nat.mul_lt_mul_of_pos_right (by omega) (by positivity)
        _ = 2 ^ fb * 2 ^ (n / 2 ^ fb - 1 + 1) := by rw [pow_succ]; ring
        _ ≤ 2 ^ fb * 2 ^ e := Nat.mul_le_mul_left _ (Nat.pow_le_pow_right (by norm_num) (by omega))
    · left
      refine ⟨(2 ^ fb + n % 2 ^ fb) * 2 ^ (n / 2 ^ fb - 1 - e), ?_⟩
      rw [mul_assoc, ← pow_add]
      congr 2; omega

/-- The rounded magnitude is as near as any pattern's, with an even last bit if another is as near. -/
theorem magPattern_nearest (fb : Nat) (hfb : 1 ≤ fb) {y : ℝ} (hy : 0 ≤ y) (n : Nat) :
    |(magValue fb (magPattern fb y) : ℝ) - y| ≤ |(magValue fb n : ℝ) - y| ∧
    (magValue fb n ≠ magValue fb (magPattern fb y) →
      |(magValue fb (magPattern fb y) : ℝ) - y| = |(magValue fb n : ℝ) - y| → magPattern fb y % 2 = 0) := by
  have hv := magValue_magPattern fb hy
  obtain ⟨hm0, _, _⟩ := mantissa_bounds fb hy
  obtain ⟨_, hb⟩ := binade_spec fb hy
  have heven : realRoundEven (y / 2 ^ binade fb y) % 2 = 0 → magPattern fb y % 2 = 0 := by
    intro h
    unfold magPattern
    obtain ⟨j, rfl⟩ : ∃ j, fb = j + 1 := ⟨fb - 1, by omega⟩
    have : binade (j + 1) y * 2 ^ (j + 1) = 2 * (binade (j + 1) y * 2 ^ j) := by rw [pow_succ]; ring
    omega
  have he : (0 : ℝ) < 2 ^ binade fb y := by positivity
  have hs : ∀ k : Int, |(k : ℝ) * 2 ^ binade fb y - y| = |(k : ℝ) - y / 2 ^ binade fb y| * 2 ^ binade fb y := by
    intro k
    rw [← abs_of_pos he, ← abs_mul, abs_of_pos he, sub_mul, div_mul_cancel₀ _ he.ne']
  have hn := realRoundEven_nearest (y / 2 ^ binade fb y)
  rw [hv]
  rcases magValue_grid fb (binade fb y) n with ⟨k, hk⟩ | ⟨hk, hk0⟩
  · have hk' : (magValue fb n : ℝ) = ((k : Int) : ℝ) * 2 ^ binade fb y := by rw [hk]; push_cast; rfl
    rw [hk', hs, hs]
    obtain ⟨n1, n2⟩ := hn (k : Int)
    refine ⟨mul_le_mul_of_nonneg_right n1 he.le, fun hne heq => heven (n2 ?_ (mul_right_cancel₀ he.ne' heq))⟩
    rintro h
    apply hne
    have : (magValue fb n : ℝ) = magValue fb (magPattern fb y) := by rw [hk', hv, ← h]
    exact_mod_cast this
  · have hb := hb.resolve_left hk0
    have hlt : (magValue fb n : ℝ) < 2 ^ fb * 2 ^ binade fb y := by exact_mod_cast hk
    obtain ⟨n1, _⟩ := hn (2 ^ fb)
    have hc := mul_le_mul_of_nonneg_right n1 he.le
    rw [← hs, ← hs] at hc
    push_cast at hc
    rw [abs_of_nonpos (show (2 : ℝ) ^ fb * 2 ^ binade fb y - y ≤ 0 by linarith)] at hc
    rw [abs_of_nonpos (show (magValue fb n : ℝ) - y ≤ 0 by linarith)]
    exact ⟨by linarith, fun _ heq => by linarith⟩

/-- From half a step below `2^fb` times a power of two on, the pattern reaches that power's exponent, and not before. -/
theorem magPattern_lt_iff (fb g : Nat) {y : ℝ} (hy : 0 ≤ y) :
    magPattern fb y < (g + 2) * 2 ^ fb ↔ y < 2 ^ fb * 2 ^ (g + 1) - 2 ^ g / 2 := by
  have hg : (0 : ℝ) < 2 ^ g := by positivity
  have hf1 : (1 : ℝ) ≤ 2 ^ fb := one_le_pow₀ (by norm_num)
  constructor
  · intro h
    by_contra hc
    have hc : (2 : ℝ) ^ fb * 2 ^ (g + 1) - 2 ^ g / 2 ≤ y := not_lt.mp hc
    -- the pattern at the bound
    have hy0 : (0 : ℝ) ≤ 2 ^ fb * 2 ^ (g + 1) - 2 ^ g / 2 := by
      rw [pow_succ]; nlinarith
    have hm := magPattern_mono fb hy0 hc
    have hbin : binade fb (2 ^ fb * 2 ^ (g + 1) - 2 ^ g / 2) = g := by
      obtain ⟨s1, s2⟩ := binade_spec fb hy0
      generalize binade fb ((2 : ℝ) ^ fb * 2 ^ (g + 1) - 2 ^ g / 2) = e at *
      rcases Nat.lt_trichotomy e g with h | h | h
      · exfalso
        have : (2 : ℝ) ^ (e + 1) ≤ 2 ^ g := pow_le_pow_right₀ (by norm_num) (by omega)
        have := mul_le_mul_of_nonneg_left this (show (0 : ℝ) ≤ 2 ^ fb by positivity)
        rw [pow_succ (2 : ℝ) g] at s1
        nlinarith
      · exact h
      · exfalso
        have s2 := s2.resolve_left (by omega)
        have : (2 : ℝ) ^ (g + 1) ≤ 2 ^ e := pow_le_pow_right₀ (by norm_num) (by omega)
        have := mul_le_mul_of_nonneg_left this (show (0 : ℝ) ≤ 2 ^ fb by positivity)
        nlinarith
    have hr : realRoundEven ((2 ^ fb * 2 ^ (g + 1) - 2 ^ g / 2) / 2 ^ g) = 2 ^ (fb + 1) := by
      have e1 : ((2 : ℝ) ^ fb * 2 ^ (g + 1) - 2 ^ g / 2) / 2 ^ g = 2 ^ (fb + 1) - 1 / 2 := by
        rw [pow_succ, pow_succ]; field_simp
      rw [e1]
      obtain ⟨r1, r2⟩ := realRoundEven_spec ((2 : ℝ) ^ (fb + 1) - 1 / 2)
      generalize realRoundEven ((2 : ℝ) ^ (fb + 1) - 1 / 2) = m at *
      have a := abs_le.mp r1
      have u : m ≤ 2 ^ (fb + 1) := by
        have : (m : ℝ) ≤ ((2 ^ (fb + 1) : Int) : ℝ) := by push_cast; linarith [a.2]
        exact_mod_cast this
      have l : 2 ^ (fb + 1) - 1 ≤ m := by
        have : ((2 ^ (fb + 1) - 1 : Int) : ℝ) ≤ (m : ℝ) := by push_cast; linarith [a.1]
        exact_mod_cast this
      have hpe : (2 : Int) ^ (fb + 1) = 2 * 2 ^ fb := by rw [pow_succ]; ring
      rcases (show m = 2 ^ (fb + 1) ∨ m = 2 ^ (fb + 1) - 1 by omega) with h | h
      · exact h
      · exfalso
        have := r2 (by rw [h]; push_cast; rw [show (2 : ℝ) ^ (fb + 1) - 1 - (2 ^ (fb + 1) - 1 / 2) = -(1 / 2) by ring]; norm_num)
        omega
    have : magPattern fb (2 ^ fb * 2 ^ (g + 1) - 2 ^ g / 2) = (g + 2) * 2 ^ fb := by
      unfold magPattern
      rw [hbin, hr]
      have : ((2 : Int) ^ (fb + 1)).toNat = 2 ^ (fb + 1) := by
        have : ((2 : Int) ^ (fb + 1)) = ((2 ^ (fb + 1) : Nat) : Int) := by push_cast; rfl
        rw [this]; rfl
      rw [this, pow_succ]; ring
    omega
  · intro h
    have hlt : y < 2 ^ fb * 2 ^ (g + 1) := by linarith
    have hbg : binade fb y ≤ g := by
      by_contra hc
      obtain ⟨_, s2⟩ := binade_spec fb hy
      have s2 := s2.resolve_left (by omega)
      have : (2 : ℝ) ^ (g + 1) ≤ 2 ^ binade fb y := pow_le_pow_right₀ (by norm_num) (by omega)
      have := mul_le_mul_of_nonneg_left this (show (0 : ℝ) ≤ 2 ^ fb by positivity)
      linarith
    obtain ⟨m0, m1, _⟩ := mantissa_bounds fb hy
    unfold magPattern
    rcases Nat.lt_or_eq_of_le hbg with hb | hb
    · have c1 : (realRoundEven (y / 2 ^ binade fb y)).toNat ≤ 2 ^ (fb + 1) := by
        have := Int.toNat_le_toNat m1; simpa using this
      rw [pow_succ] at c1
      have : (binade fb y + 1) * 2 ^ fb ≤ g * 2 ^ fb := Nat.mul_le_mul_right _ hb
      have : 0 < 2 ^ fb := by positivity
      nlinarith
    · rw [hb] at m0 m1 ⊢
      have r1 := (realRoundEven_spec (y / 2 ^ g)).1
      have hq : y / 2 ^ g < 2 ^ (fb + 1) - 1 / 2 := by
        rw [div_lt_iff₀ hg]; rw [pow_succ] at h ⊢; nlinarith
      have a := abs_le.mp r1
      generalize realRoundEven (y / 2 ^ g) = m at *
      have u : m < 2 ^ (fb + 1) := by
        have : (m : ℝ) < ((2 ^ (fb + 1) : Int) : ℝ) := by push_cast; linarith [a.2]
        exact_mod_cast this
      have c : m.toNat < 2 ^ (fb + 1) := by
        have : (m.toNat : Int) < ((2 ^ (fb + 1) : Nat) : Int) := by rw [Int.toNat_of_nonneg m0]; push_cast; exact u
        exact_mod_cast this
      rw [pow_succ] at c
      have : (g + 2) * 2 ^ fb = g * 2 ^ fb + 2 ^ fb * 2 := by ring
      omega

/-! Patterns -/

/-- The value of a pattern is the magnitude of its low bits, in units of the least subnormal, with the sign of its top bit. -/
theorem floatValue_eq (eb fb n : Nat) (h : n < 2 ^ (1 + eb + fb)) :
    (floatValue eb fb n : ℝ) = (if n < 2 ^ (eb + fb) then 1 else -1) *
      ((magValue fb (n % 2 ^ (eb + fb)) : ℝ) * 2 ^ (1 - floatBias eb - fb)) := by
  have hd : n % 2 ^ (eb + fb) / 2 ^ fb = n / 2 ^ fb % 2 ^ eb := by
    rw [Nat.add_comm eb, pow_add, Nat.mod_mul_right_div_self]
  have hm : n % 2 ^ (eb + fb) % 2 ^ fb = n % 2 ^ fb :=
    Nat.mod_mod_of_dvd _ (pow_dvd_pow 2 (by omega))
  have hs : n / 2 ^ (fb + eb) % 2 = 1 ↔ ¬ n < 2 ^ (eb + fb) := by
    rw [Nat.add_comm fb]
    have : n < 2 * 2 ^ (eb + fb) := by rw [← pow_succ']; rwa [show eb + fb + 1 = 1 + eb + fb by omega]
    rcases Nat.lt_or_ge n (2 ^ (eb + fb)) with h | h
    · simp [Nat.div_eq_of_lt h, h]
    · have : n / 2 ^ (eb + fb) = 1 := Nat.div_eq_of_lt_le (by omega) (by omega)
      simp [this, h]
  have hmag : (((if n / 2 ^ fb % 2 ^ eb = 0 then ((n % 2 ^ fb : Nat) : ℚ) * pow2 (1 - floatBias eb - fb)
      else ((2 ^ fb + n % 2 ^ fb : Nat) : ℚ) * pow2 ((n / 2 ^ fb % 2 ^ eb : Nat) - floatBias eb - fb) : ℚ)) : ℝ) =
      (magValue fb (n % 2 ^ (eb + fb)) : ℝ) * 2 ^ (1 - floatBias eb - fb) := by
    unfold magValue
    rw [hd, hm]
    split_ifs with h0
    · have : n % 2 ^ (eb + fb) = n % 2 ^ fb := by
        rw [← hm]
        have h1 : n % 2 ^ (eb + fb) / 2 ^ fb = 0 := hd.trans h0
        rcases Nat.div_eq_zero_iff.mp h1 with h1 | h1
        · simp at h1
        · exact (Nat.mod_eq_of_lt h1).symm
      rw [this]
      push_cast [pow2_eq]
      rfl
    · generalize n / 2 ^ fb % 2 ^ eb = e at *
      push_cast [pow2_eq]
      rw [mul_assoc]
      congr 1
      rw [← zpow_natCast, ← zpow_add₀ (by norm_num)]
      congr 1
      omega
  unfold floatValue
  dsimp only
  by_cases h2 : n < 2 ^ (eb + fb)
  · rw [if_neg (fun h1 => hs.mp h1 h2), hmag, if_pos h2, one_mul]
  · rw [if_pos (hs.mpr h2), Rat.cast_neg, hmag, if_neg h2, neg_one_mul]

theorem floatFinite_iff (eb fb n : Nat) : floatFinite eb fb n = true ↔ n % 2 ^ (eb + fb) < (2 ^ eb - 1) * 2 ^ fb := by
  have hd : n % 2 ^ (eb + fb) / 2 ^ fb = n / 2 ^ fb % 2 ^ eb := by
    rw [Nat.add_comm eb, pow_add, Nat.mod_mul_right_div_self]
  have hp : 0 < 2 ^ fb := by positivity
  have hl : n / 2 ^ fb % 2 ^ eb < 2 ^ eb := Nat.mod_lt _ (by positivity)
  rw [← Nat.div_lt_iff_lt_mul hp, hd, floatFinite, bne_iff_ne]
  omega

/-- A real number's magnitude in units of the least subnormal. -/
noncomputable def units (eb fb : Nat) (x : ℝ) : ℝ := |x| * 2 ^ (fb + floatBias eb - 1)

theorem units_nonneg (eb fb : Nat) (x : ℝ) : 0 ≤ units eb fb x := by unfold units; positivity

theorem units_mul (eb fb : Nat) (x : ℝ) : units eb fb x * 2 ^ (1 - floatBias eb - fb) = |x| := by
  unfold units
  rw [mul_assoc, ← zpow_add₀ (by norm_num), show (fb : Int) + floatBias eb - 1 + (1 - floatBias eb - fb) = 0 by ring]
  simp

theorem realPattern_eq (eb fb : Nat) (x : ℝ) : realPattern eb fb x =
    let pat := Min.min (magPattern fb (units eb fb x)) ((2 ^ eb - 1) * 2 ^ fb)
    if pat = 0 then 0 else if x < 0 then 2 ^ (eb + fb) + pat else pat := by
  have hb : binade fb (units eb fb x) = Nat.log2 ⌊|x| * (pow2 (floatBias eb - 1) : ℝ)⌋.toNat := by
    unfold binade units
    rw [pow2_eq, mul_div_assoc, ← zpow_natCast (2 : ℝ) fb, ← zpow_sub₀ (by norm_num)]
    congr 5
    ring
  unfold realPattern magPattern
  rw [hb]
  generalize Nat.log2 ⌊|x| * (pow2 (floatBias eb - 1) : ℝ)⌋.toNat = e
  have : |x| * ((pow2 (fb + floatBias eb - 1 - e) : ℚ) : ℝ) = units eb fb x / 2 ^ e := by
    unfold units
    rw [pow2_eq, mul_div_assoc, ← zpow_natCast (2 : ℝ) e, ← zpow_sub₀ (by norm_num)]
  simp only [this]

/-- A pattern of a real number between two others that have one pattern is that pattern. -/
theorem realPattern_between (eb fb : Nat) {x y z : ℝ} (h1 : x ≤ y) (h2 : y ≤ z)
    (h : realPattern eb fb x = realPattern eb fb z) : realPattern eb fb y = realPattern eb fb x := by
  have hp : (2 ^ eb - 1) * 2 ^ fb < 2 ^ (eb + fb) := by
    rw [pow_add]; exact Nat.mul_lt_mul_of_pos_right (Nat.sub_lt (by positivity) (by norm_num)) (by positivity)
  have mono : ∀ a b : ℝ, |a| ≤ |b| → Min.min (magPattern fb (units eb fb a)) ((2 ^ eb - 1) * 2 ^ fb) ≤
      Min.min (magPattern fb (units eb fb b)) ((2 ^ eb - 1) * 2 ^ fb) := fun a b hab =>
    min_le_min_right _ (magPattern_mono fb (units_nonneg _ _ _) (mul_le_mul_of_nonneg_right hab (by positivity)))
  have lt : ∀ a : ℝ, Min.min (magPattern fb (units eb fb a)) ((2 ^ eb - 1) * 2 ^ fb) < 2 ^ (eb + fb) := fun a =>
    lt_of_le_of_lt (min_le_right _ _) hp
  have lx := lt x
  have ly := lt y
  have lz := lt z
  have hxz : |y| ≤ |x| ∨ |y| ≤ |z| := by
    rcases abs_le_max_abs_abs h1 h2 |> le_max_iff.mp with h | h
    · exact .inl h
    · exact .inr h
  have m1 : y ≤ 0 → |y| ≤ |x| := fun h => by rw [abs_of_nonpos h, abs_of_nonpos (h1.trans h)]; linarith
  have m2 : z ≤ 0 → |z| ≤ |y| := fun h => by rw [abs_of_nonpos h, abs_of_nonpos (h2.trans h)]; linarith
  have m3 : 0 ≤ y → |y| ≤ |z| := fun h => by rw [abs_of_nonneg h, abs_of_nonneg (h.trans h2)]; linarith
  have m4 : 0 ≤ x → |x| ≤ |y| := fun h => by rw [abs_of_nonneg h, abs_of_nonneg (h.trans h1)]; linarith
  have k1 := mono y x
  have k2 := mono y z
  have k3 := mono z y
  have k4 := mono x y
  simp only [realPattern_eq] at h ⊢
  generalize Min.min (magPattern fb (units eb fb x)) ((2 ^ eb - 1) * 2 ^ fb) = X at *
  generalize Min.min (magPattern fb (units eb fb y)) ((2 ^ eb - 1) * 2 ^ fb) = Y at *
  generalize Min.min (magPattern fb (units eb fb z)) ((2 ^ eb - 1) * 2 ^ fb) = Z at *
  rcases lt_or_ge y 0 with hy | hy
  · have a1 := k1 (m1 hy.le)
    have hx : x < 0 := h1.trans_lt hy
    simp only [hx, hy, if_true] at h ⊢
    rcases lt_or_ge z 0 with hz | hz
    · have a3 := k3 (m2 hz.le)
      simp only [hz, if_true] at h
      split_ifs at h ⊢ <;> omega
    · simp only [not_lt.mpr hz, if_false] at h
      split_ifs at h ⊢ <;> omega
  · have a2 := k2 (m3 hy)
    have hz : 0 ≤ z := hy.trans h2
    simp only [not_lt.mpr hz, not_lt.mpr hy, if_false] at h ⊢
    rcases lt_or_ge x 0 with hx | hx
    · simp only [hx, if_true] at h ⊢
      split_ifs at h ⊢ <;> omega
    · have a4 := k4 (m4 hx)
      simp only [not_lt.mpr hx, if_false] at h ⊢
      split_ifs at h ⊢ <;> omega

theorem roundEven_eq (q : ℚ) : roundEven q = realRoundEven (q : ℝ) := by
  have hf : ⌊(q : ℝ)⌋ = q.floor := by rw [Rat.floor_cast]; rfl
  unfold roundEven realRoundEven
  rw [hf]
  have e : (q : ℝ) - (q.floor : ℝ) = ((q - q.floor : ℚ) : ℝ) := by push_cast; rfl
  rw [e]
  have c1 : (((q - q.floor : ℚ) : ℝ) < 1 / 2) ↔ q - q.floor < 1 / 2 := by
    rw [show (1 / 2 : ℝ) = ((1 / 2 : ℚ) : ℝ) by norm_num]; exact Rat.cast_lt
  have c2 : ((1 / 2 : ℝ) < ((q - q.floor : ℚ) : ℝ)) ↔ 1 / 2 < q - q.floor := by
    rw [show (1 / 2 : ℝ) = ((1 / 2 : ℚ) : ℝ) by norm_num]; exact Rat.cast_lt
  simp only [c1, c2]

theorem floatPattern_eq (eb fb : Nat) (q : ℚ) : floatPattern eb fb q = realPattern eb fb (q : ℝ) := by
  have ha : |(q : ℝ)| = (((if q < 0 then -q else q) : ℚ) : ℝ) := by
    split_ifs with h
    · rw [abs_of_neg (by exact_mod_cast h)]; push_cast; rfl
    · rw [abs_of_nonneg (by exact_mod_cast not_lt.mp h)]
  have hn : (q : ℝ) < 0 ↔ q < 0 := by exact_mod_cast Iff.rfl
  unfold floatPattern realPattern
  simp only [hn, ha, ← Rat.cast_mul, ← roundEven_eq, Rat.floor_cast]
  rfl

theorem patternAt_sound (eb fb p : Nat) (a : Num) (n : Nat) (h : patternAt eb fb p a = some n) :
    n = realPattern eb fb a.toReal := by
  unfold patternAt at h
  split at h
  next e he =>
    dsimp only at h
    split at h
    next hx =>
      cases h
      obtain ⟨s1, s2⟩ := enclose_sound p a e he
      have hp : (0 : ℝ) < 2 ^ p := by positivity
      rw [floatPattern_eq, floatPattern_eq] at hx
      rw [floatPattern_eq]
      refine (realPattern_between eb fb ?_ ?_ hx).symm
      · push_cast; rwa [div_le_iff₀ hp]
      · push_cast; rwa [le_div_iff₀ hp]
    next => cases h
  next => cases h

/-- The pattern the host reads of a number is that of its exact value (R52, log 4). -/
theorem patternOf_eq (eb fb : Nat) (a : Num) : patternOf eb fb a = realPattern eb fb a.toReal := by
  unfold patternOf
  split
  next q hq =>
    rw [floatPattern_eq]
    congr 1
    unfold asRat? at hq
    split at hq
    · split_ifs at hq with hk
      cases hq; subst hk; simp [Num.toReal]
    · cases hq; rfl
    · cases hq; rfl
    · cases hq
  next =>
    split
    next n hn => exact patternAt_sound _ _ _ _ _ hn
    next =>
      split
      next n hn => exact patternAt_sound _ _ _ _ _ hn
      next => exact (undecidedPattern eb fb a fine).2

/-- Everything a pattern says about the real number (R52): it is `binaryN_RNE` of it. -/
theorem realPattern_rne (eb fb : Nat) (x : ℝ) (hf : 1 ≤ fb) (hb : fb + 2 ≤ 2 ^ (eb - 1)) (he : 2 ≤ eb) :
    Rne eb fb (realPattern eb fb x) x := by
  obtain ⟨B, hB⟩ : ∃ B, B = 2 ^ (eb - 1) := ⟨_, rfl⟩
  have hB2 : 2 ^ eb = 2 * B := by rw [hB, ← pow_succ', Nat.sub_add_cancel (by omega)]
  have hB1 : 2 ≤ B := by omega
  have hbias : floatBias eb = (B : Int) - 1 := by unfold floatBias; rw [hB]; push_cast; rfl
  set big : ℝ := 2 ^ 2 ^ (eb - 1) - 2 ^ (2 ^ (eb - 1) - fb - 2) with hbig
  obtain ⟨g, hg⟩ : ∃ g, 2 * B = g + 3 := ⟨2 * B - 3, by omega⟩
  have hp : (2 ^ eb - 1) * 2 ^ fb = (g + 2) * 2 ^ fb := by rw [hB2]; congr 1; omega
  have hC : (2 ^ eb - 1) * 2 ^ fb < 2 ^ (eb + fb) := by
    rw [pow_add]; exact Nat.mul_lt_mul_of_pos_right (Nat.sub_lt (by positivity) (by norm_num)) (by positivity)
  have hS : 2 ^ (1 + eb + fb) = 2 * 2 ^ (eb + fb) := by rw [← pow_succ']; congr 1; omega
  have hu : (0 : ℝ) < 2 ^ (1 - floatBias eb - fb) := by positivity
  have hy := units_nonneg eb fb x
  have hub : ((2 : ℝ) ^ fb * 2 ^ (g + 1) - 2 ^ g / 2) * 2 ^ (1 - floatBias eb - fb) = big := by
    have z2 : (2 : ℝ) ≠ 0 := by norm_num
    rw [hbig, ← hB, hbias, show (2 : ℝ) ^ g / 2 = 2 ^ ((g : Int) - 1) by rw [zpow_sub₀ z2]; simp, sub_mul, ← zpow_natCast,
      ← zpow_natCast (2 : ℝ) (g + 1), ← zpow_add₀ z2, ← zpow_add₀ z2, ← zpow_add₀ z2, ← zpow_natCast (2 : ℝ) B,
      ← zpow_natCast (2 : ℝ) (B - fb - 2)]
    congr 2 <;> push_cast <;> omega
  have hlt : magPattern fb (units eb fb x) < (2 ^ eb - 1) * 2 ^ fb ↔ |x| < big := by
    rw [hp, magPattern_lt_iff fb g hy, ← hub, ← units_mul eb fb x, mul_lt_mul_iff_left₀ hu]
  have hnear := fun n => magPattern_nearest fb hf hy n
  rw [realPattern_eq]
  dsimp only
  have zero : x = 0 → magPattern fb (units eb fb x) = 0 := by
    rintro rfl
    have hz : units eb fb 0 = 0 := by simp [units]
    rw [hz]
    have h0 := realRoundEven_int 0
    simp only [Int.cast_zero] at h0
    simp [magPattern, binade, h0]
  refine ⟨?_, ?_, ?_, ?_, ?_⟩
  · have : Min.min (magPattern fb (units eb fb x)) ((2 ^ eb - 1) * 2 ^ fb) ≤ (2 ^ eb - 1) * 2 ^ fb := min_le_right _ _
    split_ifs <;> omega
  · intro hx
    have hx := hlt.mpr hx
    rw [min_eq_left hx.le]
    generalize hT : magPattern fb (units eb fb x) = T at *
    have hTm : T % 2 ^ (eb + fb) = T := Nat.mod_eq_of_lt (by omega)
    -- the pattern, its low bits and its value
    obtain ⟨P, hP⟩ : ∃ P, P = (if T = 0 then 0 else if x < 0 then 2 ^ (eb + fb) + T else T) := ⟨_, rfl⟩
    rw [← hP]
    have hPl : P < 2 ^ (1 + eb + fb) := by rw [hP]; split_ifs <;> omega
    have hPm : P % 2 ^ (eb + fb) = T := by
      rw [hP]; split_ifs with h1 h2
      · simp [h1]
      · rw [Nat.add_mod_left, hTm]
      · exact hTm
    have hP2 : P % 2 = T % 2 := by
      have : 2 ^ (eb + fb) % 2 = 0 := by
        obtain ⟨j, hj⟩ : ∃ j, eb + fb = j + 1 := ⟨eb + fb - 1, by omega⟩
        rw [hj, pow_succ]; omega
      rw [hP]; split_ifs with h1 h2 <;> omega
    have hv : |(floatValue eb fb P : ℝ) - x| = |(magValue fb T : ℝ) - units eb fb x| * 2 ^ (1 - floatBias eb - fb) := by
      rw [floatValue_eq _ _ _ hPl, hPm, ← abs_of_pos hu, ← abs_mul, abs_of_pos hu, sub_mul, units_mul]
      have m0 : magValue fb 0 = 0 := by simp [magValue]
      rcases lt_or_ge x 0 with h | h
      · rw [abs_of_neg h]
        by_cases h0 : T = 0
        · rw [h0, m0]; simp [abs_neg, abs_of_neg h]
        · have : ¬ P < 2 ^ (eb + fb) := by rw [hP, if_neg h0, if_pos h]; omega
          rw [if_neg this, ← abs_neg]; congr 1; ring
      · rw [abs_of_nonneg h]
        have : P < 2 ^ (eb + fb) := by
          rw [hP]; split_ifs with h1 h2
          · positivity
          · exact absurd h2 (not_lt.mpr h)
          · omega
        rw [if_pos this]; congr 1; ring
    refine ⟨by rw [floatFinite_iff, hPm]; exact hx, fun p hpl hpf => ?_⟩
    obtain ⟨n1, n2⟩ := hnear (p % 2 ^ (eb + fb))
    have hvp := floatValue_eq eb fb p hpl
    generalize hq : p % 2 ^ (eb + fb) = q at *
    rw [hv]
    have n1' := mul_le_mul_of_nonneg_right n1 hu.le
    -- the same magnitude on the sign of x is at least as near
    have hw : |(magValue fb q : ℝ) - units eb fb x| * 2 ^ (1 - floatBias eb - fb) ≤ |(floatValue eb fb p : ℝ) - x| := by
      rw [← abs_of_pos hu, ← abs_mul, sub_mul, units_mul, hvp]
      have v0 : 0 ≤ (magValue fb q : ℝ) * 2 ^ (1 - floatBias eb - fb) := by positivity
      generalize (magValue fb q : ℝ) * 2 ^ (1 - floatBias eb - fb) = v at *
      refine (abs_abs_sub_abs_le _ _).trans' (le_of_eq ?_)
      congr 1
      split_ifs
      · rw [one_mul, abs_of_nonneg v0]
      · rw [neg_one_mul, abs_neg, abs_of_nonneg v0]
    refine ⟨n1'.trans hw, fun hne heq => ?_⟩
    rw [hP2]
    have hxx : |(magValue fb T : ℝ) - units eb fb x| = |(magValue fb q : ℝ) - units eb fb x| :=
      mul_right_cancel₀ hu.ne' (le_antisymm n1' (hw.trans heq.ge))
    by_cases hmq : magValue fb q = magValue fb T
    · -- the same magnitude with the other sign: only 0 is as near
      exfalso
      have hvP := floatValue_eq eb fb P hPl
      rw [hPm] at hvP
      rw [hmq] at hvp
      have hneR : (floatValue eb fb p : ℝ) ≠ (floatValue eb fb P : ℝ) := fun h => hne (by exact_mod_cast h)
      rw [← hv] at heq
      generalize hvd : (magValue fb T : ℝ) * 2 ^ (1 - floatBias eb - fb) = v at *
      have v0 : 0 ≤ v := by rw [← hvd]; positivity
      generalize (floatValue eb fb p : ℝ) = a at *
      generalize hvb : (floatValue eb fb P : ℝ) = b at *
      have hab : a = -b := by
        split_ifs at hvp hvP
        · exact absurd (hvp.trans hvP.symm) hneR
        · linarith
        · linarith
        · exact absurd (hvp.trans hvP.symm) hneR
      subst hab
      have hb0 : b ≠ 0 := fun h => hneR (by rw [h]; simp)
      have hx0 : x = 0 := by
        rcases abs_eq_abs.mp heq with h | h
        · exact absurd (by linarith) hb0
        · linarith
      have hz := zero hx0
      rw [hz] at hvd
      apply hb0
      have : v = 0 := by rw [← hvd]; simp [magValue]
      rw [hvP, this, mul_zero]
    · exact n2 hmq hxx
  · intro hx
    have h0 : 0 < big := by
      rw [hbig, sub_pos]; exact pow_lt_pow_right₀ (by norm_num) (by omega)
    have hge : ¬ |x| < big := by rw [abs_of_nonneg (h0.le.trans hx)]; exact not_lt.mpr hx
    have := not_lt.mp (fun h => hge (hlt.mp h))
    have hpos : 0 < (2 ^ eb - 1) * 2 ^ fb := by rw [hp]; positivity
    rw [min_eq_right this, if_neg (by omega), if_neg (not_lt.mpr (h0.le.trans hx))]
  · intro hx
    have h0 : 0 < big := by
      rw [hbig, sub_pos]; exact pow_lt_pow_right₀ (by norm_num) (by omega)
    have hneg : x < 0 := by linarith
    have hge : ¬ |x| < big := by rw [abs_of_neg hneg]; linarith
    have := not_lt.mp (fun h => hge (hlt.mp h))
    have hpos : 0 < (2 ^ eb - 1) * 2 ^ fb := by rw [hp]; positivity
    rw [min_eq_right this, if_neg (by omega), if_pos hneg]
  · intro hx
    rw [zero hx]; simp

/-- Magnitudes rise with their patterns. -/
theorem magValue_lt (fb n : Nat) : magValue fb n < magValue fb (n + 1) := by
  have hp : 0 < 2 ^ fb := by positivity
  have hm := Nat.div_add_mod n (2 ^ fb)
  have hl : n % 2 ^ fb < 2 ^ fb := Nat.mod_lt _ hp
  generalize hq : n / 2 ^ fb = q at *
  generalize hr : n % 2 ^ fb = r at *
  have key : ∀ q r, r < 2 ^ fb → magValue fb (2 ^ fb * q + r) = if q = 0 then r else (2 ^ fb + r) * 2 ^ (q - 1) := by
    intro q r h
    unfold magValue
    rw [Nat.mul_add_div hp, Nat.div_eq_of_lt h, Nat.mul_add_mod, Nat.mod_eq_of_lt h]
    simp only [Nat.add_zero]
    split_ifs with h0
    · subst h0; simp
    · rfl
  rw [← hm, key q r hl]
  rcases Nat.lt_or_ge (r + 1) (2 ^ fb) with h | h
  · rw [Nat.add_assoc, key q (r + 1) h]
    split_ifs
    · omega
    · exact Nat.mul_lt_mul_of_pos_right (by omega) (by positivity)
  · have h1 : r + 1 = 2 ^ fb := by omega
    rw [Nat.add_assoc, h1, show 2 ^ fb * q + 2 ^ fb = 2 ^ fb * (q + 1) + 0 by ring, key (q + 1) 0 hp]
    rw [if_neg (Nat.succ_ne_zero q), Nat.add_sub_cancel, Nat.add_zero]
    split_ifs with h0
    · subst h0; omega
    · obtain ⟨k, rfl⟩ : ∃ k, q = k + 1 := ⟨q - 1, by omega⟩
      rw [Nat.add_sub_cancel, pow_succ 2 k, show 2 ^ fb * (2 ^ k * 2) = (2 ^ fb * 2) * 2 ^ k by ring]
      exact Nat.mul_lt_mul_of_pos_right (by omega) (by positivity)

theorem magValue_injective (fb : Nat) : Function.Injective (magValue fb) := (strictMono_nat_of_lt_succ (magValue_lt fb)).injective

/-- The pattern of a finite pattern's value is the pattern, but for -0, whose value's pattern is +0 (R14, R52). -/
theorem realPattern_floatValue (eb fb n : Nat) (hfb : 1 ≤ fb) (h : n < 2 ^ (1 + eb + fb)) (hf : floatFinite eb fb n = true) :
    realPattern eb fb (floatValue eb fb n) = if n = 2 ^ (eb + fb) then 0 else n := by
  have hs : (0 : ℝ) < 2 ^ (1 - floatBias eb - fb) := by positivity
  have hv := floatValue_eq eb fb n h
  set x : ℝ := (floatValue eb fb n : ℝ) with hx
  have habs : |x| = (magValue fb (n % 2 ^ (eb + fb)) : ℝ) * 2 ^ (1 - floatBias eb - fb) := by
    rw [hv, abs_mul, abs_of_nonneg (a := (magValue fb (n % 2 ^ (eb + fb)) : ℝ) * _) (by positivity)]
    split_ifs <;> simp
  have hu : units eb fb x = magValue fb (n % 2 ^ (eb + fb)) := by
    have := units_mul eb fb x
    rw [habs] at this
    exact mul_right_cancel₀ hs.ne' this
  have hm : magPattern fb (units eb fb x) = n % 2 ^ (eb + fb) := by
    apply magValue_injective fb
    have := (magPattern_nearest fb hfb (units_nonneg eb fb x) (n % 2 ^ (eb + fb))).1
    rw [hu, sub_self, abs_zero] at this
    have := sub_eq_zero.mp (abs_nonpos_iff.mp this)
    rw [hu]; exact_mod_cast this
  have hlt := (floatFinite_iff eb fb n).mp hf
  have h2 : n < 2 * 2 ^ (eb + fb) := by rw [← pow_succ']; rwa [show eb + fb + 1 = 1 + eb + fb by omega]
  rw [realPattern_eq, hm]
  dsimp only
  rw [Nat.min_eq_left hlt.le]
  have hmag0 : magValue fb 0 = 0 := by simp [magValue]
  rcases Nat.lt_or_ge n (2 ^ (eb + fb)) with hn | hn
  · rw [Nat.mod_eq_of_lt hn, if_neg (by omega : n ≠ 2 ^ (eb + fb))]
    have : ¬ x < 0 := by rw [hv, if_pos hn, one_mul]; exact not_lt.mpr (by positivity)
    simp only [this, if_false]
    split_ifs <;> omega
  · have hmod : n % 2 ^ (eb + fb) = n - 2 ^ (eb + fb) := by
      rw [Nat.mod_eq_sub_mod hn, Nat.mod_eq_of_lt (by omega)]
    rw [hmod] at hlt hv ⊢
    by_cases h0 : n = 2 ^ (eb + fb)
    · simp [h0]
    · rw [if_neg (by omega), if_neg h0]
      have hpos : magValue fb 0 < magValue fb (n - 2 ^ (eb + fb)) := strictMono_nat_of_lt_succ (magValue_lt fb) (by omega)
      have : x < 0 := by
        rw [hv, if_neg (by omega), neg_one_mul, neg_lt_zero]
        have : (0 : ℝ) < magValue fb (n - 2 ^ (eb + fb)) := by exact_mod_cast (hmag0 ▸ hpos)
        exact mul_pos this hs
      rw [if_pos this]; omega

/-- `bits32` is the whole pattern of the exact value. -/
theorem bits32_toNat (a : Num) : (bits32 a).toNat = realPattern 8 23 a.toReal := by
  have := (realPattern_rne 8 23 a.toReal (by norm_num) (by norm_num) (by norm_num)).width
  rw [bits32, BitVec.toNat_ofNat, patternOf_eq]
  exact Nat.mod_eq_of_lt this

/-- `bits64` is the whole pattern of the exact value. -/
theorem bits64_toNat (a : Num) : (bits64 a).toNat = realPattern 11 52 a.toReal := by
  have := (realPattern_rne 11 52 a.toReal (by norm_num) (by norm_num) (by norm_num)).width
  rw [bits64, BitVec.toNat_ofNat, patternOf_eq]
  exact Nat.mod_eq_of_lt this

end Sys2Proof.Machine
end

