-- ==== Sys2Proof/Laws/PerInstr.lean ====
section
/-! SUPPORT. What holds of every command as syntax, one lemma per constructor. Family `Fields`: the word of a command holds its
operation code, its unit index and zeros in the three fields of R62. -/

namespace Sys2Proof.Laws

theorem fields_of_append (o u : BitVec 6) :
    opcOf (o ++ u ++ 0#20) = o ∧ unitOf (o ++ u ++ 0#20) = u ∧ rsvdOf (o ++ u ++ 0#20) = 0#20 := by
  refine ⟨?_, ?_, ?_⟩ <;> ext i hi <;>
    simp only [opcOf, unitOf, rsvdOf, BitVec.getElem_extractLsb', BitVec.getLsbD_append, BitVec.getLsbD_zero]
  · simp [show ¬ (26 + i < 20) by omega, show ¬ (26 + i - 20 < 6) by omega, show 26 + i - 20 - 6 = i by omega, hi]
  · simp [hi, show ¬ (20 + i < 20) by omega, show 20 + i - 20 = i by omega]
  · simp [hi]

end Sys2Proof.Laws

namespace Sys2Proof.Laws.Fields

def Statement (i : Instr) : Prop := opcOf (encode i) = i.opc ∧ unitOf (encode i) = i.unit ∧ rsvdOf (encode i) = 0#20

theorem nop (u : UnitIdx) : Statement (.nop u) := fields_of_append _ _
theorem genLpk (u : UnitIdx) : Statement (.genLpk u) := fields_of_append _ _
theorem firSetk (u : UnitIdx) : Statement (.firSetk u) := fields_of_append _ _
theorem firRun (u : UnitIdx) : Statement (.firRun u) := fields_of_append _ _
theorem firLoad (u : UnitIdx) : Statement (.firLoad u) := fields_of_append _ _
theorem firGet (u : UnitIdx) : Statement (.firGet u) := fields_of_append _ _
theorem firGdly (u : UnitIdx) : Statement (.firGdly u) := fields_of_append _ _
theorem firClr (u : UnitIdx) : Statement (.firClr u) := fields_of_append _ _
theorem shfCfg (u : UnitIdx) : Statement (.shfCfg u) := fields_of_append _ _
theorem shfRun (u : UnitIdx) : Statement (.shfRun u) := fields_of_append _ _
theorem rdsCfg (u : UnitIdx) : Statement (.rdsCfg u) := fields_of_append _ _
theorem rdsRun (u : UnitIdx) : Statement (.rdsRun u) := fields_of_append _ _
theorem cdsCfg (u : UnitIdx) : Statement (.cdsCfg u) := fields_of_append _ _
theorem cdsRun (u : UnitIdx) : Statement (.cdsRun u) := fields_of_append _ _
theorem fmdCfg (u : UnitIdx) : Statement (.fmdCfg u) := fields_of_append _ _
theorem fmdRun (u : UnitIdx) : Statement (.fmdRun u) := fields_of_append _ _
theorem amdCfg (u : UnitIdx) : Statement (.amdCfg u) := fields_of_append _ _
theorem amdRun (u : UnitIdx) : Statement (.amdRun u) := fields_of_append _ _
theorem ssbCfg (u : UnitIdx) : Statement (.ssbCfg u) := fields_of_append _ _
theorem ssbRun (u : UnitIdx) : Statement (.ssbRun u) := fields_of_append _ _
theorem stsCfg (u : UnitIdx) : Statement (.stsCfg u) := fields_of_append _ _
theorem stsRun (u : UnitIdx) : Statement (.stsRun u) := fields_of_append _ _
theorem demCfg (u : UnitIdx) : Statement (.demCfg u) := fields_of_append _ _
theorem demRun (u : UnitIdx) : Statement (.demRun u) := fields_of_append _ _
theorem agcCfg (u : UnitIdx) : Statement (.agcCfg u) := fields_of_append _ _
theorem agcRun (u : UnitIdx) : Statement (.agcRun u) := fields_of_append _ _
theorem dcbCfg (u : UnitIdx) : Statement (.dcbCfg u) := fields_of_append _ _
theorem dcbRun (u : UnitIdx) : Statement (.dcbRun u) := fields_of_append _ _
theorem pwrRun (u : UnitIdx) : Statement (.pwrRun u) := fields_of_append _ _
theorem pwrSnr (u : UnitIdx) : Statement (.pwrSnr u) := fields_of_append _ _
theorem srst (u : UnitIdx) : Statement (.srst u) := fields_of_append _ _

end Sys2Proof.Laws.Fields
end

