-- ==== Sys2Proof/Laws/Real.lean ====
section
/-! SUPPORT. The exact real values of the building blocks of the commands: kernels, convolution, phases, one-pole steps. -/

namespace Sys2Proof.Machine

@[simp] theorem toReal_twoPi : (twoPi .exact).toReal = 2 * Real.pi := by simp [twoPi, toReal_rat]

/-- R68. -/
theorem toReal_hamming (M n : Nat) :
    (hamming .exact M n).toReal =
      if M = 1 then 1 else 0.54 - 0.46 * Real.cos (2 * Real.pi * n / ((M - 1 : Nat) : ℝ)) := by
  unfold hamming
  split
  · simp [toReal_rat]
  · simp [toReal_rat]; norm_num

/-- R70: the convolution is the sum over the kernel. -/
theorem toReal_conv (h W : List Num) (i : Nat) :
    (conv .exact h W i).toReal =
      ((List.range h.length).map fun k =>
        (h.getD k .zero).toReal * (W.getD (h.length - 1 + i - k) .zero).toReal).sum := by
  simp [conv, Function.comp_def]

@[simp] theorem toReal_poleCoeff (x : Num) : (poleCoeff .exact x).toReal = 1 - Real.exp x.toReal := by
  simp [poleCoeff, toReal_rat]

theorem toReal_cornerCoeff (corner : ℚ) (R : Nat) :
    (cornerCoeff .exact corner R).toReal = 1 - Real.exp (-2 * Real.pi * corner / R) := by
  simp [cornerCoeff, toReal_rat]

@[simp] theorem toReal_onePole (alpha y x : Num) :
    (onePole .exact alpha y x).toReal = y.toReal + alpha.toReal * (x.toReal - y.toReal) := by
  simp [onePole]

theorem toReal_shift (th : Num) (x : Num × Num) :
    (shift .exact th x).1.toReal =
        x.1.toReal * Real.cos (2 * Real.pi * th.toReal) - x.2.toReal * Real.sin (2 * Real.pi * th.toReal) ∧
    (shift .exact th x).2.toReal =
        x.1.toReal * Real.sin (2 * Real.pi * th.toReal) + x.2.toReal * Real.cos (2 * Real.pi * th.toReal) := by
  simp [shift]

theorem toReal_squareMagnitude (x : Num × Num) :
    (squareMagnitude .exact x).toReal = x.1.toReal * x.1.toReal + x.2.toReal * x.2.toReal := by
  simp [squareMagnitude]

theorem toReal_envelope (x : Num × Num) :
    (envelope .exact x).toReal = Real.sqrt (x.1.toReal * x.1.toReal + x.2.toReal * x.2.toReal) := by
  simp [envelope, toReal_squareMagnitude]

theorem toReal_tauAlpha (tau : Num) (R : Nat) :
    (tauAlpha .exact tau R).toReal = 1 - Real.exp (-1 / (tau.toReal * R)) := by
  simp [tauAlpha, toReal_rat]

theorem paramNum_exact {s : State} (h : s.cfg.num = .exact) (i : Fin 4) : s.paramNum i = Prim.lit .exact (s.param i) := by
  rw [State.paramNum, State.num, h]

/-- A parameter register as a number is its exact value in the `EXACT` profile. -/
theorem toReal_paramNum {s : State} (h : s.cfg.num = .exact) (i : Fin 4) : (s.paramNum i).toReal = s.param i := by
  rw [paramNum_exact h, toReal_lit]

@[simp] theorem toReal_half (n : Nat) : (half .exact n).toReal = n / 2 := by simp [half, toReal_rat]

theorem toReal_pilotLimit {c : Params} (h : c.num = .exact) : (pilotLimit c).toReal = 4 * c.pilotHz := by
  simp [pilotLimit, h, toReal_rat]

@[simp] theorem lpkRaws_length (N : Profile) (rate : Nat) (corner : Num) (taps : Nat) :
    (lpkRaws N rate corner taps).length = oddTaps taps := by simp [lpkRaws]

@[simp] theorem lpk_length (N : Profile) (rate : Nat) (corner : Num) (taps : Nat) :
    (lpk N rate corner taps).length = oddTaps taps := by
  simp [lpk]

@[simp] theorem hilbertKernel_length (N : Profile) (taps : Nat) : (hilbertKernel N taps).length = taps := by
  simp [hilbertKernel]

@[simp] theorem zeros_length (n : Nat) : (zeros n).length = n := by simp [zeros]

@[simp] theorem lastN_length (n : Nat) (x : List Num) : (lastN n x).length = min n x.length := by
  simp [lastN]; omega

@[simp] theorem resize_length (H : List Num) (n : Nat) : (resize H n).length = n := by
  unfold resize; split
  · simp; omega
  · simp; omega

theorem shiftBlock_length (N : Profile) (d : Num) (xs : List (Num × Num)) :
    ∀ th, (shiftBlock N d th xs).1.length = xs.length := by
  induction xs with
  | nil => intro th; rfl
  | cons x xs ih => intro th; simp [shiftBlock, ih]

theorem discriminateBlock_length (N : Profile) (Kf : Num) (xs : List (Num × Num)) :
    ∀ prev, (discriminateBlock N Kf prev xs).1.length = xs.length := by
  induction xs with
  | nil => intro prev; rfl
  | cons x xs ih => intro prev; simp [discriminateBlock, ih]

theorem highPassBlock_length (N : Profile) (alpha : Num) (xs : List Num) :
    ∀ dc, (highPassBlock N alpha dc xs).1.length = xs.length := by
  induction xs with
  | nil => intro dc; rfl
  | cons x xs ih => intro dc; simp [highPassBlock, ih]

theorem lowPassBlock_length (N : Profile) (alpha : Num) (xs : List Num) :
    ∀ y, (lowPassBlock N alpha y xs).1.length = xs.length := by
  induction xs with
  | nil => intro y; rfl
  | cons x xs ih => intro y; simp [lowPassBlock, ih]

theorem agcBlock_length (N : Profile) (eps : Num) (xs : List Num) : ∀ U, (agcBlock N eps U xs).1.length = xs.length := by
  induction xs with
  | nil => intro U; rfl
  | cons x xs ih => intro U; simp [agcBlock, ih]

theorem pilotBlock_length (N : Profile) (xs : List Num) : ∀ U, (pilotBlock N U xs).1.length = xs.length := by
  induction xs with
  | nil => intro U; rfl
  | cons x xs ih => intro U; simp [pilotBlock, ih]

end Sys2Proof.Machine
end

