-- ==== Sys2Proof/Laws/Stored.lean ====
section
/-! SUPPORT. From the machine's numbers to the real formulas of Safety.lean: sequences, convolutions and stored blocks (R11, R70). -/

namespace Sys2Proof.Machine

@[simp] theorem realAt_map_range (f : Nat → Num) (n i : Nat) (h : i < n) :
    realAt ((List.range n).map f) i = (f i).toReal := by
  simp [realAt, h]

theorem realAt_getElem (l : List Num) (i : Nat) (h : i < l.length) : realAt l i = l[i].toReal := by
  simp [realAt, h]

@[simp] theorem realAt_memRead (s : State) (a n i : Nat) (h : i < n) : realAt (s.memRead a n) i = s.sample a i :=
  realAt_map_range _ _ _ h

/-- R70: the machine's convolution is the sum of the rule. -/
theorem toReal_conv_eq (M : Nat) (h W : List Num) (i : Nat) (hM : h.length = M) : (conv .exact h W i).toReal = realConv M h W i := by
  rw [toReal_conv, realConv, hM, Finset.sum_range, ← List.sum_ofFn]
  congr 1
  apply List.ext_getElem <;> simp [realAt]

/-- A block write stores its block and nothing else. -/
theorem stored_writeBlock {s : State} (hm : s.MemInv) {base n : Nat} {vs : List Num} {y : Nat → ℝ} (hn : vs.length = n)
    (hy : s.cfg.num = .exact → ∀ i, i < n → realAt vs i = y i) : s.Stored (Memory.writeBlock s.epoch s.sm base vs) base n y := by
  subst hn
  refine ⟨fun hN i hi => ?_, fun a ha => read_writeBlock_other s.epoch vs s.sm base a ha⟩
  rw [read_writeBlock_same s.epoch vs s.sm base i hi hm.1, ← hy hN i hi, realAt_getElem vs i hi]

theorem writeBlock_sorted (e : Nat) (vs : List Num) : ∀ (m : Memory) (a : Nat), Memory.Sorted m →
    Memory.Sorted (Memory.writeBlock e m a vs) := by
  induction vs with
  | nil => exact fun m a hm => hm
  | cons v vs ih => exact fun m a hm => ih _ _ (write_sorted e m a v hm)

/-- Two block writes to disjoint buffers store both blocks and nothing else. -/
theorem stored2_writeBlock {s : State} (hm : s.MemInv) {b1 b2 n : Nat} {v1 v2 : List Num} {y1 y2 : Nat → ℝ}
    (h1 : v1.length = n) (h2 : v2.length = n) (hd : n = 0 ∨ b1 + n ≤ b2 ∨ b2 + n ≤ b1)
    (hy1 : s.cfg.num = .exact → ∀ i, i < n → realAt v1 i = y1 i) (hy2 : s.cfg.num = .exact → ∀ i, i < n → realAt v2 i = y2 i) :
    s.Stored2 (Memory.writeBlock s.epoch (Memory.writeBlock s.epoch s.sm b1 v1) b2 v2) b1 b2 n y1 y2 := by
  refine ⟨fun hN i hi => ?_, fun hN i hi => ?_, fun a ha hb => ?_⟩
  · rw [read_writeBlock_other _ _ _ _ _ (by omega), read_writeBlock_same _ _ _ _ i (by omega) hm.1, ← hy1 hN i hi,
      realAt_getElem v1 i (by omega)]
  · rw [read_writeBlock_same _ _ _ _ i (by omega) (writeBlock_sorted _ _ _ _ hm.1), ← hy2 hN i hi,
      realAt_getElem v2 i (by omega)]
  · rw [read_writeBlock_other _ _ _ _ _ (by omega), read_writeBlock_other _ _ _ _ _ (by omega)]
    rfl

end Sys2Proof.Machine
end

