-- ==== Sys2Proof/Tests/Slice0.lean ====
section
/-! SUPPORT. Tests: expected results come from the spec's vectors (95_test_vectors.md) and rule examples, named in each comment.

After the tests of decoding and of single steps come the witnesses: for every obligation with hypotheses a concrete case that meets
them, and for the obligations over the cases of a command one state at each boundary of each case. -/

open Sys2Proof Sys2Proof.Machine

namespace Sys2Proof.Tests

/-! Theorems one after another: many evaluations at once would ask for more threads than the memory limit allows. -/
set_option Elab.async false

/-! Helpers -/

/-- The next state of an outcome. -/
def after : Host.Outcome State Fault Refusal → State
  | .next t => t
  | _ => State.reset

/-- The cause a command records at `s`, NONE if it completes. -/
def cause (i : Instr) (s : State) : Cause := (after (exec i s)).cause

/-- The state after reset with these argument registers A0-A4, parameter registers P0-P2 and sample words from 0 up. -/
def setup (a : Word × Word × Word × Word × Word) (p : DWord × DWord × DWord) (x : List ℚ) : State :=
  { State.reset with
    A := #v[a.1, a.2.1, a.2.2.1, a.2.2.2.1, a.2.2.2.2, 0#32, 0#32, 0#32]
    P := #v[p.1, p.2.1, p.2.2, 0#64]
    sm := Memory.writeBlock 0 [] 0 (x.map Num.rat) }

/-- Argument registers A0-A4, no parameters. -/
def args (a0 a1 a2 a3 a4 : Word) (x : List ℚ) : State := setup (a0, a1, a2, a3, a4) (0#64, 0#64, 0#64) x

/-- Argument registers A0-A2 and parameter register P0. -/
def argsP (a0 a1 a2 : Word) (p0 : DWord) (x : List ℚ) : State := setup (a0, a1, a2, 0#32, 0#32) (p0, 0#64, 0#64) x

def rats (x : List ℚ) : List Num := x.map Num.rat

/-- Binary64 patterns: 1.0, 0.5, -1.0, 12000.0, 50e-6, +infinity. -/
def one64 : DWord := 0x3FF0000000000000#64
def half64 : DWord := 0x3FE0000000000000#64
def minusOne64 : DWord := 0xBFF0000000000000#64
def tau64 : DWord := 0x3F0A36E2EB1C432D#64
def inf64 : DWord := 0x7FF0000000000000#64

/-- FIR unit 0 with the kernel `[0.25, 0.5, 0.25]` of the vectors V-FIR. -/
def withFir (s : State) (H W : List ℚ) (WL : Nat) : State :=
  s.setFir 0 { configured := true, M := 3, h := rats [1 / 4, 1 / 2, 1 / 4], line := { H := rats H, W := rats W, WL := WL } }

/-- A sample-picking delay line: kernel `[1]`. -/
def emptyLine : Line := { H := [], W := [], WL := 0 }

def withShf (s : State) (R : Nat) (theta : ℚ) : State := s.setShf 0 { configured := true, R := R, theta := .rat theta }
def withRds (s : State) (a b : Nat) : State :=
  s.setRds 0 { configured := true, inRate := a, outRate := b, M := 1, h := rats [1], line := emptyLine }
def withCds (s : State) (a b : Nat) : State :=
  s.setCds 0 { configured := true, inRate := a, outRate := b, M := 1, h := rats [1], lineI := emptyLine, lineQ := emptyLine }
def withFmd (s : State) : State := s.setFmd 0 { configured := true, R := 8, maxDev := .rat 1, Ip := .zero, Qp := .zero }
def withAmd (s : State) : State := s.setAmd 0 { configured := true, R := 48000, alpha := cornerCoeff .exact 20 48000, dc := .zero }
def withSsb (s : State) (sb : Nat) (DI HQ : List ℚ) : State :=
  s.setSsb 0 { configured := true, sb := sb, HQ := zeros (150 - HQ.length) ++ rats HQ, DI := rats DI ++ zeros (75 - DI.length) }
def withSts (s : State) : State := s.setSts 0 (stsConfigured Config.wrsDsp 336000)
def withDem (s : State) : State := s.setDem 0 { configured := true, alpha := .rat (1 / 2), y := .zero }
def withAgc (s : State) : State := s.setAgc 0 { configured := true, alpha := .rat (1 / 2), avg := .zero, primed := false }
def withDcb (s : State) : State := s.setDcb 0 { configured := true, alpha := .rat (1 / 2), dc := .zero }

/-! Well-formedness (R9): the largest valid unit is accepted, the next one refused -/

theorem test_wellFormed_stateful : Instr.WellFormed (.firRun 3#6) ∧ Instr.WellFormed (.dcbRun 3#6) := by decide
theorem test_illFormed_stateful :
    ¬ Instr.WellFormed (.firSetk 4#6) ∧ ¬ Instr.WellFormed (.firRun 4#6) ∧ ¬ Instr.WellFormed (.firLoad 4#6) ∧
    ¬ Instr.WellFormed (.firGet 4#6) ∧ ¬ Instr.WellFormed (.firGdly 4#6) ∧ ¬ Instr.WellFormed (.firClr 4#6) ∧
    ¬ Instr.WellFormed (.shfCfg 4#6) ∧ ¬ Instr.WellFormed (.shfRun 4#6) ∧ ¬ Instr.WellFormed (.rdsCfg 4#6) ∧
    ¬ Instr.WellFormed (.rdsRun 4#6) ∧ ¬ Instr.WellFormed (.cdsCfg 4#6) ∧ ¬ Instr.WellFormed (.cdsRun 4#6) ∧
    ¬ Instr.WellFormed (.fmdCfg 4#6) ∧ ¬ Instr.WellFormed (.fmdRun 4#6) ∧ ¬ Instr.WellFormed (.amdCfg 4#6) ∧
    ¬ Instr.WellFormed (.amdRun 4#6) ∧ ¬ Instr.WellFormed (.ssbCfg 4#6) ∧ ¬ Instr.WellFormed (.ssbRun 4#6) ∧
    ¬ Instr.WellFormed (.stsCfg 4#6) ∧ ¬ Instr.WellFormed (.stsRun 4#6) ∧ ¬ Instr.WellFormed (.demCfg 4#6) ∧
    ¬ Instr.WellFormed (.demRun 4#6) ∧ ¬ Instr.WellFormed (.agcCfg 4#6) ∧ ¬ Instr.WellFormed (.agcRun 4#6) ∧
    ¬ Instr.WellFormed (.dcbCfg 4#6) ∧ ¬ Instr.WellFormed (.dcbRun 63#6) := by decide
theorem test_illFormed_stateless :
    ¬ Instr.WellFormed (.nop 1#6) ∧ ¬ Instr.WellFormed (.genLpk 1#6) ∧ ¬ Instr.WellFormed (.pwrRun 1#6) ∧
    ¬ Instr.WellFormed (.pwrSnr 1#6) ∧ ¬ Instr.WellFormed (.srst 1#6) := by decide

/-! Decoding: one word of every row of R64, written out as OPC (6 bits), UNIT (6 bits), RSVD (20 bits) -/

theorem test_decode_control :
    decode 0b000000_000000_00000000000000000000#32 = .ok (.nop 0#6) ∧
    decode 0b111111_000000_00000000000000000000#32 = .ok (.srst 0#6) := by decide
theorem test_decode_fir :
    decode 0b000001_000000_00000000000000000000#32 = .ok (.genLpk 0#6) ∧
    decode 0b000010_000001_00000000000000000000#32 = .ok (.firSetk 1#6) ∧
    decode 0b000011_000010_00000000000000000000#32 = .ok (.firRun 2#6) ∧
    decode 0b000100_000011_00000000000000000000#32 = .ok (.firLoad 3#6) ∧
    decode 0b000101_000001_00000000000000000000#32 = .ok (.firGet 1#6) ∧
    decode 0b000110_000010_00000000000000000000#32 = .ok (.firGdly 2#6) ∧
    decode 0b000111_000011_00000000000000000000#32 = .ok (.firClr 3#6) := by decide
theorem test_decode_mixer :
    decode 0b001000_000001_00000000000000000000#32 = .ok (.shfCfg 1#6) ∧
    decode 0b001001_000010_00000000000000000000#32 = .ok (.shfRun 2#6) ∧
    decode 0b001010_000011_00000000000000000000#32 = .ok (.rdsCfg 3#6) ∧
    decode 0b001011_000001_00000000000000000000#32 = .ok (.rdsRun 1#6) ∧
    decode 0b001100_000010_00000000000000000000#32 = .ok (.cdsCfg 2#6) ∧
    decode 0b001101_000011_00000000000000000000#32 = .ok (.cdsRun 3#6) := by decide
theorem test_decode_demod :
    decode 0b001110_000001_00000000000000000000#32 = .ok (.fmdCfg 1#6) ∧
    decode 0b001111_000010_00000000000000000000#32 = .ok (.fmdRun 2#6) ∧
    decode 0b010000_000011_00000000000000000000#32 = .ok (.amdCfg 3#6) ∧
    decode 0b010001_000001_00000000000000000000#32 = .ok (.amdRun 1#6) ∧
    decode 0b010010_000010_00000000000000000000#32 = .ok (.ssbCfg 2#6) ∧
    decode 0b010011_000011_00000000000000000000#32 = .ok (.ssbRun 3#6) := by decide
theorem test_decode_stereo :
    decode 0b010100_000001_00000000000000000000#32 = .ok (.stsCfg 1#6) ∧
    decode 0b010101_000010_00000000000000000000#32 = .ok (.stsRun 2#6) := by decide
theorem test_decode_filters :
    decode 0b010110_000001_00000000000000000000#32 = .ok (.demCfg 1#6) ∧
    decode 0b010111_000010_00000000000000000000#32 = .ok (.demRun 2#6) ∧
    decode 0b011000_000011_00000000000000000000#32 = .ok (.agcCfg 3#6) ∧
    decode 0b011001_000001_00000000000000000000#32 = .ok (.agcRun 1#6) ∧
    decode 0b011010_000010_00000000000000000000#32 = .ok (.dcbCfg 2#6) ∧
    decode 0b011011_000011_00000000000000000000#32 = .ok (.dcbRun 3#6) ∧
    decode 0b011100_000000_00000000000000000000#32 = .ok (.pwrRun 0#6) ∧
    decode 0b011101_000000_00000000000000000000#32 = .ok (.pwrSnr 0#6) := by decide
/-- R65, R117: the reserved codes at both ends of their range, then reserved bits at both ends of the field; the word of the
example of R117 is rejected for its reserved bits. -/
theorem test_decode_rejects :
    decode 0x78000000#32 = .error .illegalOpcode ∧ decode 0xF8000000#32 = .error .illegalOpcode ∧
    decode 0x78000001#32 = .error .illegalOpcode ∧ decode 0x00000001#32 = .error .reservedBits ∧
    decode 0x74080000#32 = .error .reservedBits ∧ decode 0x0C100001#32 = .error .reservedBits := by decide
/-- A command on a unit its kind does not have is a command, which faults when it executes (R65). -/
theorem test_decode_keeps_unit : decode 0x0FF00000#32 = .ok (.firRun 63#6) ∧ decode 0x04100000#32 = .ok (.genLpk 1#6) := by
  decide
theorem test_table_word : decodeTableWord 32 0xFC000000 = some (.srst 0#6) ∧ decodeTableWord 32 0x78000000 = none := by decide

/-! Control commands and faults -/

/-- V-CTL-4: a NOP leaves STATUS = 4 and nothing else. -/
theorem test_nop : exec (.nop 0#6) State.reset = .next { State.reset with done := true } := by rfl
/-- V-CTL-12: SRST after a faulted FIR.RUN. -/
theorem test_srst :
    (after (exec (.srst 0#6) (after (exec (.firRun 0#6) (args 0#32 4#32 0#32 0#32 0#32 [1]))))).statusWord = 4#32 := by decide
/-- V-FIR-14 and the example of R112: STATUS, FCMD and FADDR after FIR.RUN on a unit that is not configured. -/
theorem test_unconfigured_fault :
    let t := after (step (State.reset.withFetchWord 32 0x0C000000))
    t.statusWord = 0x00000405#32 ∧ t.fcmd = 0x0C000000#32 ∧ t.faddr = 0#32 := by decide
/-- The example of R119: a second fault only sets FOVF. -/
theorem test_second_fault :
    let t := ((State.reset.hostRead 0x000002#24 32).2.hostRead 0x000002#24 32).2
    t.statusWord = 0x00000A09#32 ∧ t.faddr = 2#32 := by decide
/-- V-CTL-7: IRQ with DIE set, until the host clears DONE. -/
theorem test_irq :
    let t := after (exec (.nop 0#6) { State.reset with die := true })
    t.irq = true ∧ (t.hostWrite 0x000008#24 32 4#32).irq = false := by decide
/-- V-CTL-10, V-CTL-11: -0.0 reads back as 0, the least subnormal as itself. -/
theorem test_sample_write :
    ((State.reset.hostWrite 0x40000C#24 32 0x80000000#32).hostRead 0x40000C#24 32).1 = 0#32 ∧
    ((State.reset.hostWrite 0x40000C#24 32 1#32).hostRead 0x40000C#24 32).1 = 1#32 := by decide +kernel

/-! Commands -/

/-- V-GEN-1, read at the bus; the kernel is not rational. -/
theorem test_genLpk : (fun t => (t.RI, (List.range 3).map fun i => bits32 (t.readSM i)))
    (after (exec (.genLpk 0#6) (argsP 0#32 3#32 4#32 one64 []))) =
    (3#32, [0x3D3D52C1#32, 0x3F6855A8#32, 0x3D3D52C1#32]) := by decide +kernel
/-- V-GEN-4: corner = rate/2 gives the unit impulse. -/
theorem test_genLpk_impulse :
    (after (exec (.genLpk 0#6) (argsP 0#32 5#32 2#32 one64 []))).memRead 0 5 = rats [0, 0, 1, 0, 0] := by decide +kernel
/-- V-FIR-5: the history is padded on its old end; the kernel is copied. -/
theorem test_firSetk :
    let U := (after (exec (.firSetk 0#6) (withFir (args 0#32 5#32 0#32 0#32 0#32 [1, 2, 3, 4, 5]) [9, 12] [] 0))).firUnit 0
    U.line.H = rats [0, 0, 9, 12] ∧ U.h = rats [1, 2, 3, 4, 5] := by decide +kernel
/-- V-FIR-6: a shorter kernel drops the old end. -/
theorem test_firSetk_shrinks :
    ((after (exec (.firSetk 0#6) (withFir (args 0#32 1#32 0#32 0#32 0#32 [2]) [9, 12] [] 0))).firUnit 0).line.H = [] := by
  decide +kernel
/-- V-FIR-1. -/
theorem test_firRun :
    let t := after (exec (.firRun 0#6) (withFir (args 0#32 4#32 0#32 0#32 0#32 [4, 8, 12, 16]) [0, 0] [] 0))
    t.memRead 0 4 = rats [1, 4, 8, 12] ∧ (t.firUnit 0).line.H = rats [12, 16] ∧ (t.firUnit 0).line.WL = 4 := by decide +kernel
/-- V-FIR-11: a block shorter than the history. -/
theorem test_firRun_short :
    let t := after (exec (.firRun 0#6) (withFir (args 0#32 1#32 0#32 0#32 0#32 [4]) [0, 0] [] 0))
    t.memRead 0 1 = rats [1] ∧ (t.firUnit 0).line.H = rats [0, 4] := by decide +kernel
/-- V-FIR-3: LOAD writes no sample word. -/
theorem test_firLoad :
    let t := after (exec (.firLoad 0#6) (withFir (args 0#32 4#32 0#32 0#32 0#32 [4, 8, 12, 16]) [0, 0] [] 0))
    t.memRead 0 4 = rats [4, 8, 12, 16] ∧ (t.firUnit 0).line.H = rats [12, 16] ∧ (t.firUnit 0).line.WL = 4 := by decide +kernel
/-- V-FIR-3, V-FIR-4: GET 2 gives 8; GET 4 is beyond the loaded window. -/
theorem test_firGet :
    (after (exec (.firGet 0#6) (withFir (args 2#32 0#32 0#32 0#32 0#32 []) [12, 16] [0, 0, 4, 8, 12, 16] 4))).RV = .rat 8 ∧
    cause (.firGet 0#6) (withFir (args 4#32 0#32 0#32 0#32 0#32 []) [12, 16] [0, 0, 4, 8, 12, 16] 4) = .index := by
  decide +kernel
/-- V-FIR-12. -/
theorem test_firGdly : (after (exec (.firGdly 0#6) (withFir State.reset [0, 0] [] 0))).RI = 1#32 := by decide
/-- V-FIR-9: the history is zeros again. -/
theorem test_firClr :
    ((after (exec (.firClr 0#6) (withFir State.reset [12, 16] [0, 0, 4, 8, 12, 16] 4))).firUnit 0).line =
      { H := rats [0, 0], W := [], WL := 0 } := by decide +kernel
/-- The example of R80. -/
theorem test_shfCfg :
    (after (exec (.shfCfg 1#6) (args 1024000#32 0#32 0#32 0#32 0#32 []))).shfUnit 1#6 =
      { configured := true, R := 1024000, theta := .zero } := by decide
/-- V-SHF-1. -/
theorem test_shfRun :
    let t := after (exec (.shfRun 0#6) (withShf (argsP 0#32 4#32 4#32 one64 [1, 1, 1, 1, 0, 0, 0, 0]) 4 0))
    t.memRead 0 8 = rats [1, 0, -1, 0, 0, 1, 0, -1] ∧ (t.shfUnit 0).theta = .zero := by decide +kernel
/-- V-SHF-6, second call: from phase 3/4 with f = -1. -/
theorem test_shfRun_back :
    (after (exec (.shfRun 0#6) (withShf (argsP 0#32 3#32 3#32 minusOne64 [1, -1 / 2, 0, 0, 1 / 2, -1]) 4 (3 / 4)))).memRead 0 6 =
      rats [0, 1 / 2, 1, -1, -1 / 2, 0] := by decide +kernel
/-- V-RDS-4: outRate = inRate builds the delay kernel. -/
theorem test_rdsCfg :
    ((after (exec (.rdsCfg 0#6) (args 4#32 4#32 3#32 0#32 0#32 []))).rdsUnit 0).h = rats [0, 1, 0] := by decide +kernel
/-- V-RDS-1: a half-way index rounds up. -/
theorem test_rdsRun :
    let t := after (exec (.rdsRun 0#6) (withRds (args 0#32 6#32 10#32 0#32 0#32 [0, 1, 2, 3, 4, 5]) 3 2))
    t.memRead 10 4 = rats [0, 2, 3, 5] ∧ t.RI = 4#32 := by decide +kernel
/-- taps = 1 gives the kernel `[1]` (R83). -/
theorem test_cdsCfg :
    ((after (exec (.cdsCfg 0#6) (args 1024000#32 336000#32 1#32 0#32 0#32 []))).cdsUnit 0).h = rats [1] := by decide +kernel
/-- V-CDS-1, written to other words; V-CDS-2: overlapping destinations. -/
theorem test_cdsRun :
    let t := after (exec (.cdsRun 0#6) (withCds (args 0#32 4#32 4#32 10#32 12#32 [1, 2, 3, 4, 5, 6, 7, 8]) 2 1))
    t.memRead 10 4 = rats [1, 3, 5, 7] ∧ t.RI = 2#32 := by decide +kernel
/-- V-FMD-8: NONFINITE precedes BAD_PARAM. -/
theorem test_fmdCfg :
    cause (.fmdCfg 0#6) (argsP 0#32 0#32 0#32 0x7FF8000000000000#64 []) = .nonfinite ∧
    ((after (exec (.fmdCfg 0#6) (argsP 8#32 0#32 0#32 one64 []))).fmdUnit 0).maxDev = .rat 1 := by decide +kernel
/-- V-FMD-1: a quarter turn a sample. -/
theorem test_fmdRun :
    let t := after (exec (.fmdRun 0#6) (withFmd (args 0#32 4#32 4#32 8#32 0#32 [1, 0, -1, 0, 0, 1, 0, -1])))
    t.memRead 8 4 = rats [0, 2, 2, 2] ∧ (t.fmdUnit 0).Ip = .rat 0 ∧ (t.fmdUnit 0).Qp = .rat (-1) := by decide +kernel
/-- V-FMD-3: steps of half a turn are at the top of the range. -/
theorem test_fmdRun_half_turn :
    (after (exec (.fmdRun 0#6) (withFmd (args 0#32 3#32 3#32 8#32 0#32 [1, -1, 1, 0, 0, 0])))).memRead 8 3 = rats [0, 4, 4] := by
  decide +kernel
/-- V-AMD-1, rounded to binary32. -/
theorem test_amdCfg :
    bits32 ((after (exec (.amdCfg 0#6) (args 48000#32 0#32 0#32 0#32 0#32 []))).amdUnit 0).alpha = 0x3B2B5934#32 := by decide +kernel
/-- V-AMD-2, first sample, rounded to binary32. -/
theorem test_amdRun :
    bits32 ((after (exec (.amdRun 0#6) (withAmd (args 0#32 1#32 1#32 8#32 0#32 [3, 4])))).readSM 8) = 0x409F94E8#32 := by
  decide +kernel
theorem test_ssbCfg :
    let U := (after (exec (.ssbCfg 0#6) (args 1#32 0#32 0#32 0#32 0#32 []))).ssbUnit 0
    U.sb = 1 ∧ U.HQ.length = 150 ∧ U.DI.length = 75 := by decide +kernel
/-- V-SSB-2 at n = 0: the lower sideband adds `g[0]`, rounded to binary32. -/
theorem test_ssbRun :
    bits32 ((after (exec (.ssbRun 0#6) (withSsb (args 0#32 1#32 1#32 8#32 0#32 [0, 1]) 1 [] []))).readSM 8) = 0xBA320305#32 := by
  decide +kernel
/-- V-SSB-3 and V-SSB-1: the upper sideband subtracts `g[0]` from the I sample of 75 samples ago, here 7. -/
theorem test_ssbRun_upper :
    bits32 ((after (exec (.ssbRun 0#6) (withSsb (args 0#32 1#32 1#32 8#32 0#32 [5, 1]) 0 [7] []))).readSM 8) = 0x40E00590#32 := by
  decide +kernel
/-- V-STS-1 (alphaE rounded to binary32, w0 exact), V-STS-3. -/
theorem test_stsCfg :
    let U := (after (exec (.stsCfg 0#6) (args 336000#32 0#32 0#32 0#32 0#32 []))).stsUnit 0
    bits32 U.alphaE = 0x3D165C5C#32 ∧ bits32 U.Kp = 0x3B89E60F#32 ∧ U.w0 = .rat (19 / 336) := by decide +kernel
/-- Zero samples advance the phase by `w` each and write zeros (R97, V-STS-2 in small). -/
theorem test_stsRun :
    let t := after (exec (.stsRun 0#6) (withSts (args 0#32 2#32 8#32 0#32 0#32 [0, 0])))
    t.memRead 8 2 = rats [0, 0] ∧ t.rfFound = false ∧ (t.stsUnit 0).theta = .rat (19 / 168) := by decide +kernel
/-- V-STS-6 in form: `found` is evaluated again from the stored amplitude when L = 0. -/
theorem test_stsRun_found :
    (after (exec (.stsRun 0#6) (State.reset.setSts 0 { stsConfigured Config.wrsDsp 336000 with a := .rat (1 / 10) }))).rfFound = true := by
  decide +kernel
/-- V-DEM-1, first output from a unit step: alpha itself. -/
theorem test_demCfg :
    bits32 ((after (exec (.demCfg 0#6) (argsP 48000#32 0#32 0#32 tau64 []))).demUnit 0).alpha = 0x3EAE7803#32 := by decide +kernel
/-- R100 with alpha = 1/2, by hand. -/
theorem test_demRun :
    let t := after (exec (.demRun 0#6) (withDem (args 0#32 3#32 0#32 0#32 0#32 [1, 1, 1])))
    t.memRead 0 3 = rats [1 / 2, 3 / 4, 7 / 8] ∧ (t.demUnit 0).y = .rat (7 / 8) := by decide +kernel
theorem test_agcCfg :
    let U := (after (exec (.agcCfg 0#6) (argsP 48000#32 0#32 0#32 0x4008000000000000#64 []))).agcUnit 0
    bits32 U.alpha = 0x36E9041E#32 ∧ U.primed = false := by decide +kernel
/-- V-AGC-1. -/
theorem test_agcRun :
    let t := after (exec (.agcRun 0#6) (withAgc (args 0#32 5#32 0#32 0#32 0#32 [0, 1 / 2, -1, 1, 1 / 4])))
    t.memRead 0 5 = rats [0, 1, -4 / 3, 8 / 7, 4 / 9] ∧ (t.agcUnit 0).avg = .rat (9 / 16) := by decide +kernel
/-- V-AGC-6: silence leaves the unit unprimed. -/
theorem test_agcRun_silence :
    let t := after (exec (.agcRun 0#6) (withAgc (args 0#32 2#32 0#32 0#32 0#32 [0, 0])))
    t.memRead 0 2 = rats [0, 0] ∧ (t.agcUnit 0).primed = false := by decide +kernel
/-- V-DCB-4, and 1 - exp(-1/2.4) for the values of V-DEM-1. -/
theorem test_dcbCfg :
    cause (.dcbCfg 0#6) (argsP 48000#32 0#32 0#32 0#64 []) = .badParam ∧
    bits32 ((after (exec (.dcbCfg 0#6) (argsP 48000#32 0#32 0#32 tau64 []))).dcbUnit 0).alpha = 0x3EAE7803#32 := by decide +kernel
/-- V-DCB-1. -/
theorem test_dcbRun :
    let t := after (exec (.dcbRun 0#6) (withDcb (args 0#32 4#32 0#32 0#32 0#32 [2, 2, 2, 0])))
    t.memRead 0 4 = rats [1, 1 / 2, 1 / 4, -7 / 8] ∧ (t.dcbUnit 0).dc = .rat (7 / 8) := by decide +kernel
/-- V-PWR-3 and V-PWR-4. -/
theorem test_pwrRun :
    (after (exec (.pwrRun 0#6) (args 0#32 4#32 4#32 0#32 0#32 [1 / 2, -1 / 2, 1, 0, 1 / 2, 1 / 2, 0, -1]))).RV = .rat (3 / 4) ∧
    (after (exec (.pwrRun 0#6) (args 0#32 4#32 0#32 0#32 0#32 []))).RV = .zero := by decide +kernel
/-- V-PWR-5 and V-PWR-6. -/
theorem test_pwrSnr :
    (after (exec (.pwrSnr 0#6) (setup (48000#32, 0#32, 0#32, 0#32, 0#32) (half64, 0x40C7700000000000#64, one64) []))).RV = .rat 2 ∧
    (after (exec (.pwrSnr 0#6) (setup (48000#32, 0#32, 0#32, 0#32, 0#32) (half64, one64, 0#64) []))).RV = .zero := by decide +kernel

/-! Other parameters and other profiles (R7, R13) -/

/-- A block with 64 FIR units, 16 sample words and blocks of 4 samples: the limits follow the parameters (R7, R9, R45, R48). -/
def smallBlock : Params := { Config.wrsDsp with nFir := 64, smWords := 16, maxBlock := 4, idValue := 7#32 }
theorem test_parameters :
    let s := State.init smallBlock
    [cause (.firRun 63#6) s, cause (.shfRun 4#6) s,
     cause (.firSetk 63#6) { s with A := #v[13#32, 3#32, 0, 0, 0, 0, 0, 0] }, cause (.firSetk 63#6) { s with A := #v[14#32, 3#32, 0, 0, 0, 0, 0, 0] },
     cause (.pwrRun 0#6) { s with A := #v[0, 0, 4#32, 0, 0, 0, 0, 0] }, cause (.pwrRun 0#6) { s with A := #v[0, 0, 5#32, 0, 0, 0, 0, 0] }] =
    [.unconfigured, .badUnit, .none, .range, .none, .range] ∧
    (s.hostRead 0#24 32).1 = 7#32 ∧ (s.hostRead 0x40003C#24 32).2.cause = .none ∧ (s.hostRead 0x400040#24 32).2.cause = .bus := by
  decide +kernel
/-- In a build's profile every primitive is the build's own function, applied in the order of the pseudocode: the sum of R70 over
one tap is `0 + h[0] * W[0]` (R13). -/
theorem test_build_profile :
    let s := State.init { Config.wrsDsp with num := .build 9 }
    let U : FirUnit := { configured := true, M := 1, h := [.built 9 1], line := { H := [], W := [.built 9 2], WL := 1 } }
    let product := Num.built 9 (Config.buildResult 9 .mul [.built 9 1, .built 9 2])
    (after (exec (.firGet 0#6) (s.setFir 0 U))).RV = .built 9 (Config.buildResult 9 .add [.zero, product]) := by rfl

/-- `clamp`, the `rate / 2` of GEN.LPK and the `4 * PILOT_HZ` of STS.CFG are the build's own `clamp`, `/` and `*` (R12, R13). -/
theorem test_build_checks :
    let n := fun op operands => Num.built 9 (Config.buildResult 9 op operands)
    Prim.clamp (.build 9) (.built 9 1) (.built 9 2) (.built 9 3) = n .clamp [.built 9 1, .built 9 2, .built 9 3] ∧
    half (.build 9) 48000 = n .div [n (.lit 48000) [], n (.lit 2) []] ∧
    pilotLimit { Config.wrsDsp with num := .build 9 } = n .mul [n (.lit 4) [], n (.lit 19000) []] := by
  simp [Prim.clamp, half, pilotLimit, Prim.div, Prim.mul, Prim.nat, Prim.lit, Prim.run, Config.wrsDsp]

/-! Comparisons and patterns that enclosures do not decide (logs 3, 4) -/

/-- The first sample of R81 at phase 1/8 on I = Q = 1 is `cos(pi/4) - sin(pi/4)`, which is 0: it is not positive, so AGC.RUN stays
unprimed on it (R102), and it reads as +0 (R52). -/
theorem test_exact_zero :
    let v := (shift .exact (.rat (1 / 8)) (.rat 1, .rat 1)).1
    isPos (Prim.abs .exact v) = false ∧ (bits32 v).toNat = 0 := by
  have h : (shift .exact (.rat (1 / 8)) (.rat 1, .rat 1)).1.toReal = 0 := by
    rw [(toReal_shift _ _).1, show 2 * Real.pi * (Num.rat (1 / 8)).toReal = Real.pi / 4 by rw [toReal_rat]; push_cast; ring,
      Real.cos_pi_div_four, Real.sin_pi_div_four]
    ring
  refine ⟨?_, ?_⟩
  · rw [Bool.eq_false_iff, Ne, isPos_iff, toReal_abs, h]
    simp
  · rw [bits32_toNat, h]
    exact (realPattern_rne 8 23 0 (by norm_num) (by norm_num) (by norm_num)).zero rfl

/-! Witnesses: the cases of a command at their boundaries. Each theorem lists the cause a command records on states at both sides of
every limit of its statement, NONE where it completes -/

theorem witness_NopResult_cases : [cause (.nop 1#6) State.reset, cause (.nop 0#6) State.reset] = [.badUnit, .none] := by decide
theorem witness_SrstResult_cases : [cause (.srst 63#6) State.reset, cause (.srst 0#6) State.reset] = [.badUnit, .none] := by decide

/-- No operands with `S = 0` are known (U17). The greatest kernel length is checked on the check itself. -/
theorem witness_GenLpkResult_cases :
    cause (.genLpk 1#6) (argsP 0#32 3#32 4#32 one64 []) = .badUnit ∧
    [argsP 0#32 3#32 4#32 inf64 [], argsP 0#32 0#32 4#32 one64 [], argsP 0#32 1024#32 2#32 one64 [],
     argsP 0#32 3#32 0#32 one64 [], argsP 0#32 3#32 4#32 0#64 [], argsP 0#32 3#32 1#32 one64 [],
     argsP 1048574#32 3#32 2#32 one64 [], argsP 1048573#32 3#32 2#32 one64 [], argsP 0#32 1#32 1#32 half64 []].map (cause (.genLpk 0#6)) =
    [.nonfinite, .badParam, .badParam, .badParam, .badParam, .badParam, .range, .none, .none] ∧
    State.reset.tapsBad 1022 = false ∧ State.reset.tapsBad 1023 = false ∧ State.reset.tapsBad 1024 = true := by decide +kernel

theorem witness_FirSetkResult_cases :
    cause (.firSetk 4#6) (args 0#32 3#32 0#32 0#32 0#32 []) = .badUnit ∧ cause (.firSetk 3#6) (args 0#32 3#32 0#32 0#32 0#32 []) = .none ∧
    [args 0#32 0#32 0#32 0#32 0#32 [], args 0#32 2#32 0#32 0#32 0#32 [], args 0#32 1025#32 0#32 0#32 0#32 [],
     args 1048574#32 3#32 0#32 0#32 0#32 [], args 1048573#32 3#32 0#32 0#32 0#32 [], args 0#32 1#32 0#32 0#32 0#32 [],
     args 0#32 1023#32 0#32 0#32 0#32 []].map (cause (.firSetk 0#6)) =
    [.badParam, .badParam, .badParam, .range, .none, .none, .none] := by decide +kernel

/-- In-place buffers `A0, A1` at the limits of MAX_BLOCK and SM_WORDS. -/
def inPlaceArgs : List State :=
  [args 0#32 262145#32 0#32 0#32 0#32 [], args 1048573#32 4#32 0#32 0#32 0#32 [], args 1048577#32 0#32 0#32 0#32 0#32 [],
   args 0#32 262144#32 0#32 0#32 0#32 [], args 1048572#32 4#32 0#32 0#32 0#32 [], args 1048576#32 0#32 0#32 0#32 0#32 []]
def inPlaceCauses : List Cause := [.range, .range, .range, .none, .none, .none]

theorem witness_FirRunResult_cases :
    [cause (.firRun 4#6) State.reset, cause (.firRun 3#6) State.reset] = [.badUnit, .unconfigured] ∧
    inPlaceArgs.map (fun s => cause (.firRun 0#6) (withFir s [0, 0] [] 0)) = inPlaceCauses := by decide +kernel
theorem witness_FirLoadResult_cases :
    [cause (.firLoad 4#6) State.reset, cause (.firLoad 3#6) State.reset] = [.badUnit, .unconfigured] ∧
    inPlaceArgs.map (fun s => cause (.firLoad 0#6) (withFir s [0, 0] [] 0)) = inPlaceCauses := by decide +kernel
theorem witness_FirGetResult_cases :
    [cause (.firGet 4#6) State.reset, cause (.firGet 3#6) State.reset] = [.badUnit, .unconfigured] ∧
    [args 0#32 0#32 0#32 0#32 0#32 [], args 3#32 0#32 0#32 0#32 0#32 [], args 4#32 0#32 0#32 0#32 0#32 []].map
      (fun s => cause (.firGet 0#6) (withFir s [12, 16] [0, 0, 4, 8, 12, 16] 4)) = [.none, .none, .index] := by decide +kernel
theorem witness_FirGdlyResult_cases :
    [cause (.firGdly 4#6) State.reset, cause (.firGdly 3#6) State.reset, cause (.firGdly 0#6) (withFir State.reset [0, 0] [] 0)] =
      [.badUnit, .unconfigured, .none] := by decide +kernel
theorem witness_FirClrResult_cases :
    [cause (.firClr 4#6) State.reset, cause (.firClr 3#6) State.reset, cause (.firClr 0#6) (withFir State.reset [0, 0] [] 0)] =
      [.badUnit, .unconfigured, .none] := by decide +kernel

theorem witness_ShfCfgResult_cases :
    [cause (.shfCfg 4#6) (args 1#32 0#32 0#32 0#32 0#32 []), cause (.shfCfg 3#6) (args 0#32 0#32 0#32 0#32 0#32 []),
     cause (.shfCfg 3#6) (args 1#32 0#32 0#32 0#32 0#32 [])] = [.badUnit, .badParam, .none] := by decide +kernel
/-- I and Q buffers at the limits, then overlapping by one word, touching, and empty on one address. -/
theorem witness_ShfRunResult_cases :
    [cause (.shfRun 4#6) State.reset, cause (.shfRun 3#6) State.reset] = [.badUnit, .unconfigured] ∧
    [argsP 0#32 4#32 4#32 inf64 [], argsP 0#32 300000#32 262145#32 one64 [], argsP 1048573#32 0#32 4#32 one64 [],
     argsP 0#32 1048573#32 4#32 one64 [], argsP 0#32 3#32 4#32 one64 [], argsP 3#32 0#32 4#32 one64 [],
     argsP 0#32 262144#32 262144#32 one64 [], argsP 0#32 4#32 4#32 one64 [], argsP 4#32 0#32 4#32 one64 [],
     argsP 7#32 7#32 0#32 one64 []].map (fun s => cause (.shfRun 0#6) (withShf s 4 0)) =
    [.nonfinite, .range, .range, .range, .range, .range, .none, .none, .none, .none] := by decide +kernel

/-- Rates and taps of RDS.CFG and CDS.CFG at their limits. -/
def downArgs : List State :=
  [args 0#32 0#32 1#32 0#32 0#32 [], args 1#32 0#32 1#32 0#32 0#32 [], args 2#32 3#32 1#32 0#32 0#32 [],
   args 2#32 2#32 0#32 0#32 0#32 [], args 2#32 2#32 1024#32 0#32 0#32 [],
   args 1#32 1#32 1#32 0#32 0#32 [], args 2#32 1#32 3#32 0#32 0#32 []]
def downCauses : List Cause := [.badParam, .badParam, .badParam, .badParam, .badParam, .none, .none]
theorem witness_DownsamplerCfgResult_cases :
    cause (.rdsCfg 4#6) (args 1#32 1#32 1#32 0#32 0#32 []) = .badUnit ∧ downArgs.map (cause (.rdsCfg 3#6)) = downCauses ∧
    cause (.cdsCfg 4#6) (args 1#32 1#32 1#32 0#32 0#32 []) = .badUnit ∧ downArgs.map (cause (.cdsCfg 3#6)) = downCauses := by
  decide +kernel
theorem witness_RdsRunResult_cases :
    [cause (.rdsRun 4#6) State.reset, cause (.rdsRun 3#6) State.reset] = [.badUnit, .unconfigured] ∧
    [args 0#32 262145#32 0#32 0#32 0#32 [], args 1048573#32 4#32 0#32 0#32 0#32 [], args 0#32 6#32 1048573#32 0#32 0#32 [],
     args 0#32 262144#32 0#32 0#32 0#32 [], args 1048572#32 4#32 0#32 0#32 0#32 [], args 0#32 6#32 1048572#32 0#32 0#32 [],
     args 0#32 1#32 1048576#32 0#32 0#32 []].map (fun s => cause (.rdsRun 0#6) (withRds s 3 2)) =
    [.range, .range, .range, .none, .none, .none, .none] := by decide +kernel
theorem witness_CdsRunResult_cases :
    [cause (.cdsRun 4#6) State.reset, cause (.cdsRun 3#6) State.reset] = [.badUnit, .unconfigured] ∧
    [args 0#32 0#32 262145#32 0#32 300000#32 [], args 1048573#32 0#32 4#32 0#32 2#32 [], args 0#32 1048573#32 4#32 0#32 2#32 [],
     args 0#32 0#32 4#32 1048575#32 0#32 [], args 0#32 0#32 4#32 0#32 1048575#32 [], args 0#32 0#32 4#32 100#32 101#32 [],
     args 0#32 0#32 4#32 101#32 100#32 [],
     args 0#32 0#32 4#32 100#32 102#32 [], args 0#32 0#32 4#32 102#32 100#32 [], args 0#32 0#32 1#32 100#32 100#32 [],
     args 1048572#32 1048572#32 4#32 1048574#32 0#32 []].map (fun s => cause (.cdsRun 0#6) (withCds s 2 1)) =
    [.range, .range, .range, .range, .range, .range, .range, .none, .none, .none, .none] := by decide +kernel

theorem witness_FmdCfgResult_cases :
    cause (.fmdCfg 4#6) (argsP 1#32 0#32 0#32 one64 []) = .badUnit ∧
    [argsP 1#32 0#32 0#32 inf64 [], argsP 0#32 0#32 0#32 one64 [], argsP 1#32 0#32 0#32 0#64 [], argsP 1#32 0#32 0#32 minusOne64 [],
     argsP 1#32 0#32 0#32 1#64 []].map (cause (.fmdCfg 3#6)) = [.nonfinite, .badParam, .badParam, .badParam, .none] := by
  decide +kernel

/-- Buffers `A0 I, A1 Q, A2 len, A3 dst` at the limits of MAX_BLOCK and SM_WORDS. -/
def demodArgs : List State :=
  [args 0#32 0#32 262145#32 0#32 0#32 [], args 1048573#32 0#32 4#32 0#32 0#32 [], args 0#32 1048573#32 4#32 0#32 0#32 [],
   args 0#32 0#32 4#32 1048573#32 0#32 [], args 0#32 0#32 262144#32 0#32 0#32 [],
   args 1048572#32 1048572#32 4#32 1048572#32 0#32 [], args 1048576#32 1048576#32 0#32 1048576#32 0#32 []]
def demodCauses : List Cause := [.range, .range, .range, .range, .none, .none, .none]
theorem witness_FmdRunResult_cases :
    [cause (.fmdRun 4#6) State.reset, cause (.fmdRun 3#6) State.reset] = [.badUnit, .unconfigured] ∧
    demodArgs.map (fun s => cause (.fmdRun 0#6) (withFmd s)) = demodCauses := by decide +kernel
theorem witness_AmdCfgResult_cases :
    [cause (.amdCfg 4#6) (args 1#32 0#32 0#32 0#32 0#32 []), cause (.amdCfg 3#6) (args 0#32 0#32 0#32 0#32 0#32 []),
     cause (.amdCfg 3#6) (args 1#32 0#32 0#32 0#32 0#32 [])] = [.badUnit, .badParam, .none] := by decide +kernel
theorem witness_AmdRunResult_cases :
    [cause (.amdRun 4#6) State.reset, cause (.amdRun 3#6) State.reset] = [.badUnit, .unconfigured] ∧
    demodArgs.map (fun s => cause (.amdRun 0#6) (withAmd s)) = demodCauses := by decide +kernel
theorem witness_SsbCfgResult_cases :
    cause (.ssbCfg 4#6) State.reset = .badUnit ∧
    [args 2#32 0#32 0#32 0#32 0#32 [], args 1#32 0#32 0#32 0#32 0#32 [], args 0#32 0#32 0#32 0#32 0#32 []].map (cause (.ssbCfg 3#6)) =
      [.badParam, .none, .none] := by decide +kernel
theorem witness_SsbRunResult_cases :
    [cause (.ssbRun 4#6) State.reset, cause (.ssbRun 3#6) State.reset] = [.badUnit, .unconfigured] ∧
    demodArgs.map (fun s => cause (.ssbRun 0#6) (withSsb s 0 [] [])) = demodCauses := by decide +kernel

theorem witness_StsCfgResult_cases :
    [cause (.stsCfg 4#6) (args 76001#32 0#32 0#32 0#32 0#32 []), cause (.stsCfg 3#6) (args 76000#32 0#32 0#32 0#32 0#32 []),
     cause (.stsCfg 3#6) (args 76001#32 0#32 0#32 0#32 0#32 [])] = [.badUnit, .badParam, .none] := by decide +kernel
theorem witness_StsRunResult_cases :
    [cause (.stsRun 4#6) State.reset, cause (.stsRun 3#6) State.reset] = [.badUnit, .unconfigured] ∧
    [args 0#32 262145#32 0#32 0#32 0#32 [], args 1048573#32 4#32 0#32 0#32 0#32 [], args 0#32 4#32 1048573#32 0#32 0#32 [],
     args 0#32 262144#32 0#32 0#32 0#32 [], args 1048572#32 4#32 1048572#32 0#32 0#32 [],
     args 1048576#32 0#32 1048576#32 0#32 0#32 []].map (fun s => cause (.stsRun 0#6) (withSts s)) =
    [.range, .range, .range, .none, .none, .none] := by decide +kernel
/-- Rate and time constant of DEM.CFG, AGC.CFG and DCB.CFG at their limits. -/
def tauArgs : List State :=
  [argsP 1#32 0#32 0#32 inf64 [], argsP 0#32 0#32 0#32 one64 [], argsP 1#32 0#32 0#32 0#64 [], argsP 1#32 0#32 0#32 minusOne64 [],
   argsP 1#32 0#32 0#32 1#64 []]
def tauCauses : List Cause := [.nonfinite, .badParam, .badParam, .badParam, .none]
theorem witness_TimeConstantCfgResult_cases :
    [cause (.demCfg 4#6) State.reset, cause (.agcCfg 4#6) State.reset, cause (.dcbCfg 4#6) State.reset] =
      [.badUnit, .badUnit, .badUnit] ∧
    tauArgs.map (cause (.demCfg 3#6)) = tauCauses ∧ tauArgs.map (cause (.agcCfg 3#6)) = tauCauses ∧
    tauArgs.map (cause (.dcbCfg 3#6)) = tauCauses := by decide +kernel
theorem witness_DemRunResult_cases :
    [cause (.demRun 4#6) State.reset, cause (.demRun 3#6) State.reset] = [.badUnit, .unconfigured] ∧
    inPlaceArgs.map (fun s => cause (.demRun 0#6) (withDem s)) = inPlaceCauses := by decide +kernel
theorem witness_AgcRunResult_cases :
    [cause (.agcRun 4#6) State.reset, cause (.agcRun 3#6) State.reset] = [.badUnit, .unconfigured] ∧
    inPlaceArgs.map (fun s => cause (.agcRun 0#6) (withAgc s)) = inPlaceCauses := by decide +kernel
theorem witness_DcbRunResult_cases :
    [cause (.dcbRun 4#6) State.reset, cause (.dcbRun 3#6) State.reset] = [.badUnit, .unconfigured] ∧
    inPlaceArgs.map (fun s => cause (.dcbRun 0#6) (withDcb s)) = inPlaceCauses := by decide +kernel
theorem witness_PwrRunResult_cases :
    cause (.pwrRun 1#6) State.reset = .badUnit ∧
    [args 0#32 0#32 262145#32 0#32 0#32 [], args 1048573#32 0#32 4#32 0#32 0#32 [], args 0#32 1048573#32 4#32 0#32 0#32 [],
     args 0#32 0#32 262144#32 0#32 0#32 [], args 1048572#32 1048572#32 4#32 0#32 0#32 [],
     args 1048576#32 1048576#32 0#32 0#32 0#32 []].map (cause (.pwrRun 0#6)) =
    [.range, .range, .range, .none, .none, .none] := by decide +kernel
/-- Each of the three parameters not finite, each scalar at its limit. -/
theorem witness_PwrSnrResult_cases :
    let sp := fun (a : Word) p0 p1 p2 => setup (a, 0#32, 0#32, 0#32, 0#32) (p0, p1, p2) []
    cause (.pwrSnr 1#6) State.reset = .badUnit ∧
    [sp 1 inf64 one64 one64, sp 1 one64 inf64 one64, sp 1 one64 one64 inf64, sp 0 one64 one64 one64, sp 1 one64 0 one64,
     sp 1 minusOne64 one64 one64, sp 1 one64 one64 minusOne64, sp 1 0 1 0, sp 1 0 1 1].map (cause (.pwrSnr 0#6)) =
    [.nonfinite, .nonfinite, .nonfinite, .badParam, .badParam, .badParam, .badParam, .none, .none] := by decide +kernel

/-! Witnesses: concrete cases that meet the hypotheses -/

/-- Sample memory with eight words written has its canonical form: the hypothesis `MemInv` of the statements about commands that
write sample memory, at the states of the tests above. -/
theorem witness_memInv :
    (withFir (args 0#32 4#32 0#32 0#32 0#32 [4, 8, 12, 16]) [0, 0] [] 0).MemInv ∧
    (argsP 0#32 3#32 4#32 one64 []).MemInv ∧
    (withShf (argsP 0#32 4#32 4#32 one64 [1, 1, 1, 1, 0, 0, 0, 0]) 4 0).MemInv ∧
    (withRds (args 0#32 6#32 10#32 0#32 0#32 [0, 1, 2, 3, 4, 5]) 3 2).MemInv ∧
    (withCds (args 0#32 4#32 4#32 10#32 12#32 [1, 2, 3, 4, 5, 6, 7, 8]) 2 1).MemInv ∧
    (withFmd (args 0#32 4#32 4#32 8#32 0#32 [1, 0, -1, 0, 0, 1, 0, -1])).MemInv ∧
    (withAmd (args 0#32 1#32 1#32 8#32 0#32 [3, 4])).MemInv ∧ (withSsb (args 0#32 1#32 1#32 8#32 0#32 [0, 1]) 1 [] []).MemInv ∧
    (withSts (args 0#32 2#32 8#32 0#32 0#32 [0, 0])).MemInv ∧ (withDem (args 0#32 3#32 0#32 0#32 0#32 [1, 1, 1])).MemInv ∧
    (withAgc (args 0#32 5#32 0#32 0#32 0#32 [0, 1 / 2, -1, 1, 1 / 4])).MemInv ∧
    (withDcb (args 0#32 4#32 0#32 0#32 0#32 [2, 2, 2, 0])).MemInv := by
  unfold State.MemInv; decide +kernel
theorem witness_GenLpkResult : (argsP 0#32 3#32 4#32 one64 []).MemInv := witness_memInv.2.1
theorem firOk (s : State) (W : List ℚ) (WL : Nat) (hc : s.cfg = Config.wrsDsp) (h : WL ≤ 262144)
    (hW : W.length = 2 + WL ∨ (W = [] ∧ WL = 0)) : ((withFir s [0, 0] W WL).firUnit 0).Ok (withFir s [0, 0] W WL).cfg := by
  have e : (withFir s [0, 0] W WL).firUnit 0 =
      { configured := true, M := 3, h := rats [1 / 4, 1 / 2, 1 / 4], line := { H := rats [0, 0], W := rats W, WL := WL } } :=
    pick_put_same _ _ _
  rw [e, show (withFir s [0, 0] W WL).cfg = Config.wrsDsp from hc]
  have k3 : KernelLength Config.wrsDsp 3 := ⟨by decide, by decide⟩
  refine ⟨fun _ => ⟨k3, rfl, ⟨rfl, h, ?_⟩⟩, fun h => absurd h (by simp)⟩
  rcases hW with hW | ⟨rfl, rfl⟩
  · exact .inl (by simp [rats, hW])
  · exact .inr ⟨rfl, rfl⟩
theorem witness_FirRunResult :
    let s := withFir (args 0#32 4#32 0#32 0#32 0#32 [4, 8, 12, 16]) [0, 0] [] 0
    s.MemInv ∧ (s.firUnit 0).Ok s.cfg := ⟨witness_memInv.1, firOk _ _ _ rfl (by decide) (.inr ⟨rfl, rfl⟩)⟩
theorem witness_FirGetResult :
    let s := withFir (args 2#32 0#32 0#32 0#32 0#32 []) [0, 0] [0, 0, 4, 8, 12, 16] 4
    (s.firUnit 0).Ok s.cfg ∧ s.cfg.num = .exact := ⟨firOk _ _ _ rfl (by decide) (.inl rfl), rfl⟩
theorem turn_zero : Turn .zero := by simp [Turn, Num.toReal]
theorem witness_ShfRunResult :
    let s := withShf (argsP 0#32 4#32 4#32 one64 [1, 1, 1, 1, 0, 0, 0, 0]) 4 0
    s.MemInv ∧ Turn (s.shfUnit 0).theta := ⟨witness_memInv.2.2.1, turn_zero⟩
theorem lineOk : emptyLine.Ok Config.wrsDsp 1 := ⟨rfl, by decide, .inr ⟨rfl, rfl⟩⟩
theorem witness_RdsRunResult :
    let s := withRds (args 0#32 6#32 10#32 0#32 0#32 [0, 1, 2, 3, 4, 5]) 3 2
    s.MemInv ∧ (s.rdsUnit 0).Ok s.cfg :=
  ⟨witness_memInv.2.2.2.1, ⟨fun _ => ⟨by decide, by decide, ⟨by decide, by decide⟩, rfl, lineOk⟩⟩⟩
theorem witness_CdsRunResult :
    let s := withCds (args 0#32 4#32 4#32 10#32 12#32 [1, 2, 3, 4, 5, 6, 7, 8]) 2 1
    s.MemInv ∧ (s.cdsUnit 0).Ok s.cfg :=
  ⟨witness_memInv.2.2.2.2.1, ⟨fun _ => ⟨by decide, by decide, ⟨by decide, by decide⟩, rfl, lineOk, lineOk⟩⟩⟩
theorem witness_FmdRunResult : (withFmd (args 0#32 4#32 4#32 8#32 0#32 [1, 0, -1, 0, 0, 1, 0, -1])).MemInv :=
  witness_memInv.2.2.2.2.2.1
theorem witness_AmdRunResult : (withAmd (args 0#32 1#32 1#32 8#32 0#32 [3, 4])).MemInv := witness_memInv.2.2.2.2.2.2.1
theorem witness_SsbRunResult : (withSsb (args 0#32 1#32 1#32 8#32 0#32 [0, 1]) 1 [] []).MemInv :=
  witness_memInv.2.2.2.2.2.2.2.1
theorem witness_StsRunResult : (withSts (args 0#32 2#32 8#32 0#32 0#32 [0, 0])).MemInv := witness_memInv.2.2.2.2.2.2.2.2.1
theorem witness_DemRunResult : (withDem (args 0#32 3#32 0#32 0#32 0#32 [1, 1, 1])).MemInv :=
  witness_memInv.2.2.2.2.2.2.2.2.2.1
theorem witness_AgcRunResult : (withAgc (args 0#32 5#32 0#32 0#32 0#32 [0, 1 / 2, -1, 1, 1 / 4])).MemInv :=
  witness_memInv.2.2.2.2.2.2.2.2.2.2.1
theorem witness_DcbRunResult : (withDcb (args 0#32 4#32 0#32 0#32 0#32 [2, 2, 2, 0])).MemInv :=
  witness_memInv.2.2.2.2.2.2.2.2.2.2.2

/-- A busy state whose engine moves next with the word `w` pending. -/
def pendingState (w : Word) : State := { State.reset with busy := true, pending := w }

theorem witness_DecodeAndEncodeAgree : decode 0x0C100000#32 = .ok (.firRun 1#6) := by decide
/-- The four classes of words that are no command on a valid unit, at the ends of their ranges of OPC, RSVD and UNIT, each as the
turn of a busy engine and as the next event listed. -/
theorem witness_InvalidWordFaults : (pendingState 0#32).busy = true ∧ (pendingState 0#32).events = [] ∧
    { pendingState 0#32 with events := [.engine] }.events = .engine :: [] ∧
    [0x78000000#32, 0xF8000000#32, 0xFBFFFFFF#32, 0x00000001#32, 0x77FFFFFF#32, 0xFFFFFFFF#32, 0xFC080000#32,
     0x08400000#32, 0x6C400000#32, 0x6FF00000#32, 0x00100000#32, 0x04100000#32, 0x70100000#32, 0x77F00000#32, 0xFC100000#32].map
      (fun w => ((after (step (pendingState w))).cause,
        (after (step { pendingState w with events := [.engine] })).cause)) =
    [.illegalOpcode, .illegalOpcode, .illegalOpcode, .reservedBits, .reservedBits, .reservedBits, .reservedBits,
     .badUnit, .badUnit, .badUnit, .badUnit, .badUnit, .badUnit, .badUnit, .badUnit].map fun c => (c, c) := by decide +kernel
/-- The first unit index beyond `N_K` and the last valid one, for the first and the last word of each stateful kind (R64, R9). -/
theorem witness_InvalidWordFaults_kinds :
    (List.range' 2 26).map (fun o => (after (step (pendingState (BitVec.ofNat 32 (o * 2 ^ 26 + 4 * 2 ^ 20))))).cause) =
      List.replicate 26 .badUnit ∧
    (List.range' 2 26).map (fun o => (after (step (pendingState (BitVec.ofNat 32 (o * 2 ^ 26 + 3 * 2 ^ 20))))).cause == .badUnit) =
      List.replicate 26 false := by decide +kernel
theorem witness_StepRunsDecodedCommand :
    (pendingState 0x0C000000#32).busy = true ∧ decode (pendingState 0x0C000000#32).pending = .ok (.firRun 0#6) ∧
    (pendingState 0x0C000000#32).events = [] ∧
    { pendingState 0x0C000000#32 with events := [.engine, .hardReset] }.events = .engine :: [.hardReset] ∧
    { State.reset with events := [.write 0x20#24 32 7#32] }.events = .write 0x20#24 32 7#32 :: [] ∧
    (after (step { State.reset with events := [.write 0x20#24 32 7#32] })).A[0] = 7#32 ∧
    { State.reset with events := [.read 0#24 32, .engine] }.events = .read 0#24 32 :: [.engine] ∧
    (after (step { State.reset with events := [.read 0#24 32, .engine] })).rdata = 0x57445301#32 := by decide
theorem witness_EveryStepAnswersNext : State.reset.busy = false ∧ State.reset.events = [] ∧
    { State.reset with events := [.engine] }.events = .engine :: [] := by decide
/-- A command that completes, and one that changes each result register. -/
theorem witness_ResultRegistersWritten :
    exec (.nop 0#6) State.reset = .next { State.reset with done := true } ∧ Instr.nop 0#6 ≠ .srst 0#6 ∧
    (after (exec (.firGet 0#6) (withFir (args 2#32 0#32 0#32 0#32 0#32 []) [12, 16] [0, 0, 4, 8, 12, 16] 4))).RV ≠ State.reset.RV ∧
    (after (exec (.firGdly 0#6) (withFir State.reset [0, 0] [] 0))).RI ≠ State.reset.RI ∧
    (after (exec (.stsRun 0#6) (State.reset.setSts 0 { stsConfigured Config.wrsDsp 336000 with a := .rat (1 / 10) }))).rfFound ≠
      State.reset.rfFound := by
  refine ⟨rfl, ?_⟩
  decide +kernel
theorem witness_OtherUnitsUntouched : exec (.nop 0#6) State.reset = .next { State.reset with done := true } ∧
    Instr.nop 0#6 ≠ .srst 0#6 ∧
    (after (exec (.shfCfg 1#6) (args 4#32 0#32 0#32 0#32 0#32 []))).shfUnit 1#6 ≠ State.reset.shfUnit 1#6 := by
  refine ⟨rfl, ?_⟩
  decide +kernel
/-- Each of the four kinds of bad access, at the ends of the ranges. -/
theorem witness_BadAccessIsBusFault :
    (16 : Nat) ≠ 32 ∧ (0x000001#24).toNat % 4 ≠ 0 ∧ (0x68 ≤ (0x000068#24).toNat ∧ (0x3FFFFC#24).toNat < 0x400000) ∧
    0x800000 ≤ (0x800000#24).toNat ∧
    [0x000001#24, 0x000068#24, 0x3FFFFC#24, 0x800000#24, 0xFFFFFC#24, 0x000064#24, 0x400000#24, 0x7FFFFC#24].map
      (fun a => (State.reset.hostWrite a 32 0#32).cause) = [.bus, .bus, .bus, .bus, .bus, .none, .none, .none] := by
  decide +kernel
/-- A readable register, one that is not, sample words at both ends, and every register that takes a write of its own. -/
theorem witness_BusyAccesses : (pendingState 0#32).busy = true ∧
    [0x000000#24, 0x000014#24, 0x000018#24, 0x000064#24, 0x400000#24, 0x7FFFFC#24].map
      (fun a => decide (a.toNat % 4 = 0 ∧ (a.toNat < 0x68 ∨ (0x400000 ≤ a.toNat ∧ a.toNat < 0x800000)))) =
      [true, true, true, true, true, true] ∧
    [0x000000#24, 0x000014#24, 0x000018#24, 0x000064#24, 0x400000#24, 0x7FFFFC#24].map
      (fun a => ((pendingState 0#32).hostRead a 32).2.cause) = [.none, .none, .busy, .busy, .busy, .busy] ∧
    [0x000000#24, 0x000004#24, 0x000008#24, 0x00000C#24, 0x000010#24, 0x000020#24, 0x7FFFFC#24].map
      (fun a => ((pendingState 0#32).hostWrite a 32 3#32).cause) = [.none, .busy, .none, .none, .busy, .busy, .busy] ∧
    ((pendingState 0#32).hostWrite 0x00000C#24 32 3#32).fie = true := by decide +kernel
theorem witness_BusyHostLeavesCommandAlone : (pendingState 0#32).busy = true ∧
    eventStep (.write 0x000008#24 32 4#32) (pendingState 0#32) = .next (pendingState 0#32) := ⟨rfl, rfl⟩
theorem witness_RegisterWriteReadBack : State.reset.busy = false := rfl
theorem wrsDsp_legal : Config.wrsDsp.Legal := by
  refine ⟨by decide, by decide, by decide, by decide, by decide, ?_⟩
  simp [Config.wrsDsp]
/-- RV at a value that is not a binary64 number: 1/3. -/
theorem witness_ReadOnlyRegisters : State.reset.busy = false ∧
    let s := { State.reset with RV := .rat (1 / 3) }
    (s.hostRead 0x60#24 32).1 = 0x55555555#32 ∧ (s.hostRead 0x64#24 32).1 = 0x3FD55555#32 := ⟨rfl, by decide +kernel⟩
/-- Sample words 0 and SM_WORDS-1; the least pattern with an all-ones exponent, and the greatest finite one. -/
theorem witness_SampleWriteReadBack : State.reset.busy = false ∧ State.reset.MemInv ∧ State.reset.cfg.Legal ∧
    State.reset.cfg.num = .exact ∧ 0 < State.reset.cfg.smWords ∧
    1048575 < State.reset.cfg.smWords ∧ (State.reset.hostWrite 0x7FFFFC#24 32 0x7F800000#32).cause = .nonfinite ∧
    ((State.reset.hostWrite 0x7FFFFC#24 32 0x7F7FFFFF#32).hostRead 0x7FFFFC#24 32).1 = 0x7F7FFFFF#32 :=
  ⟨rfl, init_wf _, wrsDsp_legal, rfl, by decide +kernel⟩
/-- The limits of the rounding: the largest number that rounds to a finite pattern and the least that does not, a tie, half the
least subnormal (a tie with 0) and what lies above it, on both sides of 0. -/
theorem witness_SampleReadIsNearest :
    let x : List ℚ := [1 / 3, 2 ^ 128 - 2 ^ 103 - 1, 2 ^ 128 - 2 ^ 103, -(2 ^ 128 - 2 ^ 103), 16777217, 16777219, 1 / 2 ^ 150,
      -1 / 2 ^ 150, 3 / 2 ^ 151]
    let s := args 0#32 0#32 0#32 0#32 0#32 x
    s.busy = false ∧ s.cfg.Legal ∧ 0 < s.cfg.smWords ∧
    (List.range 9).map (fun i => (s.hostRead (BitVec.ofNat 24 (0x400000 + 4 * i)) 32).1) =
      [0x3EAAAAAB#32, 0x7F7FFFFF#32, 0x7F800000#32, 0xFF800000#32, 0x4B800000#32, 0x4B800002#32, 0#32, 0#32, 1#32] :=
  ⟨rfl, wrsDsp_legal, by decide, by decide +kernel⟩
/-- The formats at their corners: zero, the least subnormal, the least normal number, 1, -2, the largest number, infinity. -/
theorem witness_SampleReadIsNearest_formats :
    [0#32, 1#32, 0x00800000#32, 0x3F800000#32, 0xC0000000#32, 0x7F7FFFFF#32].map value32 =
      [0, 1 / 2 ^ 149, 1 / 2 ^ 126, 1, -2, (2 ^ 24 - 1) * 2 ^ 104] ∧ finite32 0x7F800000#32 = false ∧
    [0#64, 1#64, 0x0010000000000000#64, 0x3FF0000000000000#64, 0xC000000000000000#64, 0x7FEFFFFFFFFFFFFF#64].map value64 =
      [0, 1 / 2 ^ 1074, 1 / 2 ^ 1022, 1, -2, (2 ^ 53 - 1) * 2 ^ 971] ∧ finite64 0x7FF0000000000000#64 = false := by decide +kernel
/-- IRQ from each of its two sources alone, and a command that faults. -/
theorem witness_IrqFollowsCompletion : exec (.nop 0#6) State.reset = .next { State.reset with done := true } ∧
    Instr.nop 0#6 ≠ .srst 0#6 ∧ { State.reset with fault := true, fie := true }.irq = true ∧
    { State.reset with done := true, die := true }.irq = true ∧ { State.reset with fault := true, die := true }.irq = false ∧
    (after (exec (.nop 1#6) { State.reset with fie := true })).irq = true ∧
    (after (exec (.nop 0#6) { State.reset with fie := true })).irq = false :=
  ⟨rfl, by decide⟩
theorem witness_HardResetState : { State.reset with events := [.hardReset, .engine] }.events = .hardReset :: [.engine] := rfl

/-- A reachable state that meets the invariants and takes a step: FIR.RUN on a configured unit with samples. -/
def busyFir : State :=
  { withFir (args 0#32 4#32 0#32 0#32 0#32 [4, 8, 12, 16]) [0, 0] [] 0 with busy := true, pending := 0x0C000000#32 }
theorem witness_StepKeepsMemory : busyFir.MemInv ∧ step busyFir = .next (after (step busyFir)) ∧
    (after (step busyFir)).memRead 0 4 = rats [1, 4, 8, 12] := by
  refine ⟨?_, rfl, by decide +kernel⟩
  unfold State.MemInv; decide +kernel
theorem witness_StepKeepsFaultRecord : State.reset.FaultInv ∧ (pendingState 0x78000000#32).FaultInv ∧
    step (pendingState 0x78000000#32) = .next (after (step (pendingState 0x78000000#32))) ∧
    (after (step (pendingState 0x78000000#32))).cause = .illegalOpcode :=
  ⟨⟨by decide, by decide, .inl rfl⟩, ⟨by decide, by decide, .inl rfl⟩, rfl, by decide⟩

/-- Reset with unit 0 of SHF, STS and DEM configured, the engine about to run STS.RUN. -/
def busyLoop : State :=
  { withDem (withSts (withShf (args 0#32 2#32 8#32 0#32 0#32 [0, 0]) 4 0)) with busy := true, pending := 0x54000000#32 }
theorem of_put {α : Type} {P : α → Prop} {x y : α} (hx : P x) (hy : P y) :
    ∀ U ∈ (put (Vector.replicate unitSlots y) 0#6 x).toList, P U := by
  intro U h
  rcases mem_put h with rfl | h
  · exact hx
  · simp only [Vector.toList_replicate, List.mem_replicate] at h
    exact h.2 ▸ hy
theorem of_reset {α : Type} {P : α → Prop} {y : α} (hy : P y) : ∀ U ∈ (Vector.replicate unitSlots y).toList, P U := by
  intro U h
  simp only [Vector.toList_replicate, List.mem_replicate] at h
  exact h.2 ▸ hy
theorem witness_StepKeepsDelayLines : (busyFir.cfg.maxTaps ≤ busyFir.cfg.maxBlock ∧ busyFir.DelayInv ∧ busyFir.RiInv) ∧
    step busyFir = .next (after (step busyFir)) ∧ ((after (step busyFir)).firUnit 0).line.H = rats [12, 16] := by
  have k3 : KernelLength Config.wrsDsp 3 := ⟨by decide, by decide⟩
  refine ⟨⟨by decide, ⟨of_put ⟨fun _ => ⟨k3, rfl, ⟨rfl, by decide, .inr ⟨rfl, rfl⟩⟩⟩, fun h => absurd h (by simp)⟩
      ⟨fun h => absurd h (by simp [FirUnit.reset]), fun _ => rfl⟩,
    of_reset ⟨fun h => absurd h (by simp [RdsUnit.reset])⟩, of_reset ⟨fun h => absurd h (by simp [CdsUnit.reset])⟩,
    of_reset ⟨by decide, List.length_replicate, List.length_replicate⟩⟩, by unfold State.RiInv; decide⟩, rfl, by decide +kernel⟩
theorem sts_rates : (stsConfigured Config.wrsDsp 336000).wmin = .rat (9 / 160) ∧ (stsConfigured Config.wrsDsp 336000).w = .rat (19 / 336) ∧
    (stsConfigured Config.wrsDsp 336000).wmax = .rat (191 / 3360) ∧ (stsConfigured Config.wrsDsp 336000).theta = .zero := by decide +kernel
theorem witness_StepKeepsPhases : busyLoop.cfg.num = .exact ∧ busyLoop.cfg.Legal ∧ busyLoop.PhaseInv ∧ busyLoop.NcoInv ∧ step busyLoop = .next (after (step busyLoop)) ∧
    ((after (step busyLoop)).stsUnit 0).theta = .rat (19 / 168) := by
  obtain ⟨h1, h2, h3, h4⟩ := sts_rates
  refine ⟨rfl, wrsDsp_legal, ⟨of_put turn_zero turn_zero, of_put (by rw [h4]; exact turn_zero) turn_zero⟩, of_put ?_ ?_, rfl, by decide +kernel⟩
  · intro _
    rw [h1, h2, h3]
    norm_num [Num.toReal]
  · intro h
    exact absurd h (by simp [StsUnit.reset])
theorem witness_StepKeepsPoles : busyLoop.cfg.num = .exact ∧ busyLoop.cfg.Legal ∧ busyLoop.PoleInv ∧ step busyLoop = .next (after (step busyLoop)) := by
  refine ⟨rfl, wrsDsp_legal, ⟨of_reset fun h => ?_, of_put (fun _ => by norm_num [PoleOk, Num.toReal]) fun h => ?_, of_reset fun h => ?_,
    of_reset fun h => ?_⟩, rfl⟩
  · exact absurd h (by simp [AmdUnit.reset])
  · exact absurd h (by simp [DemUnit.reset])
  · exact absurd h (by simp [AgcUnit.reset])
  · exact absurd h (by simp [DcbUnit.reset])

/-- Blocks of 1 and 2 samples on the unit of the vectors V-FIR; the three runs answer next states. -/
theorem witness_FirStreaming :
    let s := withFir (args 0#32 0#32 0#32 0#32 0#32 [4, 8, 12]) [0, 0] [] 0
    s.cfg.Legal ∧ s.MemInv ∧ (s.firUnit 0).Ok s.cfg ∧ (0#6).toNat < s.cfg.nFir ∧ (s.firUnit 0).configured = true ∧
    1 + 2 ≤ s.cfg.maxBlock ∧ 0 + (1 + 2) ≤ s.cfg.smWords ∧
    let at_ : State → Nat → Nat → State := fun s a n => { s with A := (s.A.set 0 (BitVec.ofNat 32 a)).set 1 (BitVec.ofNat 32 n) }
    let t1 := after (exec (.firRun 0#6) (at_ s 0 1))
    exec (.firRun 0#6) (at_ s 0 1) = .next t1 ∧
    exec (.firRun 0#6) (at_ t1 (0 + 1) 2) = .next (after (exec (.firRun 0#6) (at_ t1 (0 + 1) 2))) ∧
    exec (.firRun 0#6) (at_ s 0 (1 + 2)) = .next (after (exec (.firRun 0#6) (at_ s 0 (1 + 2)))) :=
  ⟨wrsDsp_legal, by unfold State.MemInv; decide +kernel, firOk _ _ _ rfl (by decide) (.inr ⟨rfl, rfl⟩), by decide, rfl, by decide, by decide,
    rfl, rfl, rfl⟩
theorem witness_LpkSymmetricUnitGain : 1 ≤ 3 ∧ (lpkSum .exact 2 (.rat 1) 3).toReal ≠ 0 := by
  have h : lpkSum .exact 2 (.rat 1) 3 = .mono 1 1 := by decide +kernel
  refine ⟨by decide, ?_⟩
  rw [h]
  simp [Num.toReal, Real.pi_ne_zero]
theorem witness_HilbertKernel : 151 % 2 = 1 ∧ 3 ≤ 151 := by decide
theorem witness_ConvIsLinear (j : Nat) : realAt [.rat 8] j = 2 * realAt [.rat 1] j + 3 * realAt [.rat 2] j := by
  cases j <;> norm_num [realAt, Num.toReal]
/-- Units 0 and 1 at rate 4 from phase 0, shifted by 1 and by -1. -/
def twoShifters : State :=
  (withShf (argsP 0#32 3#32 3#32 one64 [1, 1 / 2, 0, 0, 1 / 2, 1]) 4 0).setShf 1 { configured := true, R := 4, theta := .zero }
theorem witness_ShiftRoundTrip :
    let s := twoShifters
    let t1 := after (exec (.shfRun 0#6) s)
    let t2 := after (exec (.shfRun 1#6) { t1 with P := t1.P.set 0 minusOne64 })
    s.cfg.num = .exact ∧ s.MemInv ∧ (0#6 : UnitIdx) ≠ 1#6 ∧ (0#6).toNat < s.cfg.nShf ∧ (1#6).toNat < s.cfg.nShf ∧
    (s.shfUnit 0).configured = true ∧ s.shfUnit 1 = s.shfUnit 0 ∧ s.paramFinite 0 = true ∧ finite64 minusOne64 = true ∧
    value64 minusOne64 = -s.param 0 ∧ s.arg 2 ≤ s.cfg.maxBlock ∧ s.arg 0 + s.arg 2 ≤ s.cfg.smWords ∧
    s.arg 1 + s.arg 2 ≤ s.cfg.smWords ∧ (s.arg 2 = 0 ∨ s.arg 0 + s.arg 2 ≤ s.arg 1 ∨ s.arg 1 + s.arg 2 ≤ s.arg 0) ∧
    exec (.shfRun 0#6) s = .next t1 ∧ exec (.shfRun 1#6) { t1 with P := t1.P.set 0 minusOne64 } = .next t2 ∧
    (s.shfUnit 0).theta.toReal = 0 ∧ t2.memRead 0 6 = rats [1, 1 / 2, 0, 0, 1 / 2, 1] := by
  refine ⟨rfl, by unfold State.MemInv; decide +kernel, by decide, by decide, by decide, rfl, rfl, by decide +kernel, by decide +kernel,
    by decide +kernel, by decide +kernel, by decide +kernel, by decide +kernel, by decide +kernel, rfl, rfl, ?_, by decide +kernel⟩
  have h : (twoShifters.shfUnit 0).theta = .zero := rfl
  rw [h]
  simp [Num.toReal]

end Sys2Proof.Tests
end

section
/-! The statements about the state: the invariants every step keeps, and the registers that commands and the host write. -/

namespace Sys2Proof.Machine

/-! What a command that is no soft reset leaves alone -/

/-- `t` has the parameters, argument and parameter registers, fault record, interrupt enables and pending word of `s`. -/
structure State.SameControl (s t : State) : Prop where
  cfg : t.cfg = s.cfg := by rfl
  A : t.A = s.A := by rfl
  P : t.P = s.P := by rfl
  fault : t.fault = s.fault := by rfl
  cause : t.cause = s.cause := by rfl
  fcmd : t.fcmd = s.fcmd := by rfl
  faddr : t.faddr = s.faddr := by rfl
  fie : t.fie = s.fie := by rfl
  die : t.die = s.die := by rfl
  pending : t.pending = s.pending := by rfl

/-- The effect of every command but SRST leaves the control state alone (R112). -/
theorem runs_sameControl {i : Instr} {s v : State} (h : Instr.Runs i s v) (hi : ∀ u, i ≠ .srst u) : s.SameControl v := by
  cases i
  case nop u => obtain rfl := h; exact {}
  case srst u => exact absurd rfl (hi u)
  all_goals obtain ⟨-, rfl⟩ := h
  -- by the laws of State: unfolding both sides would compare the computed RI with the old one
  case genLpk u => constructor <;> simp [genLpkEffect]
  case cdsRun u => constructor <;> simp [cdsRunEffect]
  all_goals exact {}

/-- `t` has the parameters, RI and the units of `s`. -/
structure State.SameUnits (s t : State) : Prop where
  cfg : t.cfg = s.cfg := by rfl
  RI : t.RI = s.RI := by rfl
  fir : t.fir = s.fir := by rfl
  shf : t.shf = s.shf := by rfl
  rds : t.rds = s.rds := by rfl
  cds : t.cds = s.cds := by rfl
  fmd : t.fmd = s.fmd := by rfl
  amd : t.amd = s.amd := by rfl
  ssb : t.ssb = s.ssb := by rfl
  sts : t.sts = s.sts := by rfl
  dem : t.dem = s.dem := by rfl
  agc : t.agc = s.agc := by rfl
  dcb : t.dcb = s.dcb := by rfl

/-- A fault touches no unit and not RI (R119). -/
theorem recordFault_sameUnits (s : State) (c : Cause) (fw fa : Word) : s.SameUnits (s.recordFault c fw fa) := by
  unfold State.recordFault
  split <;> exact {}

/-- An invariant of the parameters, RI and the units is kept by every step if reset meets it and every effect of a command but
SRST keeps it: nothing else writes RI or a unit. -/
theorem kept_of_units (Inv : State → Prop)
    (hsame : ∀ s t, s.SameUnits t → Inv s → Inv t)
    (hinit : ∀ s, Inv s → Inv (State.init s.cfg))
    (hx : ∀ s (i : Instr) v, Inv s → Instr.Runs i s v → (∀ u, i ≠ .srst u) → Inv v) : Kept Inv := by
  refine kept_of Inv (fun _ _ => hsame _ _ {}) (fun s c w h _ => ?_) (fun s i v h _ hv => ?_) (fun s c a h _ => ?_)
    (fun _ _ => hsame _ _ {}) (fun _ _ _ => hsame _ _ {}) (fun _ _ => hsame _ _ {}) (fun _ _ => hsame _ _ {})
    (fun _ _ => hsame _ _ {}) (fun _ _ => hsame _ _ {}) (fun _ _ _ h _ => hsame _ _ {} h) (fun _ _ => hsame _ _ {})
    (fun s h => hsame (State.init s.cfg) _ {} (hinit s h))
  · exact hsame (s.recordFault c w 0#32) _ {} (hsame s _ (recordFault_sameUnits s c w 0#32) h)
  · by_cases hi : ∀ u, i ≠ .srst u
    · exact hsame v _ {} (hx s i v h hv hi)
    · obtain ⟨u, rfl⟩ : ∃ u, i = .srst u := by simpa using hi
      obtain rfl : v = s.softReset := hv
      exact hsame (State.init s.cfg) _ {} (hinit s h)
  · exact hsame s _ (recordFault_sameUnits s c 0#32 _) h

/-! A property of every unit of a kind -/

theorem forall_mem_put {α : Type} {p : α → Prop} {v : Vector α unitSlots} {u : UnitIdx} {x : α}
    (h : ∀ y ∈ v.toList, p y) (hx : p x) : ∀ y ∈ (put v u x).toList, p y := by
  intro y hy
  rcases mem_put hy with rfl | hy
  · exact hx
  · exact h y hy

theorem forall_mem_pick {α : Type} {p : α → Prop} {v : Vector α unitSlots} (h : ∀ y ∈ v.toList, p y) (u : UnitIdx) :
    p (pick v u) :=
  h _ (pick_mem v u)

theorem forall_mem_replicate {α : Type} {p : α → Prop} {x : α} (h : p x) :
    ∀ y ∈ (Vector.replicate unitSlots x).toList, p y := by
  intro y hy
  rw [Vector.toList_replicate] at hy
  exact List.eq_of_mem_replicate hy ▸ h

/-! What a command's checks establish when they pass (R117) -/

theorem ite_some_eq_none {α : Type} {p : Prop} [Decidable p] {x : α} {r : Option α} :
    (if p then some x else r) = none ↔ ¬ p ∧ r = none := by
  split <;> simp_all

theorem genLpkCheck_pass {s : State} (h : genLpkCheck s = none) :
    oddTaps (s.arg 1) ≤ s.cfg.maxTaps ∧ s.arg 0 + oddTaps (s.arg 1) ≤ s.cfg.smWords := by
  simp only [genLpkCheck_eq, ite_some_eq_none, not_or, not_lt] at h
  obtain ⟨_, ⟨_, htaps, _⟩, _, _, hfit, _⟩ := h
  exact ⟨htaps, hfit⟩

theorem firSetkCheck_pass {s : State} (h : firSetkCheck s = none) : KernelLength s.cfg (s.arg 1) := by
  simp only [firSetkCheck_eq, ite_some_eq_none, not_or, not_lt] at h
  obtain ⟨⟨_, hmax, hodd⟩, _⟩ := h
  exact ⟨by omega, hmax⟩

theorem firBlockCheck_pass {u : UnitIdx} {s : State} (h : firBlockCheck u s = none) :
    (s.firUnit u).configured = true ∧ s.arg 1 ≤ s.cfg.maxBlock ∧ s.arg 0 + s.arg 1 ≤ s.cfg.smWords := by
  simpa only [firBlockCheck_eq, ite_some_eq_none, not_or, not_lt, Bool.not_eq_false, and_true] using h

theorem firConfiguredCheck_pass {u : UnitIdx} {s : State} (h : firConfiguredCheck u s = none) :
    (s.firUnit u).configured = true := by
  simpa only [firConfiguredCheck_eq, ite_some_eq_none, Bool.not_eq_false, and_true] using h

theorem shfRunCheck_pass {u : UnitIdx} {s : State} (h : shfRunCheck u s = none) :
    s.arg 0 + s.arg 2 ≤ s.cfg.smWords ∧ s.arg 1 + s.arg 2 ≤ s.cfg.smWords := by
  simp only [shfRunCheck_eq, ite_some_eq_none, not_or, not_lt] at h
  obtain ⟨_, _, ⟨_, h0, h1⟩, _⟩ := h
  exact ⟨h0, h1⟩

theorem downCfgCheck_pass {s : State} (h : downCfgCheck s = none) :
    1 ≤ s.arg 1 ∧ s.arg 1 ≤ s.arg 0 ∧ KernelLength s.cfg (oddTaps (s.arg 2)) := by
  simp only [downCfgCheck_eq, ite_some_eq_none, not_or, not_lt] at h
  obtain ⟨⟨_, h1, h2⟩, ⟨_, h3⟩, _⟩ := h
  exact ⟨h1, h2, by unfold oddTaps; omega, h3⟩

theorem rdsRunCheck_pass {u : UnitIdx} {s : State} (h : rdsRunCheck u s = none) :
    (s.rdsUnit u).configured = true ∧ s.arg 1 ≤ s.cfg.maxBlock ∧
    s.arg 2 + downLength (s.rdsUnit u).inRate (s.rdsUnit u).outRate (s.arg 1) ≤ s.cfg.smWords := by
  simp only [rdsRunCheck_eq, ite_some_eq_none, not_or, not_lt, Bool.not_eq_false] at h
  obtain ⟨hc, ⟨hb, _, hm⟩, _⟩ := h
  exact ⟨hc, hb, hm⟩

theorem cdsRunCheck_pass {u : UnitIdx} {s : State} (h : cdsRunCheck u s = none) :
    (s.cdsUnit u).configured = true ∧ s.arg 2 ≤ s.cfg.maxBlock ∧
    s.arg 3 + downLength (s.cdsUnit u).inRate (s.cdsUnit u).outRate (s.arg 2) ≤ s.cfg.smWords ∧
    s.arg 4 + downLength (s.cdsUnit u).inRate (s.cdsUnit u).outRate (s.arg 2) ≤ s.cfg.smWords := by
  simp only [cdsRunCheck_eq, ite_some_eq_none, not_or, not_lt, Bool.not_eq_false] at h
  obtain ⟨hc, ⟨hb, _, _, hI, hQ⟩, _⟩ := h
  exact ⟨hc, hb, hI, hQ⟩

theorem fmdRunCheck_pass {u : UnitIdx} {s : State} (h : fmdRunCheck u s = none) : s.arg 3 + s.arg 2 ≤ s.cfg.smWords := by
  simp only [fmdRunCheck_eq, ite_some_eq_none, not_or, not_lt] at h
  obtain ⟨_, ⟨_, _, _, hdst⟩, _⟩ := h
  exact hdst

theorem amdRunCheck_pass {u : UnitIdx} {s : State} (h : amdRunCheck u s = none) : s.arg 3 + s.arg 2 ≤ s.cfg.smWords := by
  simp only [amdRunCheck_eq, ite_some_eq_none, not_or, not_lt] at h
  obtain ⟨_, ⟨_, _, _, hdst⟩, _⟩ := h
  exact hdst

theorem ssbRunCheck_pass {u : UnitIdx} {s : State} (h : ssbRunCheck u s = none) : s.arg 3 + s.arg 2 ≤ s.cfg.smWords := by
  simp only [ssbRunCheck_eq, ite_some_eq_none, not_or, not_lt] at h
  obtain ⟨_, ⟨_, _, _, hdst⟩, _⟩ := h
  exact hdst

theorem ssbCfgCheck_pass {s : State} (h : ssbCfgCheck s = none) : s.arg 0 ≤ 1 := by
  simpa only [ssbCfgCheck_eq, ite_some_eq_none, not_lt, and_true] using h

theorem stsRunCheck_pass {u : UnitIdx} {s : State} (h : stsRunCheck u s = none) : s.arg 2 + s.arg 1 ≤ s.cfg.smWords := by
  simp only [stsRunCheck_eq, ite_some_eq_none, not_or, not_lt] at h
  obtain ⟨_, ⟨_, _, hdst⟩, _⟩ := h
  exact hdst

theorem inPlaceCheck_pass {c : Bool} {s : State} (h : inPlaceCheck c s = none) : s.arg 0 + s.arg 1 ≤ s.cfg.smWords := by
  simp only [inPlaceCheck_eq, ite_some_eq_none, not_or, not_lt] at h
  obtain ⟨_, ⟨_, hfit⟩, _⟩ := h
  exact hfit

/-! Sample memory (R43, R47, R48) -/

/-- A block written inside SM_WORDS keeps the canonical form. -/
theorem memWrite_memInv {s : State} (h : s.MemInv) {a : Nat} {vs : List Num} (ha : a + vs.length ≤ s.cfg.smWords) :
    (s.memWrite a vs).MemInv :=
  writeBlock_wf s.cfg.smWords s.epoch vs s.sm a ha h

theorem iqBlock_length (s : State) : s.iqBlock.length = s.arg 2 := by simp [State.iqBlock]

/-- The effect of every command keeps the canonical form: its checks hold the blocks it writes inside SM_WORDS (R48). -/
theorem runs_memInv {i : Instr} {s v : State} (hs : s.MemInv) (h : Instr.Runs i s v) : v.MemInv := by
  cases i
  case nop u => obtain rfl := h; exact hs
  case srst u => obtain rfl := h; exact hs
  all_goals obtain ⟨hc, rfl⟩ := h
  case genLpk u => exact memWrite_memInv hs (by rw [lpk_length]; exact (genLpkCheck_pass hc).2)
  case firRun u =>
    obtain ⟨_, _, hfit⟩ := firBlockCheck_pass hc
    exact memWrite_memInv (s := firLoadEffect u s) hs (by simpa [firLoadEffect] using hfit)
  case shfRun u =>
    obtain ⟨hI, hQ⟩ := shfRunCheck_pass hc
    refine memWrite_memInv (memWrite_memInv (s := s.setShf u _) hs ?_) ?_
    · simpa [shiftBlock_length] using hI
    · simpa [shiftBlock_length] using hQ
  case rdsRun u =>
    obtain ⟨_, _, hfit⟩ := rdsRunCheck_pass hc
    exact memWrite_memInv (s := s.setRds u _) hs (by simpa [downPick] using hfit)
  case cdsRun u =>
    obtain ⟨_, _, hI, hQ⟩ := cdsRunCheck_pass hc
    refine memWrite_memInv (memWrite_memInv (s := s.setCds u _) hs ?_) ?_
    · simpa [downPick] using hI
    · simpa [downPick] using hQ
  case fmdRun u =>
    exact memWrite_memInv (s := s.setFmd u _) hs (by simpa [discriminateBlock_length, iqBlock_length] using fmdRunCheck_pass hc)
  case amdRun u =>
    exact memWrite_memInv (s := s.setAmd u _) hs (by simpa [highPassBlock_length, iqBlock_length] using amdRunCheck_pass hc)
  case ssbRun u => exact memWrite_memInv (s := s.setSsb u _) hs (by simpa using ssbRunCheck_pass hc)
  case stsRun u =>
    refine memWrite_memInv (s := s.setSts u _) hs ?_
    have hfit := stsRunCheck_pass hc
    split
    · simpa [pilotBlock_length] using hfit
    · simpa using hfit
  case demRun u =>
    exact memWrite_memInv (s := s.setDem u _) hs (by simpa [lowPassBlock_length] using inPlaceCheck_pass hc)
  case agcRun u =>
    exact memWrite_memInv (s := s.setAgc u _) hs (by simpa [agcBlock_length] using inPlaceCheck_pass hc)
  case dcbRun u =>
    exact memWrite_memInv (s := s.setDcb u _) hs (by simpa [highPassBlock_length] using inPlaceCheck_pass hc)
  all_goals exact hs

theorem recordFault_memInv {s : State} (h : s.MemInv) (c : Cause) (fw fa : Word) : (s.recordFault c fw fa).MemInv := by
  unfold State.MemInv
  rw [recordFault_cfg, recordFault_epoch, recordFault_sm]
  exact h

/-- Settles O51: only commands and host writes reach sample memory, both inside SM_WORDS; a hardware reset empties the list. -/
theorem stepKeepsMemory : Obligations.StepKeepsMemory :=
  kept_of State.MemInv
    (hf := fun _ c w h _ => recordFault_memInv h c w 0#32)
    (hbf := fun _ c _ h _ => recordFault_memInv h c 0#32 _)
    (hx := fun _ _ v h _ hv => show v.MemInv from runs_memInv h hv)
    (hs := fun _ _ _ h hi => write_wf _ _ _ _ _ hi h)
    (hh := fun s _ => ⟨(init_wf s.cfg).1, nofun⟩)
    (hev := fun _ _ h => h) (hst := fun _ _ h => h) (hct := fun _ _ _ h => h) (hfv := fun _ _ h => h) (hcm := fun _ _ h => h)
    (hA := fun _ _ h => h) (hP := fun _ _ h => h) (hr := fun _ _ h => h)

/-! The fault record (R26, R28, R115) -/

theorem faultInv_congr {s t : State} (hs : s.FaultInv) (hf : t.fault = s.fault) (hc : t.cause = s.cause) (hw : t.fcmd = s.fcmd)
    (ha : t.faddr = s.faddr) : t.FaultInv :=
  ⟨by rw [hf, hc, hw, ha]; exact hs.clear, by rw [hf, hc]; exact hs.named, by rw [hw, ha]; exact hs.source⟩

theorem init_faultInv (c : Params) : (State.init c).FaultInv := ⟨fun _ => ⟨rfl, rfl, rfl⟩, nofun, .inl rfl⟩

/-- A fault recorded with a real cause and at most one of FCMD and FADDR keeps the record consistent (R119). -/
theorem recordFault_faultInv {s : State} (hs : s.FaultInv) {c : Cause} (hc : c ≠ .none) {fw fa : Word}
    (h0 : fw = 0#32 ∨ fa = 0#32) : (s.recordFault c fw fa).FaultInv := by
  unfold State.recordFault
  split
  · exact faultInv_congr hs rfl rfl rfl rfl
  · exact ⟨nofun, fun _ => hc, h0⟩

/-- Clearing FAULT empties the record; the other bits leave it alone (R120). -/
theorem statusW1C_faultInv {s : State} (hs : s.FaultInv) (v : Word) : (s.statusW1C v).FaultInv := by
  cases hv : v[0]
  · exact faultInv_congr hs (by simp [hv]) (by simp [hv]) (by simp [hv]) (by simp [hv])
  · exact ⟨fun _ => by simp [hv], by simp [hv], by simp [hv]⟩

theorem runs_faultInv {i : Instr} {s v : State} (hs : s.FaultInv) (h : Instr.Runs i s v) : v.FaultInv := by
  by_cases hi : ∀ u, i ≠ .srst u
  · have hf := runs_sameControl h hi
    exact faultInv_congr hs hf.fault hf.cause hf.fcmd hf.faddr
  · obtain ⟨u, rfl⟩ : ∃ u, i = .srst u := by simpa using hi
    obtain rfl : v = s.softReset := h
    exact faultInv_congr (init_faultInv s.cfg) rfl rfl rfl rfl

/-- Settles O53: a step records one fault with its own word or address, clears the record, resets it or leaves it alone. -/
theorem stepKeepsFaultRecord : Obligations.StepKeepsFaultRecord :=
  kept_of State.FaultInv
    (hf := fun _ _ _ h hc => faultInv_congr (recordFault_faultInv h hc (.inr rfl)) rfl rfl rfl rfl)
    (hbf := fun _ _ _ h hc => recordFault_faultInv h hc (.inl rfl))
    (hst := fun _ v h => statusW1C_faultInv h v)
    (hx := fun _ _ _ h _ hv => faultInv_congr (runs_faultInv h hv) rfl rfl rfl rfl)
    (hh := fun s _ => faultInv_congr (init_faultInv s.cfg) rfl rfl rfl rfl)
    (hev := fun _ _ h => faultInv_congr h rfl rfl rfl rfl) (hct := fun _ _ _ h => faultInv_congr h rfl rfl rfl rfl)
    (hfv := fun _ _ h => faultInv_congr h rfl rfl rfl rfl) (hcm := fun _ _ h => faultInv_congr h rfl rfl rfl rfl)
    (hA := fun _ _ h => faultInv_congr h rfl rfl rfl rfl) (hP := fun _ _ h => faultInv_congr h rfl rfl rfl rfl)
    (hs := fun _ _ _ h _ => faultInv_congr h rfl rfl rfl rfl) (hr := fun _ _ h => faultInv_congr h rfl rfl rfl rfl)

/-! Delay lines (R31, R33, R34, R37) -/

theorem zeroed_ok (c : Params) (M : Nat) : (Line.zeroed M).Ok c M :=
  ⟨zeros_length _, Nat.zero_le _, .inr ⟨rfl, rfl⟩⟩

/-- A loaded block of at most MAX_BLOCK samples keeps the shape of a delay line: its history is the last `M-1` samples (R75). -/
theorem load_ok {c : Params} {M : Nat} {l : Line} (h : l.Ok c M) {x : List Num} (hx : x.length ≤ c.maxBlock) :
    (l.load M x).Ok c M where
  history := by simp [Line.load, h.history]
  loaded := hx
  window := .inl (by simp [Line.load, h.history])

theorem oddTaps_odd (taps : Nat) : oddTaps taps % 2 = 1 := by unfold oddTaps; omega

theorem firUnit_reset_ok (c : Params) : FirUnit.reset.Ok c := ⟨nofun, fun _ => rfl⟩

theorem rdsUnit_reset_ok (c : Params) : RdsUnit.reset.Ok c := ⟨nofun⟩

theorem cdsUnit_reset_ok (c : Params) : CdsUnit.reset.Ok c := ⟨nofun⟩

theorem ssbUnit_reset_ok (c : Params) : (SsbUnit.reset c).Ok c :=
  ⟨Nat.zero_le _, by simp [SsbUnit.reset], by simp [SsbUnit.reset]⟩

/-- A configured FIR unit with a block loaded keeps the shape of R31. -/
theorem firUnit_load_ok {c : Params} {U : FirUnit} (hU : U.Ok c) (hc : U.configured = true) {x : List Num}
    (hx : x.length ≤ c.maxBlock) : FirUnit.Ok c { U with line := U.line.load U.M x } := by
  obtain ⟨hM, hh, hl⟩ := hU.shape hc
  exact ⟨fun _ => ⟨hM, hh, load_ok hl hx⟩, fun h => absurd (hc.symm.trans h) nofun⟩

theorem runs_firOk {i : Instr} {s v : State} (hs : ∀ U ∈ s.fir.toList, U.Ok s.cfg) (h : Instr.Runs i s v)
    (hi : ∀ u, i ≠ .srst u) : ∀ U ∈ v.fir.toList, U.Ok s.cfg := by
  cases i
  case nop u => obtain rfl := h; exact hs
  case srst u => exact absurd rfl (hi u)
  all_goals obtain ⟨hc, rfl⟩ := h
  case firSetk u =>
    have hline := resize_length (s.firUnit u).line.H (s.arg 1 - 1)
    exact forall_mem_put hs
      ⟨fun _ => ⟨firSetkCheck_pass hc, memRead_length _ _ _, hline, Nat.zero_le _, .inr ⟨rfl, rfl⟩⟩, nofun⟩
  case firRun u =>
    obtain ⟨hconf, hlen, _⟩ := firBlockCheck_pass hc
    exact forall_mem_put hs (firUnit_load_ok (forall_mem_pick hs u) hconf (by simpa using hlen))
  case firLoad u =>
    obtain ⟨hconf, hlen, _⟩ := firBlockCheck_pass hc
    exact forall_mem_put hs (firUnit_load_ok (forall_mem_pick hs u) hconf (by simpa using hlen))
  case firClr u =>
    have hconf := firConfiguredCheck_pass hc
    obtain ⟨hM, hh, _⟩ := (forall_mem_pick hs u).shape hconf
    exact forall_mem_put hs ⟨fun _ => ⟨hM, hh, zeroed_ok _ _⟩, fun h => absurd (hconf.symm.trans h) nofun⟩
  case genLpk u => simpa [genLpkEffect] using hs
  case cdsRun u => simpa [cdsRunEffect] using hs
  all_goals exact hs

theorem runs_rdsOk {i : Instr} {s v : State} (hs : ∀ U ∈ s.rds.toList, U.Ok s.cfg) (h : Instr.Runs i s v)
    (hi : ∀ u, i ≠ .srst u) : ∀ U ∈ v.rds.toList, U.Ok s.cfg := by
  cases i
  case nop u => obtain rfl := h; exact hs
  case srst u => exact absurd rfl (hi u)
  all_goals obtain ⟨hc, rfl⟩ := h
  case rdsCfg u =>
    obtain ⟨hout, hin, hM⟩ := downCfgCheck_pass hc
    exact forall_mem_put hs ⟨fun _ => ⟨hout, hin, hM, lpk_length _ _ _ _, zeroed_ok _ _⟩⟩
  case rdsRun u =>
    obtain ⟨hconf, hlen, _⟩ := rdsRunCheck_pass hc
    obtain ⟨hout, hin, hM, hh, hl⟩ := (forall_mem_pick hs u).shape hconf
    exact forall_mem_put hs ⟨fun _ => ⟨hout, hin, hM, hh, load_ok hl (by simpa using hlen)⟩⟩
  case genLpk u => simpa [genLpkEffect] using hs
  case cdsRun u => simpa [cdsRunEffect] using hs
  all_goals exact hs

theorem runs_cdsOk {i : Instr} {s v : State} (hs : ∀ U ∈ s.cds.toList, U.Ok s.cfg) (h : Instr.Runs i s v)
    (hi : ∀ u, i ≠ .srst u) : ∀ U ∈ v.cds.toList, U.Ok s.cfg := by
  cases i
  case nop u => obtain rfl := h; exact hs
  case srst u => exact absurd rfl (hi u)
  all_goals obtain ⟨hc, rfl⟩ := h
  case cdsCfg u =>
    obtain ⟨hout, hin, hM⟩ := downCfgCheck_pass hc
    exact forall_mem_put hs ⟨fun _ => ⟨hout, hin, hM, lpk_length _ _ _ _, zeroed_ok _ _, zeroed_ok _ _⟩⟩
  case cdsRun u =>
    obtain ⟨hconf, hlen, _⟩ := cdsRunCheck_pass hc
    obtain ⟨hout, hin, hM, hh, hI, hQ⟩ := (forall_mem_pick hs u).shape hconf
    exact forall_mem_put hs
      ⟨fun _ => ⟨hout, hin, hM, hh, load_ok hI (by simpa using hlen), load_ok hQ (by simpa using hlen)⟩⟩
  case genLpk u => simpa [genLpkEffect] using hs
  all_goals exact hs

theorem runs_ssbOk {i : Instr} {s v : State} (hs : ∀ U ∈ s.ssb.toList, U.Ok s.cfg) (h : Instr.Runs i s v)
    (hi : ∀ u, i ≠ .srst u) : ∀ U ∈ v.ssb.toList, U.Ok s.cfg := by
  cases i
  case nop u => obtain rfl := h; exact hs
  case srst u => exact absurd rfl (hi u)
  all_goals obtain ⟨hc, rfl⟩ := h
  case ssbCfg u => exact forall_mem_put hs ⟨ssbCfgCheck_pass hc, zeros_length _, zeros_length _⟩
  case ssbRun u =>
    have hU : (s.ssbUnit u).Ok s.cfg := forall_mem_pick hs u
    exact forall_mem_put hs ⟨hU.sideband, by simp [hU.history], by simp [hU.delay]⟩
  case genLpk u => simpa [genLpkEffect] using hs
  case cdsRun u => simpa [cdsRunEffect] using hs
  all_goals exact hs

theorem delayInv_congr {s t : State} (ht : s.SameUnits t) (hs : s.DelayInv) : t.DelayInv where
  fir := by rw [ht.fir, ht.cfg]; exact hs.fir
  rds := by rw [ht.rds, ht.cfg]; exact hs.rds
  cds := by rw [ht.cds, ht.cfg]; exact hs.cds
  ssb := by rw [ht.ssb, ht.cfg]; exact hs.ssb

theorem init_delayInv (c : Params) : (State.init c).DelayInv where
  fir := forall_mem_replicate (firUnit_reset_ok c)
  rds := forall_mem_replicate (rdsUnit_reset_ok c)
  cds := forall_mem_replicate (cdsUnit_reset_ok c)
  ssb := forall_mem_replicate (ssbUnit_reset_ok c)

theorem runs_delayInv {i : Instr} {s v : State} (hs : s.DelayInv) (h : Instr.Runs i s v) (hi : ∀ u, i ≠ .srst u) :
    v.DelayInv := by
  have hcfg := (runs_sameControl h hi).cfg
  constructor <;> rw [hcfg]
  · exact runs_firOk hs.fir h hi
  · exact runs_rdsOk hs.rds h hi
  · exact runs_cdsOk hs.cds h hi
  · exact runs_ssbOk hs.ssb h hi

/-! RI within MAX_BLOCK (R113) -/

/-- A number stored in RI is at most the number the command computed. -/
theorem setRI_riInv {s : State} {n : Nat} (h : n ≤ s.cfg.maxBlock) : (s.setRI n).RiInv :=
  (BitVec.toNat_ofNat n 32 ▸ Nat.mod_le _ _).trans h

/-- A downsampler with `outRate <= inRate` never lengthens a block (R87). -/
theorem downLength_le {inR outR L : Nat} (h : outR ≤ inR) : downLength inR outR L ≤ L :=
  Nat.div_le_of_le_mul (by rw [Nat.mul_comm inR]; exact Nat.mul_le_mul_left L h)

theorem runs_riInv {i : Instr} {s v : State} (htaps : s.cfg.maxTaps ≤ s.cfg.maxBlock) (hd : s.DelayInv) (hs : s.RiInv)
    (h : Instr.Runs i s v) (hi : ∀ u, i ≠ .srst u) : v.RiInv := by
  cases i
  case nop u => obtain rfl := h; exact hs
  case srst u => exact absurd rfl (hi u)
  all_goals obtain ⟨hc, rfl⟩ := h
  case genLpk u => exact setRI_riInv ((genLpkCheck_pass hc).1.trans htaps)
  case firGdly u =>
    obtain ⟨⟨_, hM⟩, _⟩ := (forall_mem_pick hd.fir u).shape (firConfiguredCheck_pass hc)
    exact setRI_riInv ((Nat.div_le_self _ _).trans ((Nat.sub_le _ _).trans (hM.trans htaps)))
  case rdsRun u =>
    obtain ⟨hconf, hlen, _⟩ := rdsRunCheck_pass hc
    obtain ⟨_, hrate, _⟩ := (forall_mem_pick hd.rds u).shape hconf
    exact setRI_riInv ((downLength_le hrate).trans hlen)
  case cdsRun u =>
    obtain ⟨hconf, hlen, _⟩ := cdsRunCheck_pass hc
    obtain ⟨_, hrate, _⟩ := (forall_mem_pick hd.cds u).shape hconf
    exact setRI_riInv ((downLength_le hrate).trans hlen)
  all_goals exact hs

theorem riInv_congr {s t : State} (ht : s.SameUnits t) (hs : s.RiInv) : t.RiInv := by
  unfold State.RiInv
  rw [ht.RI, ht.cfg]
  exact hs

/-- Settles O52: each command keeps the shape of the unit it addresses, and RI is only ever a length that its checks bound. -/
theorem stepKeepsDelayLines : Obligations.StepKeepsDelayLines := by
  constructor
  · exact kept_of_units State.DelayInv (fun _ _ ht hs => delayInv_congr ht hs) (fun s _ => init_delayInv s.cfg)
      (fun _ _ _ hs h hi => runs_delayInv hs h hi)
  · refine kept_of_units _ (fun s t ht ⟨htaps, hd, hr⟩ => ⟨ht.cfg ▸ htaps, delayInv_congr ht hd, riInv_congr ht hr⟩)
      (fun s ⟨htaps, _, _⟩ => ⟨htaps, init_delayInv s.cfg, Nat.zero_le _⟩) (fun s i v ⟨htaps, hd, hr⟩ h hi => ?_)
    exact ⟨(runs_sameControl h hi).cfg ▸ htaps, runs_delayInv hd h hi, runs_riInv htaps hd hr h hi⟩

/-! Phases (R32, R38, R81, R97) -/

theorem turn_of_zero : Turn .zero := by simp [Turn, toReal_zero]

theorem turn_frac (a : Num) : Turn (Prim.frac .exact a) := by
  rw [Turn, toReal_frac]
  exact ⟨Int.fract_nonneg _, Int.fract_lt_one _⟩

theorem pilotStep_turn (U : StsUnit) (x : Num) : Turn (pilotStep .exact U x).theta := turn_frac _

/-- The phase after a shifted block is a fractional part, or the phase before an empty block (R81). -/
theorem shiftBlock_turn (d : Num) (xs : List (Num × Num)) : ∀ th, Turn th → Turn (shiftBlock .exact d th xs).2 := by
  induction xs with
  | nil => exact fun _ h => h
  | cons x xs ih => exact fun _ _ => ih _ (turn_frac _)

/-- A property of the loop's state that every sample keeps holds after a block (R97). -/
theorem pilotBlock_keeps {N : Profile} {p : StsUnit → Prop} (hp : ∀ U x, p U → p (pilotStep N U x)) (xs : List Num) :
    ∀ U, p U → p (pilotBlock N U xs).2 := by
  induction xs with
  | nil => exact fun _ h => h
  | cons x xs ih => exact fun U h => ih _ (hp U x h)

theorem runs_shfTurn {i : Instr} {s v : State} (hN : s.cfg.num = .exact) (hs : ∀ U ∈ s.shf.toList, Turn U.theta)
    (h : Instr.Runs i s v) (hi : ∀ u, i ≠ .srst u) : ∀ U ∈ v.shf.toList, Turn U.theta := by
  cases i
  case nop u => obtain rfl := h; exact hs
  case srst u => exact absurd rfl (hi u)
  all_goals obtain ⟨-, rfl⟩ := h
  case shfCfg u => exact forall_mem_put hs turn_of_zero
  case shfRun u =>
    refine forall_mem_put hs ?_
    rw [State.num, hN]
    exact shiftBlock_turn _ _ _ (forall_mem_pick hs u)
  case genLpk u => simpa [genLpkEffect] using hs
  case cdsRun u => simpa [cdsRunEffect] using hs
  all_goals exact hs

theorem runs_stsTurn {i : Instr} {s v : State} (hN : s.cfg.num = .exact) (hs : ∀ U ∈ s.sts.toList, Turn U.theta)
    (h : Instr.Runs i s v) (hi : ∀ u, i ≠ .srst u) : ∀ U ∈ v.sts.toList, Turn U.theta := by
  cases i
  case nop u => obtain rfl := h; exact hs
  case srst u => exact absurd rfl (hi u)
  all_goals obtain ⟨-, rfl⟩ := h
  case stsCfg u => exact forall_mem_put hs turn_of_zero
  case stsRun u =>
    refine forall_mem_put hs ?_
    rw [State.num, hN]
    exact pilotBlock_keeps (p := fun U => Turn U.theta) (fun U x _ => pilotStep_turn U x) _ _ (forall_mem_pick hs u)
  case genLpk u => simpa [genLpkEffect] using hs
  case cdsRun u => simpa [cdsRunEffect] using hs
  all_goals exact hs

theorem phaseInv_congr {s t : State} (ht : s.SameUnits t) (hs : s.PhaseInv) : t.PhaseInv where
  shf := by rw [ht.shf]; exact hs.shf
  sts := by rw [ht.sts]; exact hs.sts

theorem init_phaseInv (c : Params) : (State.init c).PhaseInv where
  shf := forall_mem_replicate turn_of_zero
  sts := forall_mem_replicate turn_of_zero

/-! The NCO frequency (R96, R97) -/

/-- The clause of `State.NcoInv` for one unit. -/
def StsUnit.NcoOk (U : StsUnit) : Prop := U.configured = true →
  U.wmin.toReal ≤ U.wmax.toReal ∧ U.wmin.toReal ≤ U.w.toReal ∧ U.w.toReal ≤ U.wmax.toReal

theorem ncoInv_iff {s : State} : s.NcoInv ↔ ∀ U ∈ s.sts.toList, U.NcoOk := Iff.rfl

/-- STS.CFG starts the NCO at the pilot, inside the pull range because PLL_PULL_HZ is positive (R96). -/
theorem stsConfigured_ncoOk {c : Params} (hN : c.num = .exact) (hc : c.Legal) (R : Nat) : (stsConfigured c R).NcoOk := by
  intro _
  have hpull : (0 : ℝ) < c.pllPullHz := by exact_mod_cast hc.positive c.pllPullHz (by simp)
  have hle : ∀ a b : ℝ, a ≤ b → a / R ≤ b / R := fun a b hab => div_le_div_of_nonneg_right hab R.cast_nonneg
  simp only [stsConfigured, hN, toReal_div, toReal_sub, toReal_add, toReal_lit, toReal_nat]
  exact ⟨hle _ _ (by linarith), hle _ _ (by linarith), hle _ _ (by linarith)⟩

/-- Each sample clamps the NCO frequency to the pull range (R97). -/
theorem pilotStep_ncoOk {U : StsUnit} (hU : U.NcoOk) (x : Num) : (pilotStep .exact U x).NcoOk := by
  intro hconf
  obtain ⟨hrange, _, _⟩ := hU hconf
  refine ⟨hrange, ?_, ?_⟩
  · rw [pilotStep, toReal_clamp]
    exact le_min (le_max_right _ _) hrange
  · rw [pilotStep, toReal_clamp]
    exact min_le_right _ _

theorem runs_ncoInv {i : Instr} {s v : State} (hN : s.cfg.num = .exact) (hc : s.cfg.Legal) (hs : s.NcoInv)
    (h : Instr.Runs i s v) (hi : ∀ u, i ≠ .srst u) : v.NcoInv := by
  rw [ncoInv_iff] at hs ⊢
  cases i
  case nop u => obtain rfl := h; exact hs
  case srst u => exact absurd rfl (hi u)
  all_goals obtain ⟨-, rfl⟩ := h
  case stsCfg u => exact forall_mem_put hs (stsConfigured_ncoOk hN hc _)
  case stsRun u =>
    refine forall_mem_put hs ?_
    rw [State.num, hN]
    exact pilotBlock_keeps (p := StsUnit.NcoOk) (fun _ x hU => pilotStep_ncoOk hU x) _ _ (forall_mem_pick hs u)
  case genLpk u => simpa [genLpkEffect] using hs
  case cdsRun u => simpa [cdsRunEffect] using hs
  all_goals exact hs

theorem ncoInv_congr {s t : State} (ht : s.SameUnits t) (hs : s.NcoInv) : t.NcoInv := by
  unfold State.NcoInv
  rw [ht.sts]
  exact hs

theorem init_ncoInv (c : Params) : (State.init c).NcoInv := forall_mem_replicate nofun

/-- Settles O54: every stored phase is 0 or a fractional part, and every NCO frequency is clamped. -/
theorem stepKeepsPhases : Obligations.StepKeepsPhases := by
  constructor
  · refine kept_of_units _ (fun _ _ ht ⟨hN, hs⟩ => ⟨ht.cfg ▸ hN, phaseInv_congr ht hs⟩)
      (fun s ⟨hN, _⟩ => ⟨hN, init_phaseInv s.cfg⟩) (fun s i v ⟨hN, hs⟩ h hi => ?_)
    exact ⟨(runs_sameControl h hi).cfg ▸ hN, runs_shfTurn hN hs.shf h hi, runs_stsTurn hN hs.sts h hi⟩
  · refine kept_of_units _ (fun _ _ ht ⟨hN, hc, hs⟩ => ⟨ht.cfg ▸ hN, ht.cfg ▸ hc, ncoInv_congr ht hs⟩)
      (fun s ⟨hN, hc, _⟩ => ⟨hN, hc, init_ncoInv s.cfg⟩) (fun s i v ⟨hN, hc, hs⟩ h hi => ?_)
    have hcfg := (runs_sameControl h hi).cfg
    exact ⟨hcfg ▸ hN, hcfg ▸ hc, runs_ncoInv hN hc hs h hi⟩

/-! The result registers (R17 to R23, R27) -/

theorem runs_RV {i : Instr} {s v : State} (h : Instr.Runs i s v) (hi : ∀ u, i ≠ .srst u) (hne : v.RV ≠ s.RV) :
    ∃ u, i = .firGet u ∨ i = .pwrRun u ∨ i = .pwrSnr u := by
  cases i
  case nop u => exact absurd (congrArg State.RV h) hne
  case srst u => exact absurd rfl (hi u)
  case firGet u => exact ⟨u, .inl rfl⟩
  case pwrRun u => exact ⟨u, .inr (.inl rfl)⟩
  case pwrSnr u => exact ⟨u, .inr (.inr rfl)⟩
  all_goals obtain ⟨-, rfl⟩ := h
  case genLpk u => exact absurd (by simp [genLpkEffect]) hne
  case cdsRun u => exact absurd (by simp [cdsRunEffect]) hne
  all_goals exact absurd rfl hne

theorem runs_RI {i : Instr} {s v : State} (h : Instr.Runs i s v) (hi : ∀ u, i ≠ .srst u) (hne : v.RI ≠ s.RI) :
    ∃ u, i = .genLpk u ∨ i = .firGdly u ∨ i = .rdsRun u ∨ i = .cdsRun u := by
  cases i
  case nop u => exact absurd (congrArg State.RI h) hne
  case srst u => exact absurd rfl (hi u)
  case genLpk u => exact ⟨u, .inl rfl⟩
  case firGdly u => exact ⟨u, .inr (.inl rfl)⟩
  case rdsRun u => exact ⟨u, .inr (.inr (.inl rfl))⟩
  case cdsRun u => exact ⟨u, .inr (.inr (.inr rfl))⟩
  all_goals obtain ⟨-, rfl⟩ := h; exact absurd rfl hne

theorem runs_rfFound {i : Instr} {s v : State} (h : Instr.Runs i s v) (hi : ∀ u, i ≠ .srst u)
    (hne : v.rfFound ≠ s.rfFound) : ∃ u, i = .stsRun u := by
  cases i
  case nop u => exact absurd (congrArg State.rfFound h) hne
  case srst u => exact absurd rfl (hi u)
  case stsRun u => exact ⟨u, rfl⟩
  all_goals obtain ⟨-, rfl⟩ := h
  case genLpk u => exact absurd (by simp [genLpkEffect]) hne
  case cdsRun u => exact absurd (by simp [cdsRunEffect]) hne
  all_goals exact absurd rfl hne

/-- The only SRST that is no BAD_UNIT fault is the one on unit 0 (R9, R117). -/
theorem ne_srst_of_validFor {i : Instr} {c : Params} (hw : i.ValidFor c) (hi : i ≠ .srst 0#6) : ∀ u, i ≠ .srst u := by
  rintro u rfl
  have hu : u = 0#6 := not_ne_iff.mp fun h => unit_ne_zero.mp h hw
  exact hi (hu ▸ rfl)

/-- Settles O37: a fault writes none of these registers, and each effect writes those its rule names. -/
theorem resultRegistersWritten : Obligations.ResultRegistersWritten := by
  intro i s t h hi
  rcases exec_cases h with ⟨c, _, rfl⟩ | ⟨hw, v, hv, rfl⟩
  · simp [State.faulted]
  · have hi := ne_srst_of_validFor hw hi
    have hc := runs_sameControl hv hi
    exact ⟨hc.A, hc.P, hc.fie, hc.die, hc.pending, runs_RV (v := v) hv hi, runs_RI (v := v) hv hi,
      runs_rfFound (v := v) hv hi⟩

/-! Idle accesses to the register window (R46, R109, R110) -/

/-- `addr` is the word-aligned address of register `r` (R46, R51). -/
abbrev Addresses (addr : BusAddr) (r : BusReg) : Prop :=
  addr.toNat % 4 = 0 ∧ addr.toNat < 0x1000 ∧ regName addr.toNat = some r

theorem accessOk_of_addresses {addr : BusAddr} {r : BusReg} (h : Addresses addr r) : accessOk addr 32 = true := by
  simp [accessOk, h.1]

theorem target_of_addresses {addr : BusAddr} {r : BusReg} (h : Addresses addr r) (c : Params) : target c addr = .reg r := by
  obtain ⟨_, hlt, hr⟩ := h
  rw [target, if_neg (by omega), if_pos hlt, hr]

theorem hostWrite_reg {addr : BusAddr} {r : BusReg} (h : Addresses addr r) (s : State) (v : Word) :
    s.hostWrite addr 32 v = s.regWrite r addr v := by
  simp [State.hostWrite, accessOk_of_addresses h, target_of_addresses h]

theorem hostRead_reg {addr : BusAddr} {r : BusReg} (h : Addresses addr r) {s : State} (hb : s.busy = false) :
    s.hostRead addr 32 = (s.regValue r, s) := by
  simp [State.hostRead, accessOk_of_addresses h, target_of_addresses h, hb]

theorem addresses_a : ∀ i : Fin 8, Addresses (BitVec.ofNat 24 (0x20 + 4 * i.val)) (.a i) := by decide

theorem addresses_pLo : ∀ i : Fin 4, Addresses (BitVec.ofNat 24 (0x40 + 8 * i.val)) (.pLo i) := by decide

theorem addresses_pHi : ∀ i : Fin 4, Addresses (BitVec.ofNat 24 (0x44 + 8 * i.val)) (.pHi i) := by decide

theorem addresses_ctrl : Addresses 0x00000C#24 .ctrl := by decide

/-- What an idle register write leaves, `t`, and what the register then reads as. -/
theorem hostWrite_hostRead_reg {addr : BusAddr} {r : BusReg} (h : Addresses addr r) {s t : State} {v : Word}
    (hw : s.regWrite r addr v = t) (hb : t.busy = false) :
    s.hostWrite addr 32 v = t ∧ (s.hostWrite addr 32 v).hostRead addr 32 = (t.regValue r, t) := by
  rw [hostWrite_reg h, hw, hostRead_reg h hb]
  exact ⟨rfl, rfl⟩

theorem setLow_low (p : DWord) (v : Word) : (setLow p v).extractLsb' 0 32 = v := by
  unfold setLow; exact BitVec.extractLsb'_append_eq_right

theorem setLow_high (p : DWord) (v : Word) : (setLow p v).extractLsb' 32 32 = p.extractLsb' 32 32 := by
  unfold setLow; exact BitVec.extractLsb'_append_eq_left

theorem setHigh_low (p : DWord) (v : Word) : (setHigh p v).extractLsb' 0 32 = p.extractLsb' 0 32 := by
  unfold setHigh; exact BitVec.extractLsb'_append_eq_right

theorem setHigh_high (p : DWord) (v : Word) : (setHigh p v).extractLsb' 32 32 = v := by
  unfold setHigh; exact BitVec.extractLsb'_append_eq_left

/-- Bit `k` of a flag placed at bit `j` of a word. -/
theorem getLsbD_bit_shiftLeft (b : Bool) (j : Nat) {k : Nat} (hk : k < 32) : (bit b <<< j).getLsbD k = (decide (k = j) && b) := by
  have h1 : (1#32).getLsbD (k - j) = decide (k - j = 0) := by simp [BitVec.getLsbD_one]
  cases b with
  | false => simp [bit]
  | true =>
    rw [BitVec.getLsbD_shiftLeft, bit, if_pos rfl, h1]
    simp only [hk, decide_true, Bool.true_and, Bool.and_true, ← decide_not, ← Bool.decide_and, decide_eq_decide]
    omega

theorem getLsbD_bit (b : Bool) {k : Nat} (hk : k < 32) : (bit b).getLsbD k = (decide (k = 0) && b) := by
  simpa using getLsbD_bit_shiftLeft b 0 hk

theorem getLsbD_three : ∀ k < 32, (3#32).getLsbD k = decide (k < 2) := by decide

/-- CTRL holds the two low bits of a word written to it (R27). -/
theorem bit_or_bit_getLsbD (v : Word) : bit (v.getLsbD 0) ||| bit (v.getLsbD 1) <<< 1 = v &&& 3#32 := by
  apply BitVec.eq_of_getLsbD_eq
  intro k hk
  rw [BitVec.getLsbD_or, BitVec.getLsbD_and, getLsbD_bit _ hk, getLsbD_bit_shiftLeft _ _ hk, getLsbD_three k hk]
  match k with
  | 0 => simp
  | 1 => simp
  | k + 2 => simp

/-- Settles O44: at each address the write sets its register and nothing else, and the read that follows returns it. -/
theorem registerWriteReadBack : Obligations.RegisterWriteReadBack := by
  intro s v hb
  refine ⟨fun i => ?_, fun i => ⟨setLow s.P[i] v, setLow_low _ _, setLow_high _ _, ?_⟩,
    fun i => ⟨setHigh s.P[i] v, setHigh_high _ _, setHigh_low _ _, ?_⟩, ?_⟩
  · have h := hostWrite_hostRead_reg (addresses_a i) (t := { s with A := s.A.set i v }) (v := v) (if_neg (by simp [hb])) hb
    simpa [State.regValue] using h
  · have h := hostWrite_hostRead_reg (addresses_pLo i) (t := { s with P := s.P.set i (setLow s.P[i] v) }) (v := v)
      (if_neg (by simp [hb])) hb
    simpa [State.regValue, setLow_low] using h
  · have h := hostWrite_hostRead_reg (addresses_pHi i) (t := { s with P := s.P.set i (setHigh s.P[i] v) }) (v := v)
      (if_neg (by simp [hb])) hb
    simpa [State.regValue, setHigh_high] using h
  · have h := hostWrite_hostRead_reg addresses_ctrl (t := { s with fie := v.getLsbD 0, die := v.getLsbD 1 }) (v := v) rfl hb
    rwa [State.regValue, State.ctrlWord, bit_or_bit_getLsbD] at h

/-- The pattern RV reads as is the binary64 number nearest to its exact value (R52). -/
theorem bits64_rne (a : Num) : Rne 11 52 (bits64 a).toNat a.toReal := by
  rw [bits64_toNat]
  exact realPattern_rne 11 52 a.toReal (by norm_num) (by norm_num) (by norm_num)

/-- The registers the host cannot write, each with its address (R46). -/
def readOnlyAddresses : List (BusAddr × BusReg) :=
  [(0x00#24, .id), (0x10#24, .fcmd), (0x14#24, .faddr), (0x18#24, .ri), (0x1C#24, .rf), (0x60#24, .rvLo), (0x64#24, .rvHi)]

theorem addresses_readOnly : ∀ p ∈ readOnlyAddresses, Addresses p.1 p.2 := by decide

/-- An idle write to a read-only register is ignored (R109). -/
theorem hostWrite_readOnly {s : State} (hb : s.busy = false) (v : Word) :
    ∀ p ∈ readOnlyAddresses, s.hostWrite p.1 32 v = s := by
  intro p hp
  rw [hostWrite_reg (addresses_readOnly p hp)]
  revert p
  simp [readOnlyAddresses, State.regWrite, hb]

/-- Settles O45: the writes fall on read-only registers, and each read is the register's value. -/
theorem readOnlyRegisters : Obligations.ReadOnlyRegisters := by
  intro s v hb
  refine ⟨fun addr ha => ?_, hostRead_reg (r := .id) (by decide) hb, hostRead_reg (r := .cmd) (by decide) hb,
    hostRead_reg (r := .status) (by decide) hb, hostRead_reg (r := .fcmd) (by decide) hb,
    hostRead_reg (r := .faddr) (by decide) hb, hostRead_reg (r := .ri) (by decide) hb,
    hostRead_reg (r := .rf) (by decide) hb, bits64 s.RV, hostRead_reg (r := .rvLo) (by decide) hb,
    hostRead_reg (r := .rvHi) (by decide) hb, bits64_rne s.RV⟩
  obtain ⟨p, hp, rfl⟩ := List.mem_map.mp (show addr ∈ readOnlyAddresses.map Prod.fst from ha)
  exact hostWrite_readOnly hb v p hp

/-! STATUS (R26, R115) -/

/-- Every bit of STATUS: the four flags, and CAUSE from bit 8 on. -/
theorem statusWord_getLsbD (s : State) {k : Nat} (hk : k < 32) : s.statusWord.getLsbD k =
    ((decide (k = 0) && s.fault) || (decide (k = 1) && s.busy) || (decide (k = 2) && s.done) || (decide (k = 3) && s.fovf) ||
      (decide (8 ≤ k) && s.cause.code.getLsbD (k - 8))) := by
  have hcause : (s.cause.code.zeroExtend 32 <<< 8).getLsbD k = (decide (8 ≤ k) && s.cause.code.getLsbD (k - 8)) := by
    have h8 : (!decide (k < 8)) = decide (8 ≤ k) := by simp [← decide_not]
    simp [hk, h8]
  rw [State.statusWord, BitVec.getLsbD_or, BitVec.getLsbD_or, BitVec.getLsbD_or, BitVec.getLsbD_or, getLsbD_bit _ hk,
    getLsbD_bit_shiftLeft _ _ hk, getLsbD_bit_shiftLeft _ _ hk, getLsbD_bit_shiftLeft _ _ hk, hcause]

/-- Bits 15:8 of STATUS are the code of CAUSE. -/
theorem statusWord_cause (s : State) : s.statusWord.extractLsb' 8 8 = s.cause.code := by
  apply BitVec.eq_of_getLsbD_eq
  intro j hj
  rw [BitVec.getLsbD_extractLsb', statusWord_getLsbD s (by omega)]
  simp [hj]
  omega

/-- Settles O46: each field is read off the bits it covers. -/
theorem statusBits : Obligations.StatusBits := by
  intro s
  have hbit := fun k (hk : k < 32) => statusWord_getLsbD s hk
  refine ⟨by rw [hbit 0 (by decide)]; simp, by rw [hbit 1 (by decide)]; simp, by rw [hbit 2 (by decide)]; simp,
    by rw [hbit 3 (by decide)]; simp, ?_, ?_, ?_⟩
  · apply BitVec.eq_of_getLsbD_eq
    intro j hj
    rw [BitVec.getLsbD_extractLsb', hbit (4 + j) (by omega)]
    simp
    omega
  · rw [statusWord_cause]
    cases s.cause <;> rfl
  · apply BitVec.eq_of_getLsbD_eq
    intro j hj
    rw [BitVec.getLsbD_extractLsb', hbit (16 + j) (by omega), BitVec.getLsbD_of_ge _ (16 + j - 8) (by omega)]
    simp
    omega

end Sys2Proof.Machine
end

section
/-! The statements about the host's accesses: which are refused, what passes while the engine is busy, and the formats in which sample
words and parameter registers are written and read. -/

namespace Sys2Proof.Machine

/-! Accesses the bus does not have (R45, R51) -/

/-- An access that is too narrow, misaligned or to an address that is not mapped is a BUS fault (R51). -/
theorem hostAccess_bad {s : State} {addr : BusAddr} {wd : Nat} (h : accessOk addr wd = false ∨ target s.cfg addr = .unmapped)
    (v : Word) :
    s.hostWrite addr wd v = s.busFault .bus addr ∧ s.hostRead addr wd = (0#32, s.busFault .bus addr) := by
  unfold State.hostWrite State.hostRead
  rcases h with h | h
  · simp [h]
  · simp [h]

theorem accessOk_eq_false {addr : BusAddr} {wd : Nat} (h : wd ≠ 32 ∨ addr.toNat % 4 ≠ 0) : accessOk addr wd = false := by
  simpa [accessOk, ← not_or, or_iff_not_imp_left] using h

/-- No register stands at 0x68 or above (R46). -/
theorem regName_reserved {n : Nat} (h : 0x68 ≤ n) : regName n = none := by
  obtain ⟨k, hk⟩ := Nat.exists_eq_add_of_le (show 26 ≤ n / 4 by omega)
  rw [regName, hk, Nat.add_comm]
  rfl

/-- Between the last register and the sample window, and above the window, nothing is mapped (R45, R46). -/
theorem target_unmapped {c : Params} {addr : BusAddr}
    (h : (0x68 ≤ addr.toNat ∧ addr.toNat < 0x400000) ∨ 0x400000 + 4 * c.smWords ≤ addr.toNat) : target c addr = .unmapped := by
  rw [target, if_neg (by omega), regName_reserved (by omega)]
  exact ite_self _

/-- Settles O41: each of the four kinds of access fails the width and alignment check or falls on no target. -/
theorem badAccessIsBusFault : Obligations.BadAccessIsBusFault := by
  intro s addr wd v h
  refine hostAccess_bad ?_ v
  rcases h with h | h | h | h
  · exact .inl (accessOk_eq_false (.inl h))
  · exact .inl (accessOk_eq_false (.inr h))
  · exact .inr (target_unmapped (.inl h))
  · exact .inr (target_unmapped (.inr h))

/-! Accesses while the engine is busy (R55) -/

/-- The byte offset of a register (R46). -/
def BusReg.offset : BusReg → Nat
  | .id => 0x00
  | .cmd => 0x04
  | .status => 0x08
  | .ctrl => 0x0C
  | .fcmd => 0x10
  | .faddr => 0x14
  | .ri => 0x18
  | .rf => 0x1C
  | .a i => 0x20 + 4 * i.val
  | .pLo i => 0x40 + 8 * i.val
  | .pHi i => 0x44 + 8 * i.val
  | .rvLo => 0x60
  | .rvHi => 0x64

theorem regName_map_offset : ∀ k < 26, (regName (4 * k)).map BusReg.offset = some (4 * k) := by decide

/-- A word-aligned address below 0x68 is the address of a register, at its offset (R46). -/
theorem exists_addresses {addr : BusAddr} (h4 : addr.toNat % 4 = 0) (hlt : addr.toNat < 0x68) :
    ∃ r, Addresses addr r ∧ addr.toNat = r.offset := by
  have hk := regName_map_offset (addr.toNat / 4) (by omega)
  rw [show 4 * (addr.toNat / 4) = addr.toNat by omega] at hk
  obtain ⟨r, hr, ho⟩ := Option.map_eq_some_iff.mp hk
  exact ⟨r, ⟨h4, by omega, hr⟩, ho.symm⟩

/-- A busy read of a register: its value, where R55 lets the host read it. -/
theorem hostRead_reg_busy {addr : BusAddr} {r : BusReg} (h : Addresses addr r) {s : State} (hb : s.busy = true) :
    s.hostRead addr 32 = if r.readableBusy then (s.regValue r, s) else (0#32, s.busFault .busy addr) := by
  cases hr : r.readableBusy <;> simp [State.hostRead, accessOk_of_addresses h, target_of_addresses h, hb, hr]

/-- A busy write to a register other than ID, STATUS and CTRL is a BUSY fault (R55, R109). -/
theorem regWrite_busy {s : State} (hb : s.busy = true) {r : BusReg} (hr : r ≠ .id ∧ r ≠ .status ∧ r ≠ .ctrl) (addr : BusAddr)
    (v : Word) : s.regWrite r addr v = s.busFault .busy addr := by
  cases r with
  | id | status | ctrl => simp at hr
  | cmd | fcmd | faddr | ri | rf | a | pLo | pHi | rvLo | rvHi => exact if_pos hb

/-- `StatusW1C` with each flag as the choice its bit makes (R120). -/
theorem statusW1C_eq (s : State) (v : Word) : s.statusW1C v = { s with
    fault := if v.getLsbD 0 then false else s.fault
    cause := if v.getLsbD 0 then .none else s.cause
    fcmd := if v.getLsbD 0 then 0#32 else s.fcmd
    faddr := if v.getLsbD 0 then 0#32 else s.faddr
    done := if v.getLsbD 2 then false else s.done
    fovf := if v.getLsbD 3 then false else s.fovf } := by
  have hflag : ∀ f b : Bool, (f && !b) = if b then false else f := by decide
  simp only [State.statusW1C, hflag]

/-- An aligned address inside the sample window names its word (R45, R47). -/
theorem target_window {c : Params} {addr : BusAddr} (h : 0x400000 ≤ addr.toNat ∧ addr.toNat < 0x400000 + 4 * c.smWords) :
    target c addr = .sample ((addr.toNat - 0x400000) / 4) := if_pos h

/-- Sample words are closed to the host while the engine is busy (R55). -/
theorem hostAccess_sample_busy {s : State} {addr : BusAddr} (hb : s.busy = true) (h4 : addr.toNat % 4 = 0)
    (h : 0x400000 ≤ addr.toNat ∧ addr.toNat < 0x400000 + 4 * s.cfg.smWords) (v : Word) :
    s.hostRead addr 32 = (0#32, s.busFault .busy addr) ∧ s.hostWrite addr 32 v = s.busFault .busy addr := by
  simp [State.hostRead, State.hostWrite, accessOk, h4, target_window h, hb]

/-- Settles O42: a register below 0x68 is found at its offset and treated by name; a sample word is refused. -/
theorem busyAccesses : Obligations.BusyAccesses := by
  intro s addr v hb h4 hmapped
  rcases hmapped with hlt | hwindow
  · obtain ⟨r, hr, ho⟩ := exists_addresses h4 hlt
    rw [hostRead_reg_busy hr hb, hostWrite_reg hr, ho]
    cases r with
    | id => exact ⟨rfl, rfl⟩
    | status => exact ⟨rfl, statusW1C_eq s v⟩
    | ctrl => exact ⟨rfl, rfl⟩
    | cmd | fcmd | faddr | ri | rf | rvLo | rvHi => exact ⟨rfl, regWrite_busy hb (by decide) addr v⟩
    | a | pLo | pHi =>
      have hoffset : 0x20 ≤ addr.toNat := by rw [ho, BusReg.offset]; omega
      rw [regWrite_busy hb (by simp), ← ho]
      simp (disch := omega) only [if_neg]
      exact ⟨rfl, rfl⟩
  · obtain ⟨hread, hwrite⟩ := hostAccess_sample_busy hb h4 hwindow v
    rw [hread, hwrite]
    simp (disch := omega) only [if_neg]
    exact ⟨rfl, rfl⟩

/-- `t` is `s` but for the fault record, FOVF, DONE, the interrupt enables and the value of the last host read. -/
def State.SameButFlags (s t : State) : Prop :=
  ∃ fault fovf done cause fie die fcmd faddr rdata, t = { s with
    fault := fault, fovf := fovf, done := done, cause := cause, fie := fie, die := die, fcmd := fcmd, faddr := faddr,
    rdata := rdata }

theorem sameButFlags_refl (s : State) : s.SameButFlags s := ⟨_, _, _, _, _, _, _, _, _, rfl⟩

theorem sameButFlags_setRdata {s t : State} (h : s.SameButFlags t) (w : Word) : s.SameButFlags { t with rdata := w } := by
  obtain ⟨_, _, _, _, _, _, _, _, _, rfl⟩ := h
  exact ⟨_, _, _, _, _, _, _, _, _, rfl⟩

theorem sameButFlags_busFault (s : State) (c : Cause) (addr : BusAddr) : s.SameButFlags (s.busFault c addr) := by
  unfold State.busFault State.recordFault
  split <;> exact ⟨_, _, _, _, _, _, _, _, _, rfl⟩

theorem hostWrite_sameButFlags {s : State} (hb : s.busy = true) (addr : BusAddr) (wd : Nat) (v : Word) :
    s.SameButFlags (s.hostWrite addr wd v) := by
  have hidle : s.busy ≠ false := by simp [hb]
  rcases hostWrite_cases s addr wd v with
    ⟨c, _, h⟩ | h | h | h | ⟨hi, _⟩ | ⟨hi, _⟩ | ⟨hi, _⟩ | ⟨hi, _⟩
  · exact h ▸ sameButFlags_busFault s c addr
  · exact h.symm ▸ sameButFlags_refl s
  · exact h ▸ ⟨_, _, _, _, _, _, _, _, _, rfl⟩
  · exact h ▸ ⟨_, _, _, _, _, _, _, _, _, rfl⟩
  all_goals exact absurd hi hidle

theorem hostRead_sameButFlags (s : State) (addr : BusAddr) (wd : Nat) : s.SameButFlags (s.hostRead addr wd).2 := by
  rcases hostRead_cases s addr wd with h | ⟨c, _, h⟩
  · exact h.symm ▸ sameButFlags_refl s
  · exact h ▸ sameButFlags_busFault s c addr

/-- Settles O43, by what a host write and a host read can do (R109, R110). -/
theorem busyHostLeavesCommandAlone : Obligations.BusyHostLeavesCommandAlone := by
  intro s t e hb he ht
  change s.SameButFlags t
  rcases he with ⟨addr, wd, v, rfl⟩ | ⟨addr, wd, rfl⟩
  · cases ht
    exact hostWrite_sameButFlags hb addr wd v
  · cases ht
    exact sameButFlags_setRdata (hostRead_sameButFlags s addr wd) _

/-! Idle accesses to sample words (R52, R53) -/

/-- The host's address of sample word `i` (R45, R47). -/
abbrev sampleAddr (i : Nat) : BusAddr := BitVec.ofNat 24 (0x400000 + 4 * i)

/-- In a legal block the window lies inside the bus, so no address wraps. -/
theorem sampleAddr_toNat {c : Params} (hc : c.Legal) {i : Nat} (hi : i < c.smWords) :
    (sampleAddr i).toNat = 0x400000 + 4 * i := by
  have hwindow := hc.window.2
  rw [BitVec.toNat_ofNat, Nat.mod_eq_of_lt (by omega)]

theorem target_sampleAddr {c : Params} (hc : c.Legal) {i : Nat} (hi : i < c.smWords) : target c (sampleAddr i) = .sample i := by
  have haddr := sampleAddr_toNat hc hi
  rw [target_window (by omega), haddr, Nat.add_sub_cancel_left, Nat.mul_div_cancel_left i (by decide)]

theorem accessOk_sampleAddr {c : Params} (hc : c.Legal) {i : Nat} (hi : i < c.smWords) : accessOk (sampleAddr i) 32 = true := by
  have haddr := sampleAddr_toNat hc hi
  rw [accessOk, haddr]
  simp

/-- An idle read of a sample word (R110). -/
theorem hostRead_sample {s : State} (hb : s.busy = false) (hc : s.cfg.Legal) {i : Nat} (hi : i < s.cfg.smWords) :
    s.hostRead (sampleAddr i) 32 = (bits32 (s.readSM i), s) := by
  simp [State.hostRead, accessOk_sampleAddr hc hi, target_sampleAddr hc hi, hb]

theorem hostRead_withMemory {s : State} (hb : s.busy = false) (hc : s.cfg.Legal) {i : Nat} (hi : i < s.cfg.smWords) (m : Memory) :
    { s with sm := m }.hostRead (sampleAddr i) 32 = (bits32 (Memory.read s.epoch m i), { s with sm := m }) :=
  hostRead_sample (s := { s with sm := m }) hb hc hi

/-- An idle write of a sample word (R53, R109). -/
theorem hostWrite_sample {s : State} (hb : s.busy = false) (hc : s.cfg.Legal) {i : Nat} (hi : i < s.cfg.smWords) (v : Word) :
    s.hostWrite (sampleAddr i) 32 v = if finite32 v then
      { s with sm := Memory.write s.epoch s.sm i (Prim.lit s.cfg.num (value32 v)) } else s.busFault .nonfinite (sampleAddr i) := by
  cases hf : finite32 v <;>
    simp [State.hostWrite, accessOk_sampleAddr hc hi, target_sampleAddr hc hi, hb, hf]

/-- A field of a word as the pattern formulas cut it out. -/
theorem toNat_extractLsb' {w : Nat} (v : BitVec w) (start len : Nat) :
    (v.extractLsb' start len).toNat = v.toNat / 2 ^ start % 2 ^ len := by
  rw [BitVec.extractLsb'_toNat, Nat.shiftRight_eq_div_pow]

/-- A pattern is not finite exactly when its exponent field is all ones (log 16). -/
theorem floatFinite_eq_false_iff {w : Nat} (eb fb : Nat) (v : BitVec w) :
    floatFinite eb fb v.toNat = false ↔ v.extractLsb' fb eb = BitVec.allOnes eb := by
  rw [floatFinite, bne_eq_false_iff_eq, ← toNat_extractLsb', ← BitVec.toNat_allOnes, BitVec.toNat_inj]

/-- The value of a pattern by its sign, exponent and fraction, where the scale is the bias and the fraction's width (log 16). -/
theorem floatValue_fields {w : Nat} (eb fb : Nat) (v : BitVec w) {scale : ℤ} (hscale : floatBias eb + fb = scale) :
    (floatValue eb fb v.toNat : ℝ) =
    let e := (v.extractLsb' fb eb).toNat
    let f := (v.extractLsb' 0 fb).toNat
    (if v.getLsbD (fb + eb) then -1 else 1) *
      if e = 0 then (f : ℝ) * 2 ^ (1 - scale) else (2 ^ fb + f : ℝ) * 2 ^ ((e : ℤ) - scale) := by
  have hsign : v.getLsbD (fb + eb) = decide (v.toNat / 2 ^ (fb + eb) % 2 = 1) := Nat.testBit_eq_decide_div_mod_eq
  simp only [toNat_extractLsb', pow_zero, Nat.div_one, hsign, decide_eq_true_eq, ← hscale, ← sub_sub, ← pow2_eq, floatValue]
  split_ifs <;> push_cast <;> ring

theorem finite32_eq_false_iff (v : Word) : finite32 v = false ↔ v.extractLsb' 23 8 = 0xFF#8 := floatFinite_eq_false_iff 8 23 v

/-- A finite pattern's value reads as the pattern, -0.0 as +0 (R14, R52). -/
theorem bits32_value32 {v : Word} (hf : finite32 v = true) : bits32 (.rat (value32 v)) = if v = 0x80000000#32 then 0#32 else v := by
  have hneg : v = 0x80000000#32 ↔ v.toNat = 2 ^ (8 + 23) := by rw [← BitVec.toNat_inj]; rfl
  apply BitVec.eq_of_toNat_eq
  rw [bits32_toNat, toReal_rat, value32, realPattern_floatValue 8 23 v.toNat (by decide) v.isLt hf]
  simp only [hneg, apply_ite BitVec.toNat]
  rfl

/-- Settles O47: the write stores the pattern's value in word `i` alone, and a value of the format reads as its pattern. -/
theorem sampleWriteReadBack : Obligations.SampleWriteReadBack := by
  intro s i v hb hmem hc hi
  have hwrite := hostWrite_sample hb hc hi v
  dsimp only
  split
  next hones => rw [hwrite, (finite32_eq_false_iff v).mpr hones]; rfl
  next hones =>
    have hf : finite32 v = true := by simpa using (finite32_eq_false_iff v).not.mpr hones
    have hsame := read_write_same s.epoch s.sm i (Prim.lit s.cfg.num (value32 v)) hmem.1
    rw [if_pos hf] at hwrite
    refine ⟨_, hwrite, hsame, fun a ha => read_write_other s.epoch s.sm i a _ ha, fun hexact => ?_⟩
    rw [hexact, lit_exact] at hsame hwrite ⊢
    refine ⟨hsame, ?_⟩
    rw [hwrite, hostRead_withMemory hb hc hi, hsame, bits32_value32 hf]

/-- The pattern a sample word reads as is the binary32 number nearest to its exact value (R52). -/
theorem bits32_rne (a : Num) : Rne 8 23 (bits32 a).toNat a.toReal := by
  rw [bits32_toNat]
  exact realPattern_rne 8 23 a.toReal (by norm_num) (by norm_num) (by norm_num)

/-- Settles O48: the read is `bits32`, and both formats are read by one lemma about the fields of a pattern. -/
theorem sampleReadIsNearest : Obligations.SampleReadIsNearest := by
  refine ⟨fun s i hb hc hi => ?_, fun s i => ⟨floatFinite_eq_false_iff 11 52 s.P[i], ?_⟩, fun v => ⟨finite32_eq_false_iff v, ?_⟩⟩
  · rw [hostRead_sample hb hc hi]
    exact ⟨rfl, bits32_rne _⟩
  · exact floatValue_fields 11 52 s.P[i] (scale := 1075) (by decide)
  · exact floatValue_fields 8 23 v (scale := 150) (by decide)

end Sys2Proof.Machine
end

section
/-! The statements about command words: the decoder and the encoder are inverse to each other, and what the engine does with a word
that is no command on a valid unit. -/

namespace Sys2Proof.Machine

/-! The opcode map, read in both directions (R64, R65) -/

/-- Every command stands in the row of its own operation code, on its own unit. -/
theorem ofOpc_opc (i : Instr) : ofOpc i.opc.toNat i.unit = some i := by
  cases i <;> rfl

/-- The row of an operation code holds a command with that code and the given unit. -/
theorem fields_of_ofOpc {n : Nat} {u : UnitIdx} {i : Instr} (h : ofOpc n u = some i) : i.opc.toNat = n ∧ i.unit = u := by
  unfold ofOpc at h
  split at h <;> cases h <;> exact ⟨rfl, rfl⟩

/-- The reserved operation codes are 0x1E to 0x3E, and all beyond the six bits of OPC (R65). -/
theorem ofOpc_eq_none_iff {n : Nat} {u : UnitIdx} : ofOpc n u = none ↔ ¬ (n < 0x1E ∨ n = 0x3F) := by
  unfold ofOpc
  split
  -- the last row of the map: every code that is not listed
  case h_32 => simp only [true_iff, imp_false] at *; omega
  all_goals simp

/-! The fields of a word (R62) -/

theorem fields_encode (i : Instr) : opcOf (encode i) = i.opc ∧ unitOf (encode i) = i.unit ∧ rsvdOf (encode i) = 0#20 :=
  Laws.fields_of_append i.opc i.unit

/-- A word is made of its three fields. -/
theorem append_fields (w : Word) : opcOf w ++ unitOf w ++ rsvdOf w = w := by
  have hou : opcOf w ++ unitOf w = w.extractLsb' 20 12 := BitVec.extractLsb'_append_extractLsb'_eq_extractLsb' rfl
  calc opcOf w ++ unitOf w ++ rsvdOf w
      = w.extractLsb' 20 12 ++ w.extractLsb' 0 20 := by rw [hou, rsvdOf]
    _ = w.extractLsb' 0 32 := BitVec.extractLsb'_append_extractLsb'_eq_extractLsb' rfl
    _ = w := BitVec.extractLsb'_eq_self

/-! The decoder (R65) -/

theorem decode_eq_ok_iff_fields {w : Word} {i : Instr} :
    decode w = .ok i ↔ ofOpc (opcOf w).toNat (unitOf w) = some i ∧ rsvdOf w = 0#20 := by
  unfold decode
  cases ofOpc (opcOf w).toNat (unitOf w) with
  | none => simp
  | some j => by_cases hr : rsvdOf w = 0#20 <;> simp [hr]

/-- The one word that decodes to a command is the command's own word. -/
theorem decode_eq_ok_iff {w : Word} {i : Instr} : decode w = .ok i ↔ w = encode i := by
  rw [decode_eq_ok_iff_fields]
  constructor
  · rintro ⟨hi, hr⟩
    obtain ⟨hopc, hunit⟩ := fields_of_ofOpc hi
    have hopc : i.opc = opcOf w := BitVec.eq_of_toNat_eq hopc
    rw [encode, hopc, hunit, ← hr, append_fields]
  · rintro rfl
    obtain ⟨hopc, hunit, hr⟩ := fields_encode i
    exact ⟨by rw [hopc, hunit, ofOpc_opc], hr⟩

/-- A reserved OPC is rejected whatever the other fields hold. -/
theorem decode_illegalOpcode {w : Word} (h : ¬ ((opcOf w).toNat < 0x1E ∨ (opcOf w).toNat = 0x3F)) :
    decode w = .error .illegalOpcode := by
  simp [decode, ofOpc_eq_none_iff.mpr h]

/-- A listed OPC names a command on every unit field. -/
theorem exists_ofOpc {w : Word} (h : (opcOf w).toNat < 0x1E ∨ (opcOf w).toNat = 0x3F) :
    ∃ i, ofOpc (opcOf w).toNat (unitOf w) = some i :=
  Option.ne_none_iff_exists'.mp fun hn => ofOpc_eq_none_iff.mp hn h

theorem decode_reservedBits {w : Word} (h : (opcOf w).toNat < 0x1E ∨ (opcOf w).toNat = 0x3F) (hr : rsvdOf w ≠ 0#20) :
    decode w = .error .reservedBits := by
  obtain ⟨i, hi⟩ := exists_ofOpc h
  simp [decode, hi, hr]

theorem exists_eq_encode {w : Word} (h : (opcOf w).toNat < 0x1E ∨ (opcOf w).toNat = 0x3F) (hr : rsvdOf w = 0#20) :
    ∃ i, w = encode i := by
  obtain ⟨i, hi⟩ := exists_ofOpc h
  exact ⟨i, decode_eq_ok_iff.mp (decode_eq_ok_iff_fields.mpr ⟨hi, hr⟩)⟩

/-- Settles O31: both directions are the one equivalence. -/
theorem decodeAndEncodeAgree : Obligations.DecodeAndEncodeAgree :=
  ⟨fun _ => decode_eq_ok_iff.mpr rfl, fun _ _ => decode_eq_ok_iff.mp⟩

/-- Settles O30: each of the words is the word of its command. -/
theorem sampleWordsDecode : Obligations.SampleWordsDecode := by
  simp only [Obligations.SampleWordsDecode, decode_eq_ok_iff]
  decide

/-! The kinds by operation code (R9, R64) -/

/-- The first and the last operation code of each stateful kind, and how many units the kind has. -/
def statefulKinds (c : Params) : List (Nat × Nat × Nat) :=
  [(0x02, 0x07, c.nFir), (0x08, 0x09, c.nShf), (0x0A, 0x0B, c.nRds), (0x0C, 0x0D, c.nCds), (0x0E, 0x0F, c.nFmd),
    (0x10, 0x11, c.nAmd), (0x12, 0x13, c.nSsb), (0x14, 0x15, c.nSts), (0x16, 0x17, c.nDem), (0x18, 0x19, c.nAgc),
    (0x1A, 0x1B, c.nDcb)]

theorem statefulKinds_lt (c : Params) : ∀ k ∈ statefulKinds c, k.2.1 < 0x1E := by
  simp [statefulKinds]

theorem unitCount_stateful (c : Params) (i : Instr) :
    ∀ k ∈ statefulKinds c, k.1 ≤ i.opc.toNat → i.opc.toNat ≤ k.2.1 → i.unitCount c = k.2.2 := by
  cases i <;> simp [statefulKinds, Instr.opc, Instr.unitCount]

theorem unitCount_stateless (c : Params) {i : Instr}
    (h : i.opc.toNat < 0x02 ∨ i.opc.toNat = 0x1C ∨ i.opc.toNat = 0x1D ∨ i.opc.toNat = 0x3F) : i.unitCount c = 1 := by
  cases i
  case nop | genLpk | pwrRun | pwrSnr | srst => rfl
  all_goals simp [Instr.opc] at h

/-! The engine's turn (R112, R117) -/

/-- The engine moves next from `s`, at the state `t`: no event is left, or its turn is the next event (log 9). -/
def State.EngineNext (s t : State) : Prop :=
  (s.events = [] ∧ t = s) ∨ ∃ es, s.events = .engine :: es ∧ t = { s with events := es }

theorem step_of_engineNext {s t : State} (hb : s.busy = true) (h : s.EngineNext t) : step s = engineStep t := by
  rcases h with ⟨he, rfl⟩ | ⟨es, he, rfl⟩ <;> simp [step, he, eventStep, engineTurn, hb]

theorem pending_of_engineNext {s t : State} (h : s.EngineNext t) : t.pending = s.pending := by
  rcases h with ⟨-, rfl⟩ | ⟨es, -, rfl⟩ <;> rfl

theorem cfg_of_engineNext {s t : State} (h : s.EngineNext t) : t.cfg = s.cfg := by
  rcases h with ⟨-, rfl⟩ | ⟨es, -, rfl⟩ <;> rfl

theorem engineStep_reject {s : State} {r : Reject} (h : decode s.pending = .error r) :
    engineStep s = .next (s.faulted (rejectCause r) s.pending) := by
  simp [engineStep, h]

theorem engineStep_encode {s : State} {i : Instr} (h : s.pending = encode i) : engineStep s = exec i s := by
  simp [engineStep, decode_eq_ok_iff.mpr h]

/-- Every command checks its unit before anything else (R117 step 3). -/
theorem exec_badUnit {i : Instr} {s : State} (h : ¬ i.ValidFor s.cfg) : exec i s = .next (s.faulted .badUnit (encode i)) := by
  cases i <;> exact runCommand_badUnit h

/-- A word of a listed OPC whose unit is beyond those of the OPC's kind faults with BAD_UNIT (R9). -/
theorem engineStep_badUnit {s : State} (ho : (opcOf s.pending).toNat < 0x1E ∨ (opcOf s.pending).toNat = 0x3F)
    (hr : rsvdOf s.pending = 0#20)
    (hu : ∀ i : Instr, i.opc = opcOf s.pending → i.unitCount s.cfg ≤ (unitOf s.pending).toNat) :
    engineStep s = .next (s.faulted .badUnit s.pending) := by
  obtain ⟨i, hi⟩ := exists_eq_encode ho hr
  obtain ⟨hopc, hunit, -⟩ := fields_encode i
  rw [← hi] at hopc hunit
  have hbad : ¬ i.ValidFor s.cfg := by rw [Instr.ValidFor, ← hunit]; exact (hu i hopc.symm).not_gt
  rw [engineStep_encode hi, exec_badUnit hbad, hi]

/-- Settles O32: the decoder rejects the first two classes of words, and a word of the third is a command on an invalid unit. -/
theorem invalidWordFaults : Obligations.InvalidWordFaults := by
  intro s t hb ht
  have hstep : step s = engineStep t := step_of_engineNext hb ht
  rw [hstep, ← pending_of_engineNext ht, ← cfg_of_engineNext ht]
  refine ⟨fun ⟨hlo, hhi⟩ => ?_, fun ⟨ho, hr⟩ => ?_, fun hr => ⟨fun k hk hlo hhi hu => ?_, fun ho hu => ?_⟩⟩
  · exact engineStep_reject (decode_illegalOpcode (by rw [opcOf]; omega))
  · exact engineStep_reject (decode_reservedBits ho hr)
  · refine engineStep_badUnit (.inl (hhi.trans_lt (statefulKinds_lt t.cfg k hk))) hr fun i hi => ?_
    rw [unitCount_stateful t.cfg i k hk (hi ▸ hlo) (hi ▸ hhi)]
    exact hu
  · refine engineStep_badUnit (by rw [opcOf]; omega) hr fun i hi => ?_
    rw [unitCount_stateless t.cfg (hi ▸ ho)]
    exact hu

end Sys2Proof.Machine
end

section
/-! What a command answers, read off its checks one by one in the order of R117: the shape of the statements about commands. -/

namespace Sys2Proof.Machine

/-- A command faults with BAD_UNIT, or it goes on to its own checks on a valid unit (R117 step 3). -/
theorem faults_badUnit_or {i : Instr} {s : State} {check : Option Cause} {effect : State → State} {P R : Prop} [Decidable P]
    (hx : exec i s = runCommand i s check effect) (hP : P ↔ ¬ i.ValidFor s.cfg)
    (hR : i.ValidFor s.cfg → exec i s = runCommand i s check effect → R) : if P then Faults i s .badUnit else R := by
  split
  next h => exact exec_badUnit (hP.mp h)
  next h => exact hR (not_not.mp (mt hP.mpr h)) hx

/-- A command on a valid unit faults with its next check, or it goes on to the checks after it. -/
theorem faults_or {i : Instr} {s : State} {p : Prop} [Decidable p] {c : Cause} {rest : Option Cause} {effect : State → State}
    {R : Prop} (hv : i.ValidFor s.cfg) (hx : exec i s = runCommand i s (if p then some c else rest) effect)
    (hR : ¬ p → exec i s = runCommand i s rest effect → R) : if p then Faults i s c else R := by
  split
  next h => exact hx.trans (runCommand_fault hv (if_pos h))
  next h => exact hR h (by rwa [if_neg h] at hx)

/-- A command on a valid unit with no check left completes with its effect. -/
theorem exec_completes {i : Instr} {s : State} {effect : State → State} (hv : i.ValidFor s.cfg)
    (hx : exec i s = runCommand i s none effect) : exec i s = .next (effect s).complete :=
  hx.trans (runCommand_pass hv rfl)

end Sys2Proof.Machine
end

section
/-! The statements about the kernel generator and the FIR filter: what each command answers, and the laws of its results. -/

namespace Sys2Proof.Machine

/-! Kernels in the `EXACT` profile (R68, R69) -/

theorem one_le_oddTaps (taps : Nat) : 1 ≤ oddTaps taps := by unfold oddTaps; omega

/-- A sum of the machine is the sum over its index range. -/
theorem toReal_sum_range (f : Nat → Num) (n : Nat) :
    (Prim.sum .exact ((List.range n).map f)).toReal = ∑ i ∈ Finset.range n, (f i).toReal := by
  rw [toReal_sum, List.map_map]
  rfl

/-- R68. -/
theorem toReal_hamming_eq {M : Nat} (hM : 1 ≤ M) (n : Nat) : (hamming .exact M n).toReal = realHamming M n := by
  rw [toReal_hamming, realHamming, Nat.cast_sub hM, Nat.cast_one]

/-- R69's raw coefficient. -/
theorem toReal_lpkRaw (fc : Num) {M : Nat} (hM : 1 ≤ M) (n : Nat) : (lpkRaw .exact fc M n).toReal = realRaw fc.toReal M n := by
  simp only [lpkRaw, realRaw, toReal_mul, toReal_hamming_eq hM]
  congr 1
  split
  · simp
  · simp [toReal_rat]

/-- R69's sum `S`. -/
theorem toReal_lpkSum (rate : Nat) (corner : Num) (taps : Nat) :
    (lpkSum .exact rate corner taps).toReal =
      ∑ j ∈ Finset.range (oddTaps taps), realRaw (corner.toReal / rate) (oddTaps taps) j := by
  rw [lpkSum, lpkRaws, toReal_sum_range]
  refine Finset.sum_congr rfl fun j _ => ?_
  rw [toReal_lpkRaw _ (one_le_oddTaps taps), toReal_div, toReal_nat]

/-- The machine's kernel is the kernel of R69. -/
theorem lpk_isLpk (rate : Nat) (corner : Num) (taps : Nat) :
    IsLpk (lpk .exact rate corner taps) rate corner.toReal (oddTaps taps) := by
  refine ⟨lpk_length _ _ _ _, fun n hn => ?_⟩
  rw [lpk, lpkRaws, List.map_map, realAt_map_range _ _ _ hn, Function.comp_apply, toReal_div, toReal_lpkSum,
    toReal_lpkRaw _ (one_le_oddTaps taps), toReal_div, toReal_nat, realLpk]

/-- The Hamming window is symmetric: its cosine is even about the middle of the window. -/
theorem realHamming_symm {M n : Nat} (hn : n < M) : realHamming M (M - 1 - n) = realHamming M n := by
  unfold realHamming
  split
  next => rfl
  next hM =>
    have hM' : (M : ℝ) - 1 ≠ 0 := sub_ne_zero.mpr (by exact_mod_cast hM)
    have hidx : ((M - 1 - n : Nat) : ℝ) = M - 1 - n := by
      rw [Nat.cast_sub (by omega), Nat.cast_sub (by omega), Nat.cast_one]
    have hangle : 2 * Real.pi * ((M - 1 - n : Nat) : ℝ) / ((M : ℝ) - 1) = 2 * Real.pi - 2 * Real.pi * n / ((M : ℝ) - 1) := by
      rw [hidx, mul_sub, sub_div, mul_div_cancel_right₀ _ hM']
    rw [hangle, Real.cos_two_pi_sub]

/-- The raw coefficients of an odd length are symmetric: `sin(c*k)/k` is even in `k`, which counts from the middle. -/
theorem realRaw_symm (fc : ℝ) {M n : Nat} (hM : M % 2 = 1) (hn : n < M) : realRaw fc M (M - 1 - n) = realRaw fc M n := by
  have hk : ((M - 1 - n : Nat) : ℤ) - ((M - 1) / 2 : Nat) = -((n : ℤ) - ((M - 1) / 2 : Nat)) := by omega
  simp only [realRaw, hk, realHamming_symm hn, neg_eq_zero, Int.cast_neg, mul_neg, Real.sin_neg, neg_div_neg_eq]

theorem realLpk_symm (rate corner : ℝ) {M n : Nat} (hM : M % 2 = 1) (hn : n < M) :
    realLpk rate corner M (M - 1 - n) = realLpk rate corner M n := by
  rw [realLpk, realRaw_symm _ hM hn, realLpk]

/-- The coefficients divided by their sum sum to 1. -/
theorem sum_realLpk {rate corner : ℝ} {M : Nat} (hS : ∑ j ∈ Finset.range M, realRaw (corner / rate) M j ≠ 0) :
    ∑ n ∈ Finset.range M, realLpk rate corner M n = 1 := by
  simp only [realLpk]
  rw [← Finset.sum_div, div_self hS]

/-- Settles O58: the kernel is R69's, whose coefficients are symmetric and divided by their sum. -/
theorem lpkSymmetricUnitGain : Obligations.LpkSymmetricUnitGain := by
  intro rate corner taps _ h
  obtain ⟨hlen, hval⟩ : IsLpk h rate corner.toReal (oddTaps taps) := lpk_isLpk rate corner taps
  have hodd := oddTaps_odd taps
  rw [hlen]
  refine ⟨rfl, hodd, fun n hn => ?_, fun hS => ?_⟩
  · rw [hval n hn, hval _ (by omega), realLpk_symm _ _ hodd hn]
  · rw [toReal_lpkSum] at hS
    rw [Finset.sum_congr rfl fun n hn => hval n (Finset.mem_range.mp hn), sum_realLpk hS]

/-- Settles O3: the checks are the rule's comparisons of the profile's numbers, and the block written is R69's kernel. -/
theorem genLpkResult : Obligations.GenLpkResult := by
  intro u s hm M corner nyquist S
  have hM : oddTaps (s.arg 1) = M := rfl
  have hcorner : s.cfg.num = .exact → corner.toReal = s.param 0 := fun hN => toReal_paramNum hN 0
  refine ⟨fun hN => ⟨hcorner hN, ?_, ?_⟩, ?_⟩
  · exact (congrArg (fun N => (half N (s.arg 2)).toReal) hN).trans (toReal_half _)
  · have hS : S = lpkSum .exact (s.arg 2) corner (s.arg 1) := by rw [← hN]
    rw [isZero_iff, hS, toReal_lpkSum, hcorner hN]
    rfl
  refine faults_badUnit_or rfl unit_ne_zero fun hv hx => ?_
  rw [genLpkCheck_eq] at hx
  refine faults_or hv hx fun _ hx => faults_or hv hx fun _ hx => faults_or hv hx fun _ hx => faults_or hv hx fun _ hx =>
    faults_or hv hx fun _ hx => ?_
  refine ⟨Memory.writeBlock s.epoch s.sm (s.arg 0) (lpk s.num (s.arg 2) corner (s.arg 1)), ?_, ?_⟩
  · rw [exec_completes hv hx, genLpkEffect, State.setRI, hM]
    rfl
  · refine stored_writeBlock hm (lpk_length _ _ _ _) fun hN n hn => ?_
    obtain ⟨-, hval⟩ := lpk_isLpk (s.arg 2) corner (s.arg 1)
    rw [State.num, hN, ← hcorner hN]
    exact hval n hn

/-! FIR.SETK, FIR.LOAD, FIR.GET, FIR.GDLY and FIR.CLR (R73, R75 to R78) -/

/-- Settles O4: the effect is the rule's unit, with `resize` written out. -/
theorem firSetkResult : Obligations.FirSetkResult := by
  intro u s H n
  refine faults_badUnit_or rfl not_lt.symm fun hv hx => ?_
  rw [firSetkCheck_eq] at hx
  exact faults_or hv hx fun _ hx => faults_or hv hx fun _ hx => exec_completes hv hx

/-- Settles O6: the window is history and block, the new history its last `M-1` samples. -/
theorem firLoadResult : Obligations.FirLoadResult := by
  intro u s U W
  refine faults_badUnit_or rfl not_lt.symm fun hv hx => ?_
  rw [firBlockCheck_eq] at hx
  refine faults_or hv hx fun _ hx => faults_or hv hx fun _ hx => ?_
  rw [exec_completes hv hx, firLoadEffect, Line.load, memRead_length]
  rfl

/-- A configured FIR unit in the shape of R31 computes R70's convolution with its kernel. -/
theorem toReal_firConv {c : Params} {U : FirUnit} (hU : U.Ok c) (hc : ¬ U.configured = false) (W : List Num) (i : Nat) :
    (conv .exact U.h W i).toReal = realConv U.M U.h W i := by
  obtain ⟨-, hlen, -⟩ := hU.shape (by simpa using hc)
  exact toReal_conv_eq U.M U.h W i hlen

/-- Settles O7: the number in RV is the rule's convolution. -/
theorem firGetResult : Obligations.FirGetResult := by
  intro u s hU U
  refine faults_badUnit_or rfl not_lt.symm fun hv hx => ?_
  rw [firGetCheck_eq] at hx
  refine faults_or hv hx fun hc hx => faults_or hv hx fun _ hx =>
    ⟨conv s.num U.h U.line.W (s.arg 0), exec_completes hv hx, fun hN => ?_⟩
  rw [State.num, hN]
  exact toReal_firConv hU hc _ _

/-- Settles O8: the one check is the unit's flag. -/
theorem firGdlyResult : Obligations.FirGdlyResult := by
  intro u s
  refine faults_badUnit_or rfl not_lt.symm fun hv hx => ?_
  rw [firConfiguredCheck_eq] at hx
  exact faults_or hv hx fun _ hx => exec_completes hv hx

/-- Settles O9: the zeroed delay line keeps the unit's kernel and length. -/
theorem firClrResult : Obligations.FirClrResult := by
  intro u s U
  refine faults_badUnit_or rfl not_lt.symm fun hv hx => ?_
  rw [firConfiguredCheck_eq] at hx
  exact faults_or hv hx fun _ hx => exec_completes hv hx

/-! FIR.RUN (R74) -/

/-- Settles O5: the block written is the convolution over the window that FIR.LOAD would leave. -/
theorem firRunResult : Obligations.FirRunResult := by
  intro u s hm hU U W
  refine faults_badUnit_or rfl not_lt.symm fun hv hx => ?_
  rw [firBlockCheck_eq] at hx
  refine faults_or hv hx fun hc hx => faults_or hv hx fun _ hx => ?_
  refine ⟨Memory.writeBlock s.epoch s.sm (s.arg 0) ((List.range (s.arg 1)).map (conv s.num U.h W)), ?_, ?_⟩
  · rw [exec_completes hv hx, firRunEffect, firLoadEffect, Line.load, memRead_length]
    rfl
  · refine stored_writeBlock hm (by simp) fun hN i hi => ?_
    rw [realAt_map_range _ _ _ hi, State.num, hN]
    exact toReal_firConv hU hc W i

/-! The laws of the filter (R79) -/

/-- Settles O59: the sum of R70 is linear in the window's elements. -/
theorem convIsLinear : Obligations.ConvIsLinear := by
  intro h X Y Z a b i hZ
  simp only [toReal_conv_eq _ h _ _ rfl, realConv, Finset.mul_sum, ← Finset.sum_add_distrib, hZ]
  exact Finset.sum_congr rfl fun k _ => by ring

/-- The convolution reads only the `M` window elements from index `i` on (R70). -/
theorem conv_congr {N : Profile} {h W V : List Num} {i j : Nat}
    (hWV : ∀ k < h.length, W.getD (h.length - 1 + i - k) .zero = V.getD (h.length - 1 + j - k) .zero) :
    conv N h W i = conv N h V j := by
  unfold conv
  congr 1
  exact List.map_congr_left fun k hk => by rw [hWV k (List.mem_range.mp hk)]

/-- An output whose window elements have all arrived does not change with later samples. -/
theorem conv_append (N : Profile) {h W : List Num} (x : List Num) {i : Nat} (hi : h.length - 1 + i < W.length) :
    conv N h (W ++ x) i = conv N h W i :=
  conv_congr fun k _ => List.getD_append _ _ _ _ (by omega)

/-- Dropping the window's first samples moves its outputs down. -/
theorem conv_drop (N : Profile) (h W : List Num) (m i : Nat) : conv N h (W.drop m) i = conv N h W (m + i) := by
  refine conv_congr fun k hk => ?_
  rw [List.getD_eq_getElem?_getD, List.getElem?_drop, ← List.getD_eq_getElem?_getD]
  congr 1
  omega

/-- New samples behind a window's last ones. -/
theorem lastN_append (n : Nat) (W x : List Num) : lastN n W ++ x = (W ++ x).drop (W.length - n) :=
  (List.drop_append_of_le_length (Nat.sub_le _ _)).symm

/-- A window's last samples decide the last ones after any new samples: the history need hold no more. -/
theorem lastN_lastN_append {n : Nat} {W : List Num} (x : List Num) (hn : n ≤ W.length) :
    lastN n (lastN n W ++ x) = lastN n (W ++ x) := by
  rw [lastN_append, lastN, lastN, List.length_drop, List.drop_drop, List.length_append]
  congr 1
  omega

/-- The outputs over a window of `m` and `n` new samples are those over the first `m`, then those over the window that starts with
their last `M-1` samples (R79). -/
theorem conv_stream (N : Profile) {h W x : List Num} {m : Nat} (hW : W.length = h.length - 1 + m) :
    (List.range (m + x.length)).map (conv N h (W ++ x)) =
      (List.range m).map (conv N h W) ++ (List.range x.length).map (conv N h (lastN (h.length - 1) W ++ x)) := by
  have hlast : lastN (h.length - 1) W ++ x = (W ++ x).drop m := by
    rw [lastN_append, hW, Nat.add_sub_cancel_left]
  rw [List.range_add, List.map_append, List.map_map, hlast]
  congr 1
  · refine List.map_congr_left fun i hi => conv_append N x ?_
    rw [List.mem_range] at hi
    omega
  · exact List.map_congr_left fun i _ => (conv_drop N h (W ++ x) m i).symm

/-- Two adjacent block writes are one. -/
theorem writeBlock_append (e : Nat) (xs ys : List Num) : ∀ (m : Memory) (a : Nat),
    Memory.writeBlock e m a (xs ++ ys) = Memory.writeBlock e (Memory.writeBlock e m a xs) (a + xs.length) ys := by
  induction xs with
  | nil => exact fun m a => rfl
  | cons x xs ih =>
    intro m a
    rw [List.cons_append, Memory.writeBlock, ih, Memory.writeBlock, List.length_cons, Nat.add_right_comm, Nat.add_assoc]

theorem memRead_add (s : State) (a m n : Nat) : s.memRead a (m + n) = s.memRead a m ++ s.memRead (a + m) n := by
  simp [State.memRead, List.range_add, Function.comp_def, Nat.add_assoc]

theorem memRead_congr {s t : State} {a n : Nat} (h : ∀ b, a ≤ b → t.readSM b = s.readSM b) : t.memRead a n = s.memRead a n :=
  List.map_congr_left fun _ _ => h _ (Nat.le_add_right _ _)

/-- `s` with the block of `n` samples at `a` in A0 and A1. -/
def State.atBlock (s : State) (a n : Nat) : State :=
  { s with A := (s.A.set 0 (BitVec.ofNat 32 a)).set 1 (BitVec.ofNat 32 n) }

@[simp] theorem atBlock_cfg (s : State) (a n : Nat) : (s.atBlock a n).cfg = s.cfg := rfl

@[simp] theorem atBlock_firUnit (s : State) (a n : Nat) (u : UnitIdx) : (s.atBlock a n).firUnit u = s.firUnit u := rfl

theorem atBlock_arg0 (s : State) {a : Nat} (n : Nat) (h : a < 2 ^ 32) : (s.atBlock a n).arg 0 = a := by
  simpa [State.atBlock, State.arg] using h

theorem atBlock_arg1 (s : State) (a : Nat) {n : Nat} (h : n < 2 ^ 32) : (s.atBlock a n).arg 1 = n := by
  simpa [State.atBlock, State.arg] using h

/-- `t` is `s` after FIR unit `u` has filtered the block of `n` samples at `a` (R74): parameters, sample memory and unit. -/
structure State.Filtered (s t : State) (u : UnitIdx) (a n : Nat) : Prop where
  cfg : t.cfg = s.cfg
  epoch : t.epoch = s.epoch
  sm : t.sm = Memory.writeBlock s.epoch s.sm a
    ((List.range n).map (conv s.num (s.firUnit u).h ((s.firUnit u).line.H ++ s.memRead a n)))
  unit : t.firUnit u = { s.firUnit u with line := (s.firUnit u).line.load (s.firUnit u).M (s.memRead a n) }

/-- What FIR.RUN answers on a legal block (R74). -/
theorem filtered_of_exec {s t : State} {u : UnitIdx} {a n : Nat} (hc : s.cfg.Legal) (hu : u.toNat < s.cfg.nFir)
    (hconf : (s.firUnit u).configured = true) (hn : n ≤ s.cfg.maxBlock) (hfit : a + n ≤ s.cfg.smWords)
    (h : exec (.firRun u) (s.atBlock a n) = .next t) : s.Filtered t u a n := by
  obtain ⟨-, hwindow⟩ := hc.window
  obtain ⟨-, hblock⟩ := hc.block
  have h0 : (s.atBlock a n).arg 0 = a := atBlock_arg0 s n (by omega)
  have h1 : (s.atBlock a n).arg 1 = n := atBlock_arg1 s a (by omega)
  have hpass : firBlockCheck u (s.atBlock a n) = none := by simp [firBlockCheck_eq, h0, h1, hconf, hn, hfit]
  have ht : exec (.firRun u) (s.atBlock a n) = .next (firRunEffect u (s.atBlock a n)).complete :=
    runCommand_pass (i := .firRun u) hu hpass
  obtain rfl : (firRunEffect u (s.atBlock a n)).complete = t := Host.Outcome.next.inj (ht.symm.trans h)
  refine ⟨rfl, rfl, ?_, ?_⟩
  · simp only [firRunEffect, complete_sm, memWrite_sm, h0, h1]
    rfl
  · refine (pick_put_same _ _ _).trans ?_
    simp only [h0, h1]
    rfl

/-- Settles O57: the second block's window starts with the last `M-1` samples of the first one's, so the outputs, written one
after the other, are those over both blocks. -/
theorem firStreaming : Obligations.FirStreaming := by
  intro u s t1 t2 t a m n hlegal _ hU hu hconf hblock hfit at_ h1 h2 h
  obtain ⟨-, hlen, hline⟩ := hU.shape hconf
  have r1 : s.Filtered t1 u a m := filtered_of_exec hlegal hu hconf (by omega) (by omega) h1
  have r2 : t1.Filtered t2 u (a + m) n :=
    filtered_of_exec (by rwa [r1.cfg]) (by rwa [r1.cfg]) (by rw [r1.unit]; exact hconf) (by rw [r1.cfg]; omega)
      (by rw [r1.cfg]; omega) h2
  have r : s.Filtered t u a (m + n) := filtered_of_exec hlegal hu hconf hblock hfit h
  have hx : t1.memRead (a + m) n = s.memRead (a + m) n := memRead_congr fun b hb => by
    rw [State.readSM, r1.epoch, r1.sm, read_writeBlock_other _ _ _ _ _ (by simp; omega)]
    rfl
  have hW : ((s.firUnit u).line.H ++ s.memRead a m).length = (s.firUnit u).h.length - 1 + m := by
    rw [List.length_append, hline.history, hlen, memRead_length]
  have hsm : t2.sm = t.sm := by
    have hstream := conv_stream s.num (x := s.memRead (a + m) n) hW
    rw [memRead_length] at hstream
    rw [r.sm, memRead_add, ← List.append_assoc, hstream, writeBlock_append, r2.sm, r1.unit, hx, r1.epoch, r1.sm]
    simp [State.num, r1.cfg, Line.load, hlen]
  refine ⟨fun b => ?_, ?_, ?_⟩
  · rw [State.readSM, State.readSM, hsm, r2.epoch, r1.epoch, r.epoch]
  · rw [r2.unit, r1.unit, r.unit, hx, memRead_add]
    simp only [Line.load]
    rw [← List.append_assoc, lastN_lastN_append _ (by omega)]
  · rw [r2.unit, r1.unit, r.unit]

end Sys2Proof.Machine
end

section
/-! The statements about the frequency shifter and the downsamplers: what each command answers, and the shifter's round trip. -/

namespace Sys2Proof.Machine

/-! The phase of a shifted block (R81) -/

/-- The phase one sample later (R81). -/
def nextPhase (N : Profile) (d th : Num) : Num := Prim.frac N (Prim.add N th d)

/-- Sample `n` of a block is shifted by the phase `n` samples after the first. -/
theorem shiftBlock_getElem? (N : Profile) (d : Num) (xs : List (Num × Num)) : ∀ (th : Num) (n : Nat),
    (shiftBlock N d th xs).1[n]? = xs[n]?.map (shift N ((nextPhase N d)^[n] th)) := by
  induction xs with
  | nil => exact fun th n => rfl
  | cons x xs ih =>
    intro th n
    cases n with
    | zero => rfl
    | succ n => exact ih (nextPhase N d th) n

/-- The phase a block leaves is the one after its last sample. -/
theorem shiftBlock_phase (N : Profile) (d : Num) (xs : List (Num × Num)) : ∀ th : Num,
    (shiftBlock N d th xs).2 = (nextPhase N d)^[xs.length] th := by
  induction xs with
  | nil => exact fun th => rfl
  | cons x xs ih => exact fun th => ih (nextPhase N d th)

/-- Bringing the phase into one turn at every sample leaves the angle of `n` equal steps, up to whole turns. -/
theorem fract_nextPhase (d th : Num) (n : Nat) :
    Int.fract ((nextPhase .exact d)^[n] th).toReal = Int.fract (th.toReal + n * d.toReal) := by
  induction n with
  | zero => simp
  | succ n ih =>
    obtain ⟨z, hz⟩ := Int.fract_eq_fract.mp ih
    rw [Function.iterate_succ_apply', nextPhase, toReal_frac, toReal_add, Int.fract_fract]
    exact Int.fract_eq_fract.mpr ⟨z, by rw [← hz]; push_cast; ring⟩

/-- From a phase in `[0, 1)`, the phase a block leaves is `frac(theta + L*d)`. -/
theorem toReal_shiftBlock_phase (d : Num) {th : Num} (hth : Turn th) (xs : List (Num × Num)) :
    (shiftBlock .exact d th xs).2.toReal = Int.fract (th.toReal + xs.length * d.toReal) := by
  obtain ⟨h0, h1⟩ := shiftBlock_turn d xs th hth
  rw [← Int.fract_eq_self.mpr ⟨h0, h1⟩, shiftBlock_phase, fract_nextPhase]

theorem cos_turns {a b : ℝ} (h : Int.fract a = Int.fract b) : Real.cos (2 * Real.pi * a) = Real.cos (2 * Real.pi * b) := by
  obtain ⟨z, hz⟩ := Int.fract_eq_fract.mp h
  rw [show 2 * Real.pi * a = 2 * Real.pi * b + z * (2 * Real.pi) by rw [← hz]; ring, Real.cos_add_int_mul_two_pi]

theorem sin_turns {a b : ℝ} (h : Int.fract a = Int.fract b) : Real.sin (2 * Real.pi * a) = Real.sin (2 * Real.pi * b) := by
  obtain ⟨z, hz⟩ := Int.fract_eq_fract.mp h
  rw [show 2 * Real.pi * a = 2 * Real.pi * b + z * (2 * Real.pi) by rw [← hz]; ring, Real.sin_add_int_mul_two_pi]

/-- Element `n` of a shifted block is the block's, rotated by `theta + n*d` turns. -/
theorem realAt_shiftBlock (d th : Num) {xs : List (Num × Num)} {n : Nat} (hn : n < xs.length) :
    let x := realAt (xs.map (·.1)) n
    let y := realAt (xs.map (·.2)) n
    let phi := 2 * Real.pi * (th.toReal + n * d.toReal)
    realAt ((shiftBlock .exact d th xs).1.map (·.1)) n = x * Real.cos phi - y * Real.sin phi ∧
    realAt ((shiftBlock .exact d th xs).1.map (·.2)) n = x * Real.sin phi + y * Real.cos phi := by
  have hturn := fract_nextPhase d th n
  have hshift := toReal_shift ((nextPhase .exact d)^[n] th) xs[n]
  rw [cos_turns hturn, sin_turns hturn] at hshift
  simpa [realAt, shiftBlock_getElem?, hn] using hshift

/-! SHF.CFG (R80) and SHF.RUN (R81) -/

/-- Settles O10: the one check is the rate. -/
theorem shfCfgResult : Obligations.ShfCfgResult := by
  intro u s
  refine faults_badUnit_or rfl not_lt.symm fun hv hx => ?_
  rw [shfCfgCheck_eq] at hx
  exact faults_or hv hx fun _ hx => exec_completes hv hx

/-- The block that SHF.RUN on unit `u` writes, and the phase it leaves (R81). -/
def State.shifted (s : State) (u : UnitIdx) : List (Num × Num) × Num :=
  shiftBlock s.num (Prim.div s.num (s.paramNum 0) (Prim.nat s.num (s.shfUnit u).R)) (s.shfUnit u).theta s.iqBlock

theorem shfRunEffect_eq (u : UnitIdx) (s : State) : shfRunEffect u s =
    ((s.setShf u { s.shfUnit u with theta := (s.shifted u).2 }).memWrite (s.arg 0) ((s.shifted u).1.map (·.1))).memWrite
      (s.arg 1) ((s.shifted u).1.map (·.2)) := rfl

theorem shfRunEffect_cfg (u : UnitIdx) (s : State) : (shfRunEffect u s).cfg = s.cfg := by
  rw [shfRunEffect_eq, memWrite_cfg, memWrite_cfg, setShf_cfg]

theorem shfRunEffect_A (u : UnitIdx) (s : State) : (shfRunEffect u s).A = s.A := by
  rw [shfRunEffect_eq, memWrite_A, memWrite_A, setShf_A]

theorem shfRunEffect_epoch (u : UnitIdx) (s : State) : (shfRunEffect u s).epoch = s.epoch := by
  rw [shfRunEffect_eq, memWrite_epoch, memWrite_epoch, setShf_epoch]

/-- The angle of R81's `theta_n` on unit `u`, up to whole turns. -/
noncomputable def State.shiftAngle (s : State) (u : UnitIdx) (n : Nat) : ℝ :=
  2 * Real.pi * ((s.shfUnit u).theta.toReal + n * ((s.param 0 : ℝ) / (s.shfUnit u).R))

theorem shifted_exact {s : State} (hN : s.cfg.num = .exact) (u : UnitIdx) : s.shifted u =
    shiftBlock .exact (Prim.div .exact (s.paramNum 0) (Prim.nat .exact (s.shfUnit u).R)) (s.shfUnit u).theta s.iqBlock := by
  rw [State.shifted, State.num, hN]

/-- The step `d = f/R` (R81). -/
theorem toReal_shiftStep {s : State} (hN : s.cfg.num = .exact) (R : Nat) :
    (Prim.div .exact (s.paramNum 0) (Prim.nat .exact R)).toReal = (s.param 0 : ℝ) / R := by
  rw [toReal_div, toReal_paramNum hN, toReal_nat]

/-- The phase SHF.RUN leaves (R81). -/
theorem toReal_shifted_phase {s : State} (hN : s.cfg.num = .exact) {u : UnitIdx} (hth : Turn (s.shfUnit u).theta) :
    (s.shifted u).2.toReal =
      Int.fract ((s.shfUnit u).theta.toReal + s.arg 2 * ((s.param 0 : ℝ) / (s.shfUnit u).R)) := by
  rw [shifted_exact hN, toReal_shiftBlock_phase _ hth, iqBlock_length, toReal_shiftStep hN]

/-- The samples SHF.RUN writes (R81). -/
theorem realAt_shifted {s : State} (hN : s.cfg.num = .exact) (u : UnitIdx) {n : Nat} (hn : n < s.arg 2) :
    let x := s.sample (s.arg 0) n
    let y := s.sample (s.arg 1) n
    let phi := s.shiftAngle u n
    realAt ((s.shifted u).1.map (·.1)) n = x * Real.cos phi - y * Real.sin phi ∧
    realAt ((s.shifted u).1.map (·.2)) n = x * Real.sin phi + y * Real.cos phi := by
  have hI : s.iqBlock.map (·.1) = s.memRead (s.arg 0) (s.arg 2) := List.map_fst_zip (by simp)
  have hQ : s.iqBlock.map (·.2) = s.memRead (s.arg 1) (s.arg 2) := List.map_snd_zip (by simp)
  have hblock := realAt_shiftBlock (Prim.div .exact (s.paramNum 0) (Prim.nat .exact (s.shfUnit u).R)) (s.shfUnit u).theta
    (hn.trans_eq (iqBlock_length s).symm)
  rwa [hI, hQ, realAt_memRead _ _ _ _ hn, realAt_memRead _ _ _ _ hn, ← shifted_exact hN, toReal_shiftStep hN] at hblock

/-- What SHF.RUN stores on disjoint buffers: sample `n` rotated by `theta_n` (R81). -/
theorem shfRunEffect_stored {s : State} {u : UnitIdx} (hm : s.MemInv)
    (hd : s.arg 2 = 0 ∨ s.arg 0 + s.arg 2 ≤ s.arg 1 ∨ s.arg 1 + s.arg 2 ≤ s.arg 0) :
    let x := s.sample (s.arg 0)
    let y := s.sample (s.arg 1)
    let phi := s.shiftAngle u
    s.Stored2 (shfRunEffect u s).sm (s.arg 0) (s.arg 1) (s.arg 2)
      (fun n => x n * Real.cos (phi n) - y n * Real.sin (phi n)) (fun n => x n * Real.sin (phi n) + y n * Real.cos (phi n)) := by
  have hlen : (s.shifted u).1.length = s.arg 2 := (shiftBlock_length _ _ _ _).trans (iqBlock_length s)
  rw [shfRunEffect_eq]
  exact stored2_writeBlock hm ((List.length_map _).trans hlen) ((List.length_map _).trans hlen) hd
    (fun hN _ hn => (realAt_shifted hN u hn).1) (fun hN _ hn => (realAt_shifted hN u hn).2)

/-- Settles O11: the loop's phase is `theta + n*f/R` up to whole turns, which sine and cosine do not see. -/
theorem shfRunResult : Obligations.ShfRunResult := by
  intro u s hm hth U L th x y
  refine faults_badUnit_or rfl not_lt.symm fun hv hx => ?_
  rw [shfRunCheck_eq] at hx
  refine faults_or hv hx fun _ hx => faults_or hv hx fun _ hx => faults_or hv hx fun _ hx => faults_or hv hx fun hd hx => ?_
  exact ⟨(shfRunEffect u s).sm, (s.shifted u).2, exec_completes hv hx, fun hN => toReal_shifted_phase hN hth,
    shfRunEffect_stored hm (not_not.mp hd)⟩

/-! RDS.CFG (R83) and CDS.CFG (R85) -/

/-- What RDS.CFG and CDS.CFG answer: their shared checks in order, then the effect. -/
theorem downCfg_answers {i : Instr} {s : State} {effect : State → State} {P R : Prop} [Decidable P]
    (hx : exec i s = runCommand i s (downCfgCheck s) effect) (hP : P ↔ ¬ i.ValidFor s.cfg)
    (hR : exec i s = .next (effect s).complete → R) :
    if P then Faults i s .badUnit
    else if s.arg 0 < 1 ∨ s.arg 1 < 1 ∨ s.arg 0 < s.arg 1 then Faults i s .badParam
    else if s.arg 2 < 1 ∨ s.cfg.maxTaps < s.arg 2 + (s.arg 2 + 1) % 2 then Faults i s .badParam
    else if isZero (lpkSum s.num (s.arg 0) (half s.num (s.arg 1)) (s.arg 2)) then Faults i s .badParam
    else R := by
  refine faults_badUnit_or hx hP fun hv hx => ?_
  rw [downCfgCheck_eq] at hx
  exact faults_or hv hx fun _ hx => faults_or hv hx fun _ hx => faults_or hv hx fun _ hx => hR (exec_completes hv hx)

/-- The kernel of a downsampler is R69's with the corner `outR/2` (R83). -/
theorem downKernel_isLpk {N : Profile} (hN : N = .exact) (inR outR taps : Nat) :
    IsLpk (downKernel N inR outR taps) inR ((outR : ℝ) / 2) (oddTaps taps) := by
  rw [hN, downKernel, ← toReal_half]
  exact lpk_isLpk _ _ _

/-- Settles O12: the two commands share their checks and their kernel, and the corner's exact value is `outRate/2`. -/
theorem downsamplerCfgResult : Obligations.DownsamplerCfgResult := by
  intro u s M empty S
  have hkernel : s.cfg.num = .exact → IsLpk (downKernel s.num (s.arg 0) (s.arg 1) (s.arg 2)) (s.arg 0) ((s.arg 1 : ℝ) / 2) M :=
    fun hN => downKernel_isLpk hN _ _ _
  refine ⟨fun hN => ?_, downCfg_answers rfl not_lt.symm fun hx => ⟨_, hkernel, hx⟩,
    downCfg_answers rfl not_lt.symm fun hx => ⟨_, hkernel, hx⟩⟩
  have hS : S = lpkSum .exact (s.arg 0) (half .exact (s.arg 1)) (s.arg 2) := by rw [← hN]; rfl
  rw [isZero_iff, hS, toReal_lpkSum, toReal_half]
  rfl

/-! RDS.RUN (R84) and CDS.RUN (R86) -/

@[simp] theorem downPick_length (N : Profile) (h W : List Num) (inR outR L : Nat) :
    (downPick N h W inR outR L).length = downLength inR outR L := by
  simp [downPick]

/-- Output `k` of a downsampler with a kernel of length `M` is the convolution at `round(k*inR/outR)` (R84). -/
theorem realAt_downPick {N : Profile} (hN : N = .exact) {M : Nat} {h : List Num} (hM : h.length = M) (W : List Num)
    {inR outR L k : Nat} (hk : k < downLength inR outR L) :
    realAt (downPick N h W inR outR L) k = realConv M h W (downIndex inR outR k) := by
  rw [downPick, realAt_map_range _ _ _ hk, hN, toReal_conv_eq M _ _ _ hM]

/-- Settles O13: the block written is the window's picked outputs. -/
theorem rdsRunResult : Obligations.RdsRunResult := by
  intro u s hm hU U L Lout W
  refine faults_badUnit_or rfl not_lt.symm fun hv hx => ?_
  rw [rdsRunCheck_eq] at hx
  refine faults_or hv hx fun hc hx => faults_or hv hx fun _ hx => ?_
  obtain ⟨-, -, -, hlen, -⟩ := hU.shape (by simpa using hc)
  refine ⟨Memory.writeBlock s.epoch s.sm (s.arg 2) (downPick s.num U.h W U.inRate U.outRate L), ?_,
    stored_writeBlock hm (downPick_length _ _ _ _ _ _) fun hN k hk => realAt_downPick hN hlen W hk⟩
  rw [exec_completes hv hx, rdsRunEffect, Line.load, memRead_length]
  rfl

/-- Two block writes as one change of sample memory. -/
theorem memWrite_memWrite (s : State) (a b : Nat) (vs ws : List Num) : (s.memWrite a vs).memWrite b ws =
    { s with sm := Memory.writeBlock s.epoch (Memory.writeBlock s.epoch s.sm a vs) b ws } := rfl

/-- Settles O14: each branch's block is its window's picked outputs, and the destinations are disjoint. -/
theorem cdsRunResult : Obligations.CdsRunResult := by
  intro u s hm hU U L Lout WI WQ idx
  refine faults_badUnit_or rfl not_lt.symm fun hv hx => ?_
  rw [cdsRunCheck_eq] at hx
  refine faults_or hv hx fun hc hx => faults_or hv hx fun _ hx => faults_or hv hx fun hd hx => ?_
  obtain ⟨-, -, -, hlen, -, -⟩ := hU.shape (by simpa using hc)
  refine ⟨Memory.writeBlock s.epoch
      (Memory.writeBlock s.epoch s.sm (s.arg 3) (downPick s.num U.h WI U.inRate U.outRate L))
      (s.arg 4) (downPick s.num U.h WQ U.inRate U.outRate L), ?_,
    stored2_writeBlock hm (downPick_length _ _ _ _ _ _) (downPick_length _ _ _ _ _ _) (not_not.mp hd)
      (fun hN k hk => realAt_downPick hN hlen WI hk) (fun hN k hk => realAt_downPick hN hlen WQ hk)⟩
  rw [exec_completes hv hx, cdsRunEffect, Line.load, Line.load, memRead_length, memRead_length,
    memWrite_memWrite]
  rfl

/-! The round trip (R82) -/

/-- SHF.RUN passes its checks on a configured unit with a finite frequency and disjoint buffers that fit (R81). -/
theorem shfRunCheck_eq_none {u : UnitIdx} {s : State} (hc : (s.shfUnit u).configured = true) (hf : s.paramFinite 0 = true)
    (hL : s.arg 2 ≤ s.cfg.maxBlock) (hI : s.arg 0 + s.arg 2 ≤ s.cfg.smWords) (hQ : s.arg 1 + s.arg 2 ≤ s.cfg.smWords)
    (hd : s.arg 2 = 0 ∨ s.arg 0 + s.arg 2 ≤ s.arg 1 ∨ s.arg 1 + s.arg 2 ≤ s.arg 0) : shfRunCheck u s = none := by
  simp [shfRunCheck_eq, hc, hf, hL, hI, hQ, hd]

/-- A rotation by `a` and then by `b` is one by their sum. -/
theorem rotate_rotate (x y a b : ℝ) :
    (x * Real.cos a - y * Real.sin a) * Real.cos b - (x * Real.sin a + y * Real.cos a) * Real.sin b =
      x * Real.cos (a + b) - y * Real.sin (a + b) ∧
    (x * Real.cos a - y * Real.sin a) * Real.sin b + (x * Real.sin a + y * Real.cos a) * Real.cos b =
      x * Real.sin (a + b) + y * Real.cos (a + b) := by
  rw [Real.cos_add, Real.sin_add]
  constructor <;> ring

/-- The buffers of an SHF.RUN that passes its checks share no word (R81). -/
theorem shfRunCheck_disjoint {u : UnitIdx} {s : State} (h : shfRunCheck u s = none) :
    s.arg 2 = 0 ∨ s.arg 0 + s.arg 2 ≤ s.arg 1 ∨ s.arg 1 + s.arg 2 ≤ s.arg 0 := by
  simp only [shfRunCheck_eq, ite_some_eq_none, not_not] at h
  obtain ⟨_, _, _, hd, _⟩ := h
  exact hd

theorem complete_readSM (s : State) (a : Nat) : s.complete.readSM a = s.readSM a := rfl

theorem complete_sample (s : State) (b n : Nat) : s.complete.sample b n = s.sample b n := rfl

/-- An SHF.RUN on a valid unit that passes its checks answers its effect, completed. -/
theorem shfRun_next {u : UnitIdx} {s t : State} (hu : u.toNat < s.cfg.nShf) (hpass : shfRunCheck u s = none)
    (h : exec (.shfRun u) s = .next t) : t = (shfRunEffect u s).complete := by
  have ht : exec (.shfRun u) s = .next (shfRunEffect u s).complete := runCommand_pass (i := .shfRun u) hu hpass
  exact Host.Outcome.next.inj (h.symm.trans ht)

/-- Each sample after SHF.RUN is the one before, rotated (R81). -/
theorem shfRunEffect_sample {s : State} (hN : s.cfg.num = .exact) {u : UnitIdx} (hm : s.MemInv)
    (hpass : shfRunCheck u s = none) {n : Nat} (hn : n < s.arg 2) :
    let x := s.sample (s.arg 0) n
    let y := s.sample (s.arg 1) n
    let phi := s.shiftAngle u n
    (shfRunEffect u s).sample (s.arg 0) n = x * Real.cos phi - y * Real.sin phi ∧
    (shfRunEffect u s).sample (s.arg 1) n = x * Real.sin phi + y * Real.cos phi := by
  obtain ⟨hI, hQ, -⟩ := shfRunEffect_stored (u := u) hm (shfRunCheck_disjoint hpass)
  simp only [State.sample, State.readSM, shfRunEffect_epoch]
  exact ⟨hI hN n hn, hQ hN n hn⟩

/-- SHF.RUN leaves every word outside its two buffers as it was (R81). -/
theorem shfRunEffect_readSM_other {s : State} {u : UnitIdx} (hm : s.MemInv) (hpass : shfRunCheck u s = none) {a : Nat}
    (hI : a < s.arg 0 ∨ s.arg 0 + s.arg 2 ≤ a) (hQ : a < s.arg 1 ∨ s.arg 1 + s.arg 2 ≤ a) :
    (shfRunEffect u s).readSM a = s.readSM a := by
  rw [State.readSM, shfRunEffect_epoch]
  exact (shfRunEffect_stored hm (shfRunCheck_disjoint hpass)).outside a hI hQ

/-- The state between the two runs of a round trip, the first on unit `u`: P0 is replaced by `p`. -/
def State.afterShift (s : State) (u : UnitIdx) (p : DWord) : State :=
  { (shfRunEffect u s).complete with P := (shfRunEffect u s).complete.P.set 0 p }

theorem afterShift_cfg (s : State) (u : UnitIdx) (p : DWord) : (s.afterShift u p).cfg = s.cfg :=
  (complete_cfg _).trans (shfRunEffect_cfg u s)

theorem afterShift_arg (s : State) (u : UnitIdx) (p : DWord) (i : Fin 8) : (s.afterShift u p).arg i = s.arg i :=
  congrArg (fun A : Vector Word 8 => A[i].toNat) ((complete_A _).trans (shfRunEffect_A u s))

theorem afterShift_readSM (s : State) (u : UnitIdx) (p : DWord) (a : Nat) :
    (s.afterShift u p).readSM a = (shfRunEffect u s).readSM a := rfl

theorem afterShift_sample (s : State) (u : UnitIdx) (p : DWord) (b n : Nat) :
    (s.afterShift u p).sample b n = (shfRunEffect u s).sample b n := rfl

theorem afterShift_param (s : State) (u : UnitIdx) (p : DWord) : (s.afterShift u p).param 0 = value64 p := by
  simp [State.afterShift, State.param]

theorem afterShift_paramFinite (s : State) (u : UnitIdx) (p : DWord) :
    (s.afterShift u p).paramFinite 0 = finite64 p := by
  simp [State.afterShift, State.paramFinite]

theorem afterShift_shfUnit (s : State) {u v : UnitIdx} (p : DWord) (h : v ≠ u) : (s.afterShift u p).shfUnit v = s.shfUnit v :=
  pick_put_other s.shf u v _ h

theorem afterShift_memInv {s : State} {u : UnitIdx} (p : DWord) (hm : s.MemInv) (hpass : shfRunCheck u s = none) :
    (s.afterShift u p).MemInv := by
  have h : (shfRunEffect u s).MemInv := runs_memInv (i := .shfRun u) hm ⟨hpass, rfl⟩
  exact h

/-- With equal units and opposite frequencies the steps of the phase cancel, and twice the starting phase is left (R82, log 20). -/
theorem shiftAngle_add {s : State} {u v : UnitIdx} {p : DWord} (hne : v ≠ u) (heq : s.shfUnit v = s.shfUnit u)
    (hp : value64 p = -s.param 0) (n : Nat) :
    s.shiftAngle u n + (s.afterShift u p).shiftAngle v n = 4 * Real.pi * (s.shfUnit u).theta.toReal := by
  rw [State.shiftAngle, State.shiftAngle, afterShift_shfUnit s p hne, heq, afterShift_param, hp]
  push_cast
  ring

/-- The samples after both runs of a round trip: the angles add up. -/
theorem roundTrip_sample {s : State} (hN : s.cfg.num = .exact) {u v : UnitIdx} {p : DWord} (hne : v ≠ u)
    (heq : s.shfUnit v = s.shfUnit u) (hp : value64 p = -s.param 0) (hm : s.MemInv) (hpass : shfRunCheck u s = none)
    (hpass' : shfRunCheck v (s.afterShift u p) = none) {n : Nat} (hn : n < s.arg 2) :
    let t := shfRunEffect v (s.afterShift u p)
    let x := s.sample (s.arg 0) n
    let y := s.sample (s.arg 1) n
    let phi := 4 * Real.pi * (s.shfUnit u).theta.toReal
    t.sample (s.arg 0) n = x * Real.cos phi - y * Real.sin phi ∧ t.sample (s.arg 1) n = x * Real.sin phi + y * Real.cos phi := by
  obtain ⟨hI, hQ⟩ := shfRunEffect_sample hN hm hpass hn
  obtain ⟨hI', hQ'⟩ := shfRunEffect_sample (n := n) (by rwa [afterShift_cfg]) (afterShift_memInv p hm hpass) hpass'
    (by rwa [afterShift_arg])
  simp only [afterShift_arg, afterShift_sample, hI, hQ] at hI' hQ'
  intro t x y phi
  rw [hI', hQ', ← show _ = phi from shiftAngle_add hne heq hp n]
  exact rotate_rotate _ _ _ _

/-- Both runs of a round trip leave every word outside the two buffers as it was. -/
theorem roundTrip_readSM_other {s : State} {u v : UnitIdx} {p : DWord} (hm : s.MemInv) (hpass : shfRunCheck u s = none)
    (hpass' : shfRunCheck v (s.afterShift u p) = none) {a : Nat}
    (hI : a < s.arg 0 ∨ s.arg 0 + s.arg 2 ≤ a) (hQ : a < s.arg 1 ∨ s.arg 1 + s.arg 2 ≤ a) :
    (shfRunEffect v (s.afterShift u p)).readSM a = s.readSM a := by
  rw [shfRunEffect_readSM_other (afterShift_memInv p hm hpass) hpass', afterShift_readSM,
    shfRunEffect_readSM_other hm hpass hI hQ]
  all_goals simpa only [afterShift_arg]

/-- Settles O60: each run rotates every sample by its angle, and the two angles sum to `4*pi*theta`. -/
theorem shiftRoundTrip : Obligations.ShiftRoundTrip := by
  intro u v s t1 t2 p hN hm hne hu hv hc heq hf hpf hp hL hI hQ hd h1 h2 phi x y
  have hpass : shfRunCheck u s = none := shfRunCheck_eq_none hc hf hL hI hQ hd
  obtain rfl := shfRun_next hu hpass h1
  have hpass' : shfRunCheck v (s.afterShift u p) = none := by
    refine shfRunCheck_eq_none ?_ ((afterShift_paramFinite s u p).trans hpf) ?_ ?_ ?_ ?_
    · rw [afterShift_shfUnit s p hne.symm, heq, hc]
    all_goals simpa only [afterShift_arg, afterShift_cfg]
  obtain rfl := shfRun_next (s := s.afterShift u p) (by rwa [afterShift_cfg]) hpass' h2
  have hsample := fun n hn => roundTrip_sample hN hne.symm heq hp hm hpass hpass' (n := n) hn
  simp only [complete_sample, complete_readSM]
  refine ⟨hsample, fun h0 a => ?_⟩
  simp only [h0, mul_zero, Real.cos_zero, Real.sin_zero, mul_one, sub_zero, zero_add] at hsample
  by_cases hI : s.arg 0 ≤ a ∧ a < s.arg 0 + s.arg 2
  · obtain ⟨n, rfl⟩ := Nat.exists_eq_add_of_le hI.1
    exact (hsample n (by omega)).1
  by_cases hQ : s.arg 1 ≤ a ∧ a < s.arg 1 + s.arg 2
  · obtain ⟨n, rfl⟩ := Nat.exists_eq_add_of_le hQ.1
    exact (hsample n (by omega)).2
  rw [roundTrip_readSM_other hm hpass hpass' (by omega) (by omega)]

end Sys2Proof.Machine
end

section
/-! The statements about the demodulators: what each command answers, and the poles of every one-pole filter. -/

namespace Sys2Proof.Machine

/-! One-pole coefficients (R90, R99, R101, R103) -/

/-- `1 - exp(x)` of a negative `x` lies strictly between 0 and 1. -/
theorem poleOk_of_neg {a : Num} {x : ℝ} (ha : a.toReal = 1 - Real.exp x) (hx : x < 0) : PoleOk a := by
  have hpos := Real.exp_pos x
  have hlt : Real.exp x < 1 := Real.exp_lt_one_iff.mpr hx
  rw [PoleOk, ha]
  constructor <;> linarith

theorem cornerCoeff_poleOk {corner : ℚ} (hc : 0 < corner) {R : Nat} (hR : 1 ≤ R) : PoleOk (cornerCoeff .exact corner R) := by
  have hc' : (0 : ℝ) < corner := by exact_mod_cast hc
  have hR' : (0 : ℝ) < R := by exact_mod_cast hR
  refine poleOk_of_neg (toReal_cornerCoeff corner R) (div_neg_of_neg_of_pos ?_ hR')
  have hpi : 0 < Real.pi * corner := mul_pos Real.pi_pos hc'
  linarith

theorem tauAlpha_poleOk {tau : Num} (ht : 0 < tau.toReal) {R : Nat} (hR : 1 ≤ R) : PoleOk (tauAlpha .exact tau R) := by
  have hR' : (0 : ℝ) < R := by exact_mod_cast hR
  exact poleOk_of_neg (toReal_tauAlpha tau R) (div_neg_of_neg_of_pos neg_one_lt_zero (mul_pos ht hR'))

theorem amdCfgCheck_pass {s : State} (h : amdCfgCheck s = none) : 1 ≤ s.arg 0 := by
  simpa only [amdCfgCheck_eq, ite_some_eq_none, not_lt, and_true] using h

theorem tauCfgCheck_pass {s : State} (h : tauCfgCheck s = none) : 1 ≤ s.arg 0 ∧ 0 < (s.paramNum 0).toReal := by
  simp only [tauCfgCheck_eq, ite_some_eq_none, not_or, not_lt, not_le] at h
  obtain ⟨_, ⟨hR, htau⟩, _⟩ := h
  exact ⟨hR, htau⟩

/-- The coefficient of AMD.CFG once its check passes. -/
theorem cornerCoeff_poleOk_of_check {s : State} (hN : s.cfg.num = .exact) (hc : s.cfg.Legal) (h : amdCfgCheck s = none) :
    PoleOk (cornerCoeff s.num s.cfg.amHpHz (s.arg 0)) := by
  rw [State.num, hN]
  exact cornerCoeff_poleOk (hc.positive s.cfg.amHpHz (by simp)) (amdCfgCheck_pass h)

/-- The coefficient of DEM.CFG, AGC.CFG and DCB.CFG once their shared checks pass. -/
theorem tauAlpha_poleOk_of_check {s : State} (hN : s.cfg.num = .exact) (h : tauCfgCheck s = none) :
    PoleOk (tauAlpha s.num (s.paramNum 0) (s.arg 0)) := by
  obtain ⟨hR, htau⟩ := tauCfgCheck_pass h
  rw [State.num, hN]
  exact tauAlpha_poleOk htau hR

/-! The invariant of the poles (R36, R39 to R41) -/

/-- The clause of `State.PoleInv` for one AGC. -/
def AgcUnit.PoleOk (U : AgcUnit) : Prop := U.configured = true → Machine.PoleOk U.alpha ∧ 0 ≤ U.avg.toReal

/-- A one-pole step with a pole in `(0, 1)` mixes two numbers that are not negative. -/
theorem onePole_nonneg {alpha y x : Num} (ha : PoleOk alpha) (hy : 0 ≤ y.toReal) (hx : 0 ≤ x.toReal) :
    0 ≤ (onePole .exact alpha y x).toReal := by
  obtain ⟨h0, h1⟩ := ha
  rw [toReal_onePole]
  have hmix : 0 ≤ (1 - alpha.toReal) * y.toReal + alpha.toReal * x.toReal :=
    add_nonneg (mul_nonneg (sub_nonneg.mpr h1.le) hy) (mul_nonneg h0.le hx)
  linarith

/-- The average follows magnitudes, so it stays at 0 or above (R102). -/
theorem agcTrack_poleOk {U : AgcUnit} (hU : U.PoleOk) {m : Num} (hm : 0 ≤ m.toReal) : (agcTrack .exact U m).PoleOk := by
  unfold agcTrack
  split
  · intro hconf
    obtain ⟨ha, havg⟩ := hU hconf
    exact ⟨ha, onePole_nonneg ha havg hm⟩
  · split
    · exact fun hconf => ⟨(hU hconf).1, hm⟩
    · exact hU

theorem agcBlock_poleOk {N : Profile} (hN : N = .exact) (eps : Num) (xs : List Num) : ∀ U : AgcUnit, U.PoleOk →
    (agcBlock N eps U xs).2.PoleOk := by
  subst hN
  induction xs with
  | nil => exact fun _ h => h
  | cons x xs ih => exact fun U h => ih _ (agcTrack_poleOk h (by rw [toReal_abs]; exact abs_nonneg _))

theorem poleInv_congr {s t : State} (hs : s.PoleInv) (hamd : t.amd = s.amd) (hdem : t.dem = s.dem) (hagc : t.agc = s.agc)
    (hdcb : t.dcb = s.dcb) : t.PoleInv :=
  ⟨by rw [hamd]; exact hs.amd, by rw [hdem]; exact hs.dem, by rw [hagc]; exact hs.agc, by rw [hdcb]; exact hs.dcb⟩

/-- The CFG commands store coefficients that their checks put in `(0, 1)`; the RUN commands keep the coefficient. -/
theorem runs_poleInv {i : Instr} {s v : State} (hN : s.cfg.num = .exact) (hc : s.cfg.Legal) (hs : s.PoleInv)
    (h : Instr.Runs i s v) (hi : ∀ u, i ≠ .srst u) : v.PoleInv := by
  cases i
  case nop u => obtain rfl := h; exact hs
  case srst u => exact absurd rfl (hi u)
  all_goals obtain ⟨hk, rfl⟩ := h
  case amdCfg u => exact { hs with amd := forall_mem_put hs.amd fun _ => cornerCoeff_poleOk_of_check hN hc hk }
  case amdRun u => exact { hs with amd := forall_mem_put hs.amd (forall_mem_pick hs.amd u) }
  case demCfg u => exact { hs with dem := forall_mem_put hs.dem fun _ => tauAlpha_poleOk_of_check hN hk }
  case demRun u => exact { hs with dem := forall_mem_put hs.dem (forall_mem_pick hs.dem u) }
  case agcCfg u =>
    exact { hs with agc := forall_mem_put hs.agc fun _ => ⟨tauAlpha_poleOk_of_check hN hk, toReal_zero.ge⟩ }
  case agcRun u => exact { hs with agc := forall_mem_put hs.agc (agcBlock_poleOk hN _ _ _ (forall_mem_pick hs.agc u)) }
  case dcbCfg u => exact { hs with dcb := forall_mem_put hs.dcb fun _ => tauAlpha_poleOk_of_check hN hk }
  case dcbRun u => exact { hs with dcb := forall_mem_put hs.dcb (forall_mem_pick hs.dcb u) }
  -- by the laws of State: unfolding both sides would compare the computed RI with the old one
  case genLpk u => refine poleInv_congr hs ?_ ?_ ?_ ?_ <;> simp [genLpkEffect]
  case cdsRun u => refine poleInv_congr hs ?_ ?_ ?_ ?_ <;> simp [cdsRunEffect]
  all_goals exact poleInv_congr hs rfl rfl rfl rfl

theorem init_poleInv (c : Params) : (State.init c).PoleInv where
  amd := forall_mem_replicate nofun
  dem := forall_mem_replicate nofun
  agc := forall_mem_replicate nofun
  dcb := forall_mem_replicate nofun

/-- Settles O55: every coefficient stored is `1 - exp(x)` with `x < 0`, and an AGC's average only ever mixes magnitudes. -/
theorem stepKeepsPoles : Obligations.StepKeepsPoles := by
  refine kept_of_units _
    (fun _ _ ht ⟨hN, hc, hs⟩ => ⟨ht.cfg ▸ hN, ht.cfg ▸ hc, poleInv_congr hs ht.amd ht.dem ht.agc ht.dcb⟩)
    (fun s ⟨hN, hc, _⟩ => ⟨hN, hc, init_poleInv s.cfg⟩) (fun s i v ⟨hN, hc, hs⟩ h hi => ?_)
  have hcfg := (runs_sameControl h hi).cfg
  exact ⟨hcfg ▸ hN, hcfg ▸ hc, runs_poleInv hN hc hs h hi⟩

/-! The complex input block of FMD.RUN and AMD.RUN -/

theorem iqBlock_eq (s : State) : s.iqBlock =
    (List.range (s.arg 2)).map fun n => (s.readSM (s.arg 0 + n), s.readSM (s.arg 1 + n)) :=
  List.zip_map' ..

theorem iqBlock_getElem {s : State} {n : Nat} (hn : n < s.iqBlock.length) :
    s.iqBlock[n] = (s.readSM (s.arg 0 + n), s.readSM (s.arg 1 + n)) := by
  simp [iqBlock_eq]

/-! FMD.CFG (R88) and FMD.RUN (R89) -/

/-- Settles O15: the number checked and stored is the profile's constant for P0. -/
theorem fmdCfgResult : Obligations.FmdCfgResult := by
  intro u s dev
  refine ⟨fun hN => toReal_paramNum hN 0, faults_badUnit_or rfl not_lt.symm fun hv hx => ?_⟩
  rw [fmdCfgCheck_eq] at hx
  exact faults_or hv hx fun _ hx => faults_or hv hx fun _ hx => exec_completes hv hx

/-- Each output compares a sample with the one before it, the unit's for the first; the last sample, or the unit's for an empty
block, is left (R89). -/
theorem discriminateBlock_eq (N : Profile) (Kf : Num) (xs : List (Num × Num)) : ∀ prev : Num × Num,
    discriminateBlock N Kf prev xs = (List.zipWith (discriminate N Kf) (prev :: xs) xs, xs.getLastD prev) := by
  induction xs with
  | nil => exact fun _ => rfl
  | cons x xs ih => exact fun _ => by simp only [discriminateBlock, ih, List.zipWith_cons_cons, List.getLastD_cons]

/-- The phase step from `(ip, qp)` to a sample, scaled (R89). -/
theorem toReal_discriminate (Kf : Num) (prev x : Num × Num) : (discriminate .exact Kf prev x).toReal =
    realAtan2 (x.2.toReal * prev.1.toReal - x.1.toReal * prev.2.toReal)
      (x.1.toReal * prev.1.toReal + x.2.toReal * prev.2.toReal) * Kf.toReal := by
  simp [discriminate]

theorem toReal_fmdScale (U : FmdUnit) : (fmdScale .exact U).toReal = U.R / (2 * Real.pi * U.maxDev.toReal) := by
  rw [fmdScale, toReal_div, toReal_nat, toReal_mul, toReal_twoPi]

/-- The sample FMD.RUN keeps (R89). -/
theorem discriminateBlock_iqBlock_last (N : Profile) (Kf ip qp : Num) (s : State) :
    (discriminateBlock N Kf (ip, qp) s.iqBlock).2 =
      (if s.arg 2 = 0 then ip else s.readSM (s.arg 0 + (s.arg 2 - 1)),
        if s.arg 2 = 0 then qp else s.readSM (s.arg 1 + (s.arg 2 - 1))) := by
  rw [discriminateBlock_eq, iqBlock_eq]
  cases s.arg 2 with
  | zero => rfl
  | succ L => simp [List.range_succ]

/-- Output `n` of FMD.RUN is the phase step to sample `n` from the one before (R89). -/
theorem realAt_discriminateBlock_iqBlock {N : Profile} (hN : N = .exact) (Kf ip qp : Num) {s : State} {n : Nat} (hn : n < s.arg 2) :
    let I := s.sample (s.arg 0)
    let Q := s.sample (s.arg 1)
    let i1 := if n = 0 then ip.toReal else I (n - 1)
    let q1 := if n = 0 then qp.toReal else Q (n - 1)
    realAt (discriminateBlock N Kf (ip, qp) s.iqBlock).1 n =
      realAtan2 (Q n * i1 - I n * q1) (I n * i1 + Q n * q1) * Kf.toReal := by
  subst hN
  have hlen : n < s.iqBlock.length := hn.trans_eq (iqBlock_length s).symm
  rw [discriminateBlock_eq, realAt_getElem _ _ (by simp [hlen]), List.getElem_zipWith, toReal_discriminate, iqBlock_getElem]
  cases n with
  | zero => rfl
  | succ n =>
    rw [List.getElem_cons_succ, iqBlock_getElem]
    rfl

/-- Settles O16: the machine's block pairs every sample with its predecessor. -/
theorem fmdRunResult : Obligations.FmdRunResult := by
  intro u s hm U L I Q ip qp
  refine faults_badUnit_or rfl not_lt.symm fun hv hx => ?_
  rw [fmdRunCheck_eq] at hx
  refine faults_or hv hx fun _ hx => faults_or hv hx fun _ hx => ?_
  refine ⟨(fmdRunEffect u s).sm, ?_, ?_⟩
  · rw [exec_completes hv hx]
    dsimp only [fmdRunEffect]
    rw [discriminateBlock_iqBlock_last]
    rfl
  · refine stored_writeBlock hm ((discriminateBlock_length _ _ _ _).trans (iqBlock_length s)) fun hN n hn => ?_
    rw [realAt_discriminateBlock_iqBlock hN _ _ _ hn, State.num, hN, toReal_fmdScale]

/-! AMD.CFG (R90) and AMD.RUN (R91) -/

/-- Settles O17: the one check is the rate, and the coefficient is R90's. -/
theorem amdCfgResult : Obligations.AmdCfgResult := by
  intro u s
  refine faults_badUnit_or rfl not_lt.symm fun hv hx => ?_
  rw [amdCfgCheck_eq] at hx
  refine faults_or hv hx fun _ hx => ⟨_, fun hN => ?_, exec_completes hv hx⟩
  rw [State.num, hN, toReal_cornerCoeff]

/-- The low-pass started one sample later, from the level the first sample leaves. -/
theorem realPole_cons (alpha y0 : ℝ) (x : Nat → ℝ) (n : Nat) :
    realPole alpha y0 x (n + 1) = realPole alpha (y0 + alpha * (x 0 - y0)) (fun i => x (i + 1)) n := by
  induction n with
  | zero => rfl
  | succ n ih => rw [realPole, ih, realPole]

/-- A high-pass block leaves the low-pass of its samples as the level, and each output is its sample less the level after it
(R91, R104). -/
theorem toReal_highPassBlock {N : Profile} (hN : N = .exact) (alpha : Num) (xs : List Num) : ∀ (dc : Num) (x : Nat → ℝ),
    (∀ n < xs.length, realAt xs n = x n) →
    let level := realPole alpha.toReal dc.toReal x
    let r := highPassBlock N alpha dc xs
    r.2.toReal = level xs.length ∧ ∀ n < xs.length, realAt r.1 n = x n - level (n + 1) := by
  subst hN
  induction xs with
  | nil => exact fun _ _ _ => ⟨rfl, nofun⟩
  | cons v xs ih =>
    intro dc x hx level r
    have hv : v.toReal = x 0 := hx 0 (Nat.succ_pos _)
    have hstep (n : Nat) :
        level (n + 1) = realPole alpha.toReal (onePole .exact alpha dc v).toReal (fun i => x (i + 1)) n := by
      rw [toReal_onePole, hv]
      exact realPole_cons _ _ _ n
    obtain ⟨hlevel, hout⟩ := ih (onePole .exact alpha dc v) _ fun n hn => hx (n + 1) (Nat.succ_lt_succ hn)
    refine ⟨hlevel.trans (hstep _).symm, fun n hn => ?_⟩
    rw [hstep]
    cases n with
    | zero => exact (toReal_sub _ _).trans (by rw [hv]; rfl)
    | succ n => exact hout n (Nat.lt_of_succ_lt_succ hn)

/-- The envelope of sample `n` of the block (R91). -/
theorem realAt_envelope_iqBlock {N : Profile} (hN : N = .exact) {s : State} {n : Nat} (hn : n < s.arg 2) :
    realAt (s.iqBlock.map (envelope N)) n =
      Real.sqrt (s.sample (s.arg 0) n * s.sample (s.arg 0) n + s.sample (s.arg 1) n * s.sample (s.arg 1) n) := by
  rw [iqBlock_eq, List.map_map, realAt_map_range _ _ _ hn, hN]
  exact toReal_envelope _

/-- Settles O18: the block the machine filters is the envelope's. -/
theorem amdRunResult : Obligations.AmdRunResult := by
  intro u s hm U L a dc
  refine faults_badUnit_or rfl not_lt.symm fun hv hx => ?_
  rw [amdRunCheck_eq] at hx
  refine faults_or hv hx fun _ hx => faults_or hv hx fun _ hx => ?_
  have hlen : (s.iqBlock.map (envelope s.num)).length = L := (List.length_map _).trans (iqBlock_length s)
  have hblock := fun hN : s.num = .exact => toReal_highPassBlock hN U.alpha (s.iqBlock.map (envelope s.num)) U.dc a
    fun n hn => realAt_envelope_iqBlock hN (hn.trans_eq hlen)
  rw [hlen] at hblock
  exact ⟨_, _, exec_completes hv hx, fun hN => (hblock hN).1,
    stored_writeBlock hm ((highPassBlock_length _ _ _ _).trans hlen) fun hN => (hblock hN).2⟩

/-! The 90-degree kernel (R92), SSB.CFG (R93) and SSB.RUN (R94) -/

/-- The machine's kernel is the kernel of R92. -/
theorem realAt_hilbertKernel {taps n : Nat} (hn : n < taps) : realAt (hilbertKernel .exact taps) n = realHilbert taps n := by
  simp only [hilbertKernel, realAt_map_range _ _ _ hn, realHilbert]
  split
  next => exact toReal_zero
  next =>
    rw [toReal_mul, toReal_hamming_eq (by omega), toReal_div, toReal_mul, toReal_pi, toReal_lit, toReal_lit, Rat.cast_ofNat,
      Rat.cast_intCast]

/-- The kernel of an odd length is antisymmetric: `2/(pi*k)` is odd in `k`, which counts from the middle, the window even. -/
theorem realHilbert_antisymm {taps n : Nat} (ht : taps % 2 = 1) (hn : n < taps) :
    realHilbert taps (taps - 1 - n) = -realHilbert taps n := by
  have hk : ((taps - 1 - n : Nat) : ℤ) - ((taps - 1) / 2 : Nat) = -((n : ℤ) - ((taps - 1) / 2 : Nat)) := by omega
  simp only [realHilbert, hk, realHamming_symm hn, Int.neg_emod_two]
  split
  · exact neg_zero.symm
  · rw [Int.cast_neg, mul_neg, div_neg, neg_mul]

theorem realHilbert_center (taps : Nat) : realHilbert taps ((taps - 1) / 2) = 0 := by
  simp [realHilbert]

/-- Settles O19: the machine's kernel is R92's, whose window is symmetric about the centre. -/
theorem hilbertKernel_spec : Obligations.HilbertKernel := by
  intro taps ht h3 g
  refine ⟨hilbertKernel_length _ _, fun n hn => realAt_hilbertKernel hn, fun n hn => ?_, ?_⟩
  · rw [realAt_hilbertKernel hn, realAt_hilbertKernel (by omega), realHilbert_antisymm ht hn, neg_neg]
  · rw [realAt_hilbertKernel (by omega), realHilbert_center]

/-- Settles O20: the one check is the sideband. -/
theorem ssbCfgResult : Obligations.SsbCfgResult := by
  intro u s
  refine faults_badUnit_or rfl not_lt.symm fun hv hx => ?_
  rw [ssbCfgCheck_eq] at hx
  exact faults_or hv hx fun _ hx => exec_completes hv hx

theorem toReal_ssbSign (sb : Nat) : (ssbSign .exact sb).toReal = if sb = 1 then 1 else -1 := by
  unfold ssbSign
  split <;> simp [toReal_rat]

/-- The convolution with the 90-degree kernel is the sum of R94. -/
theorem toReal_conv_hilbertKernel (taps : Nat) (W : List Num) (n : Nat) : (conv .exact (hilbertKernel .exact taps) W n).toReal =
    ∑ k ∈ Finset.range taps, realHilbert taps k * realAt W (taps - 1 + n - k) := by
  rw [toReal_conv_eq taps _ _ _ (hilbertKernel_length _ _), realConv]
  exact Finset.sum_congr rfl fun k hk => by rw [realAt_hilbertKernel (Finset.mem_range.mp hk)]

/-- Settles O21: each output is the rule's, with the kernel of R92. -/
theorem ssbRunResult : Obligations.SsbRunResult := by
  intro u s hm U L WI WQ sgn taps
  refine faults_badUnit_or rfl not_lt.symm fun hv hx => ?_
  rw [ssbRunCheck_eq] at hx
  refine faults_or hv hx fun _ hx => faults_or hv hx fun _ hx =>
    ⟨_, exec_completes hv hx, stored_writeBlock hm ((List.length_map _).trans List.length_range) fun hN n hn => ?_⟩
  rw [realAt_map_range _ _ _ hn, ssbSample, State.num, hN, toReal_add, toReal_mul, toReal_ssbSign, toReal_conv_hilbertKernel]
  rfl

end Sys2Proof.Machine
end

section
/-! The statements about the stereo separator: what each command answers, and the pilot loop over a block. -/

namespace Sys2Proof.Machine

/-! STS.CFG (R96) -/

/-- Settles O22: the one check compares the rate with `4 * PILOT_HZ`, and each constant of the unit is the rule's formula. -/
theorem stsCfgResult : Obligations.StsCfgResult := by
  intro u s c R wn kd rate limit
  refine ⟨fun hN => ⟨?_, toReal_pilotLimit hN⟩, faults_badUnit_or rfl not_lt.symm fun hv hx => ?_⟩
  · dsimp only [rate]
    rw [hN, toReal_nat]
  rw [stsCfgCheck_eq] at hx
  refine faults_or hv hx fun _ hx => ⟨stsConfigured c (s.arg 0), fun hN => ?_, ⟨rfl, rfl, rfl, rfl, rfl, rfl, rfl⟩,
    exec_completes hv hx⟩
  simp only [stsConfigured, hN, toReal_cornerCoeff, toReal_tauAlpha, toReal_div, toReal_mul, toReal_sub, toReal_add, toReal_twoPi,
    toReal_lit, toReal_nat, Rat.cast_ofNat]
  exact ⟨rfl, rfl, rfl, rfl, rfl, rfl, rfl⟩

/-! The pilot loop (R97) -/

/-- A block moves the loop variables of its unit and keeps everything else. -/
theorem pilotBlock_frame (N : Profile) (xs : List Num) : ∀ U : StsUnit,
    let V := (pilotBlock N U xs).2
    V = { U with theta := V.theta, w := V.w, e := V.e, a := V.a } := by
  induction xs with
  | nil => exact fun _ => rfl
  | cons x xs ih => exact fun U => ih (pilotStep N U x)

/-- One sample of the machine is one turn of the rule's loop. -/
theorem pilotLoop_one (U : StsUnit) {v : Num} {x : Nat → ℝ} (hv : v.toReal = x 0) :
    pilotLoop U x 1 = pilotLoop (pilotStep .exact U v) (fun i => x (i + 1)) 0 := by
  simp [pilotLoop, pilotStep, toReal_rat, hv]

/-- The loop started one sample later, from the unit the first sample leaves: the loop's constants are the same. -/
theorem pilotLoop_cons (U : StsUnit) {v : Num} {x : Nat → ℝ} (hv : v.toReal = x 0) (n : Nat) :
    pilotLoop U x (n + 1) = pilotLoop (pilotStep .exact U v) (fun i => x (i + 1)) n := by
  induction n with
  | zero => exact pilotLoop_one U hv
  | succ n ih =>
    rw [pilotLoop, ih]
    rfl

theorem toReal_pilotDiff (U : StsUnit) (v : Num) :
    (pilotDiff .exact U v).toReal = 2 * v.toReal * Real.sin (4 * Real.pi * U.theta.toReal) := by
  simp [pilotDiff, toReal_rat]

/-- A block leaves the loop after its last sample, and each output mixes its sample with twice the phase before it. -/
theorem toReal_pilotBlock {N : Profile} (hN : N = .exact) (xs : List Num) : ∀ (U : StsUnit) (x : Nat → ℝ),
    (∀ n < xs.length, realAt xs n = x n) →
    let r := pilotBlock N U xs
    pilotLoop U x xs.length = { th := r.2.theta.toReal, w := r.2.w.toReal, e := r.2.e.toReal, a := r.2.a.toReal } ∧
    ∀ n < xs.length, realAt r.1 n = 2 * x n * Real.sin (4 * Real.pi * (pilotLoop U x n).th) := by
  subst hN
  induction xs with
  | nil => exact fun _ _ _ => ⟨rfl, nofun⟩
  | cons v xs ih =>
    intro U x hx r
    have hv : v.toReal = x 0 := hx 0 (Nat.succ_pos _)
    obtain ⟨hloop, hout⟩ := ih (pilotStep .exact U v) _ fun n hn => hx (n + 1) (Nat.succ_lt_succ hn)
    refine ⟨(pilotLoop_cons U hv _).trans hloop, fun n hn => ?_⟩
    cases n with
    | zero => exact (toReal_pilotDiff U v).trans (by rw [hv]; rfl)
    | succ n =>
      rw [pilotLoop_cons U hv]
      exact hout n (Nat.lt_of_succ_lt_succ hn)

/-! STS.RUN (R97) -/

theorem realAt_zeros (L n : Nat) : realAt (zeros L) n = 0 := by
  simp [realAt, zeros, toReal_zero]

/-- The mixed block and the unit after the last sample, on the block STS.RUN reads. -/
def State.tracked (s : State) (u : UnitIdx) : List Num × StsUnit := pilotBlock s.num (s.stsUnit u) (s.memRead (s.arg 0) (s.arg 1))

/-- The comparison of the last amplitude with PLL_THRESH. -/
def State.pilotFound (s : State) (u : UnitIdx) : Bool := isGreater (s.tracked u).2.a (Prim.lit s.num s.cfg.pllThresh)

/-- The block STS.RUN writes: zeros without a pilot. -/
def State.pilotOutput (s : State) (u : UnitIdx) : List Num := if s.pilotFound u then (s.tracked u).1 else zeros (s.arg 1)

/-- STS.RUN as one change of the state: of its unit only the loop variables and `found` move. -/
theorem stsRunEffect_eq (u : UnitIdx) (s : State) : stsRunEffect u s =
    let V := (s.tracked u).2
    { s with
      sm := Memory.writeBlock s.epoch s.sm (s.arg 2) (s.pilotOutput u)
      rfFound := s.pilotFound u
      sts := put s.sts u { s.stsUnit u with theta := V.theta, w := V.w, e := V.e, a := V.a, found := s.pilotFound u } } := by
  have hframe := pilotBlock_frame s.num (s.memRead (s.arg 0) (s.arg 1)) (s.stsUnit u)
  rw [stsRunEffect, hframe]
  rfl

/-- The pilot loop over the block STS.RUN reads. -/
theorem toReal_tracked {s : State} (hN : s.cfg.num = .exact) (u : UnitIdx) :
    let r := s.tracked u
    let p := pilotLoop (s.stsUnit u) (s.sample (s.arg 0))
    p (s.arg 1) = { th := r.2.theta.toReal, w := r.2.w.toReal, e := r.2.e.toReal, a := r.2.a.toReal } ∧
    ∀ n < s.arg 1, realAt r.1 n = 2 * s.sample (s.arg 0) n * Real.sin (4 * Real.pi * (p n).th) := by
  have hblock := toReal_pilotBlock hN (s.memRead (s.arg 0) (s.arg 1)) (s.stsUnit u) (s.sample (s.arg 0))
  rw [memRead_length] at hblock
  exact hblock fun n hn => realAt_memRead s _ _ n hn

theorem pilotFound_iff {s : State} (hN : s.cfg.num = .exact) (u : UnitIdx) :
    s.pilotFound u = true ↔ s.cfg.pllThresh < (s.tracked u).2.a.toReal := by
  rw [State.pilotFound, isGreater_iff, State.num, hN, toReal_lit]

theorem pilotOutput_length (s : State) (u : UnitIdx) : (s.pilotOutput u).length = s.arg 1 := by
  unfold State.pilotOutput
  split
  · exact (pilotBlock_length _ _ _).trans (memRead_length _ _ _)
  · exact zeros_length _

theorem realAt_pilotOutput {s : State} (hN : s.cfg.num = .exact) (u : UnitIdx) {n : Nat} (hn : n < s.arg 1) :
    let p := pilotLoop (s.stsUnit u) (s.sample (s.arg 0))
    realAt (s.pilotOutput u) n =
      if s.pilotFound u then 2 * s.sample (s.arg 0) n * Real.sin (4 * Real.pi * (p n).th) else 0 := by
  intro p
  unfold State.pilotOutput
  split
  · obtain ⟨-, hout⟩ := toReal_tracked hN u
    exact hout n hn
  · exact realAt_zeros _ n

/-- Settles O23: the machine's loop is the rule's, sample by sample, and its last amplitude decides `found` for the whole block. -/
theorem stsRunResult : Obligations.StsRunResult := by
  intro u s hm U L x p
  refine faults_badUnit_or rfl not_lt.symm fun hv hx => ?_
  rw [stsRunCheck_eq] at hx
  refine faults_or hv hx fun _ hx => faults_or hv hx fun _ hx => ?_
  have hexec := exec_completes hv hx
  rw [stsRunEffect_eq] at hexec
  refine ⟨_, _, _, _, _, _, hexec, fun hN => ?_,
    stored_writeBlock hm (pilotOutput_length s u) fun hN n hn => realAt_pilotOutput hN u hn⟩
  obtain ⟨hlast, -⟩ := toReal_tracked hN u
  rw [show p L = _ from hlast]
  exact ⟨rfl, rfl, rfl, rfl, pilotFound_iff hN u⟩

end Sys2Proof.Machine
end

section
/-! The statements about de-emphasis, AGC, DC blocker and power meter: what each command answers, and the filters over a block. -/

namespace Sys2Proof.Machine

/-! DEM.CFG (R99), AGC.CFG (R101) and DCB.CFG (R103) -/

/-- What the three CFG commands answer: their shared checks in order, then the state `next` that stores the shared coefficient. -/
theorem tauCfg_answers {i : Instr} {s : State} {effect : State → State} {P : Prop} [Decidable P] {next : Num → State}
    (hx : exec i s = runCommand i s (tauCfgCheck s) effect) (hP : P ↔ ¬ i.ValidFor s.cfg)
    (hnext : (effect s).complete = next (tauAlpha s.num (s.paramNum 0) (s.arg 0))) :
    if P then Faults i s .badUnit
    else if s.paramFinite 0 = false then Faults i s .nonfinite
    else if s.arg 0 < 1 ∨ ¬ 0 < (s.paramNum 0).toReal then Faults i s .badParam
    else ∃ alpha, (s.cfg.num = .exact → alpha.toReal = 1 - Real.exp (-1 / ((s.param 0 : ℝ) * s.arg 0))) ∧
      exec i s = .next (next alpha) := by
  refine faults_badUnit_or hx hP fun hv hx => ?_
  rw [tauCfgCheck_eq] at hx
  refine faults_or hv hx fun _ hx => faults_or hv hx fun _ hx => ⟨_, fun hN => ?_, hnext ▸ exec_completes hv hx⟩
  rw [State.num, hN, toReal_tauAlpha, toReal_paramNum hN]

/-- Settles O24: the three commands share their checks and their coefficient, and differ in the memory they zero. -/
theorem timeConstantCfgResult : Obligations.TimeConstantCfgResult := fun _ _ =>
  ⟨fun hN => toReal_paramNum hN 0, tauCfg_answers rfl not_lt.symm rfl, tauCfg_answers rfl not_lt.symm rfl,
    tauCfg_answers rfl not_lt.symm rfl⟩

/-! The commands in place (R100, R102, R104) -/

/-- What DEM.RUN, AGC.RUN and DCB.RUN answer: their shared checks in order, then the effect. -/
theorem inPlaceRun_answers {i : Instr} {s : State} {effect : State → State} {configured : Bool} {P R : Prop} [Decidable P]
    (hx : exec i s = runCommand i s (inPlaceCheck configured s) effect) (hP : P ↔ ¬ i.ValidFor s.cfg)
    (hR : exec i s = .next (effect s).complete → R) :
    if P then Faults i s .badUnit
    else if configured = false then Faults i s .unconfigured
    else if s.cfg.maxBlock < s.arg 1 ∨ s.cfg.smWords < s.arg 0 + s.arg 1 then Faults i s .range
    else R := by
  refine faults_badUnit_or hx hP fun hv hx => ?_
  rw [inPlaceCheck_eq] at hx
  exact faults_or hv hx fun _ hx => faults_or hv hx fun _ hx => hR (exec_completes hv hx)

/-! DCB.RUN (R104) -/

/-- The high-pass over a block of sample memory. -/
theorem toReal_highPassBlock_memRead {N : Profile} (hN : N = .exact) (alpha dc : Num) (s : State) (a L : Nat) :
    let level := realPole alpha.toReal dc.toReal (s.sample a)
    let r := highPassBlock N alpha dc (s.memRead a L)
    r.2.toReal = level L ∧ ∀ n < L, realAt r.1 n = s.sample a n - level (n + 1) := by
  have hblock := toReal_highPassBlock hN alpha (s.memRead a L) dc (s.sample a)
  rw [memRead_length] at hblock
  exact hblock fun n hn => realAt_memRead s a L n hn

/-- Settles O27: the machine's block is the rule's high-pass of the samples it replaces. -/
theorem dcbRunResult : Obligations.DcbRunResult := by
  intro u s hm U x dc
  refine inPlaceRun_answers rfl not_lt.symm fun hx => ?_
  have hblock := fun hN : s.num = .exact => toReal_highPassBlock_memRead hN U.alpha U.dc s (s.arg 0) (s.arg 1)
  exact ⟨_, _, hx, fun hN => (hblock hN).1,
    stored_writeBlock hm ((highPassBlock_length _ _ _ _).trans (memRead_length _ _ _)) fun hN => (hblock hN).2⟩

/-! DEM.RUN (R100) -/

/-- R104 subtracts from each sample what R100 puts in its place, and both keep the same last level. -/
theorem highPassBlock_eq (N : Profile) (alpha : Num) (xs : List Num) : ∀ y : Num,
    highPassBlock N alpha y xs =
      (List.zipWith (Prim.sub N) xs (lowPassBlock N alpha y xs).1, (lowPassBlock N alpha y xs).2) := by
  induction xs with
  | nil => exact fun _ => rfl
  | cons x xs ih => exact fun _ => by simp only [highPassBlock, lowPassBlock, ih, List.zipWith_cons_cons]

/-- The low-pass over a block of sample memory: each output is the sample less the high-pass output. -/
theorem toReal_lowPassBlock_memRead {N : Profile} (hN : N = .exact) (alpha y : Num) (s : State) (a L : Nat) :
    let level := realPole alpha.toReal y.toReal (s.sample a)
    let r := lowPassBlock N alpha y (s.memRead a L)
    r.2.toReal = level L ∧ ∀ n < L, realAt r.1 n = level (n + 1) := by
  intro level r
  have hlen : r.1.length = L := (lowPassBlock_length _ _ _ _).trans (memRead_length _ _ _)
  obtain ⟨hlast, hout⟩ := toReal_highPassBlock_memRead hN alpha y s a L
  rw [highPassBlock_eq] at hlast hout
  refine ⟨hlast, fun n hn => (sub_right_inj (a := s.sample a n)).mp ?_⟩
  subst hN
  rw [← hout n hn, ← realAt_memRead s a L n hn]
  simp [realAt, hn, hlen, r]

/-- Settles O25: the machine's block is the rule's low-pass of the samples it replaces. -/
theorem demRunResult : Obligations.DemRunResult := by
  intro u s hm U y
  refine inPlaceRun_answers rfl not_lt.symm fun hx => ?_
  have hblock := fun hN : s.num = .exact => toReal_lowPassBlock_memRead hN U.alpha U.y s (s.arg 0) (s.arg 1)
  exact ⟨_, _, hx, fun hN => (hblock hN).1,
    stored_writeBlock hm ((lowPassBlock_length _ _ _ _).trans (memRead_length _ _ _)) fun hN => (hblock hN).2⟩

/-! AGC.RUN (R102) -/

/-- A sample moves the average and the primed bit and keeps everything else. -/
theorem agcTrack_frame (N : Profile) (U : AgcUnit) (m : Num) :
    agcTrack N U m = { U with avg := (agcTrack N U m).avg, primed := (agcTrack N U m).primed } := by
  unfold agcTrack
  split
  · rfl
  · split <;> rfl

theorem agcTrack_configured (N : Profile) (U : AgcUnit) (m : Num) : (agcTrack N U m).configured = U.configured := by
  rw [agcTrack_frame]

theorem agcTrack_alpha (N : Profile) (U : AgcUnit) (m : Num) : (agcTrack N U m).alpha = U.alpha := by
  rw [agcTrack_frame]

/-- A block moves the average and the primed bit of its unit and keeps everything else. -/
theorem agcBlock_frame (N : Profile) (eps : Num) (xs : List Num) : ∀ U : AgcUnit,
    let V := (agcBlock N eps U xs).2
    V = { U with avg := V.avg, primed := V.primed } := by
  induction xs with
  | nil => exact fun _ => rfl
  | cons x xs ih =>
    intro U V
    have hV := ih (agcTrack N U (Prim.abs N x))
    rwa [agcTrack_configured, agcTrack_alpha] at hV

/-- The rule's average and primed bit over the samples `x`, started from a unit's (R102). -/
noncomputable def AgcUnit.average (U : AgcUnit) (x : Nat → ℝ) : Nat → ℝ × Bool :=
  realAgc U.alpha.toReal U.avg.toReal U.primed x

/-- One sample of the machine is one step of the rule, in each of its three cases. -/
theorem average_one (U : AgcUnit) {m : Num} {x : Nat → ℝ} (hm : m.toReal = |x 0|) :
    U.average x 1 = (agcTrack .exact U m).average (fun i => x (i + 1)) 0 := by
  simp only [AgcUnit.average, realAgc, ← hm, ← isPos_iff, agcTrack]
  split
  · simp only [toReal_onePole, *]
  · split <;> rfl

/-- The average started one sample later, from the unit the first sample leaves. -/
theorem average_cons (U : AgcUnit) {m : Num} {x : Nat → ℝ} (hm : m.toReal = |x 0|) (n : Nat) :
    U.average x (n + 1) = (agcTrack .exact U m).average (fun i => x (i + 1)) n := by
  induction n with
  | zero => exact average_one U hm
  | succ n ih =>
    rw [AgcUnit.average, realAgc, ← AgcUnit.average, ih, AgcUnit.average, realAgc, agcTrack_alpha]

/-- A block leaves the average after its last sample, and each output divides its sample by the average after it (R102). -/
theorem toReal_agcBlock {N : Profile} (hN : N = .exact) (eps : Num) (xs : List Num) : ∀ (U : AgcUnit) (x : Nat → ℝ),
    (∀ n < xs.length, realAt xs n = x n) →
    let r := agcBlock N eps U xs
    U.average x xs.length = (r.2.avg.toReal, r.2.primed) ∧
    ∀ n < xs.length, realAt r.1 n = x n / max (U.average x (n + 1)).1 eps.toReal := by
  subst hN
  induction xs with
  | nil => exact fun _ _ _ => ⟨rfl, nofun⟩
  | cons v xs ih =>
    intro U x hx r
    have hv : v.toReal = x 0 := hx 0 (Nat.succ_pos _)
    have hm : (Prim.abs .exact v).toReal = |x 0| := by rw [toReal_abs, hv]
    obtain ⟨hlast, hout⟩ := ih (agcTrack .exact U (Prim.abs .exact v)) _ fun n hn => hx (n + 1) (Nat.succ_lt_succ hn)
    refine ⟨(average_cons U hm _).trans hlast, fun n hn => ?_⟩
    rw [average_cons U hm]
    cases n with
    | zero => exact (toReal_div _ _).trans (by rw [toReal_max, hv]; rfl)
    | succ n => exact hout n (Nat.lt_of_succ_lt_succ hn)

/-- The normalised block and the unit after the last sample, on the block AGC.RUN reads. -/
def State.normalised (s : State) (u : UnitIdx) : List Num × AgcUnit :=
  agcBlock s.num (Prim.lit s.num s.cfg.agcEps) (s.agcUnit u) (s.memRead (s.arg 0) (s.arg 1))

/-- AGC.RUN as one change of the state: of its unit only the average and the primed bit move. -/
theorem agcRunEffect_eq (u : UnitIdx) (s : State) : agcRunEffect u s =
    let V := (s.normalised u).2
    { s with
      sm := Memory.writeBlock s.epoch s.sm (s.arg 0) (s.normalised u).1
      agc := put s.agc u { s.agcUnit u with avg := V.avg, primed := V.primed } } := by
  have hframe := agcBlock_frame s.num (Prim.lit s.num s.cfg.agcEps) (s.memRead (s.arg 0) (s.arg 1)) (s.agcUnit u)
  rw [agcRunEffect, hframe]
  rfl

/-- The average over the block AGC.RUN reads, and the samples divided by it. -/
theorem toReal_normalised {s : State} (hN : s.cfg.num = .exact) (u : UnitIdx) :
    let r := s.normalised u
    let p := (s.agcUnit u).average (s.sample (s.arg 0))
    p (s.arg 1) = (r.2.avg.toReal, r.2.primed) ∧
    ∀ n < s.arg 1, realAt r.1 n = s.sample (s.arg 0) n / max (p (n + 1)).1 s.cfg.agcEps := by
  have hblock := toReal_agcBlock hN (Prim.lit s.num s.cfg.agcEps) (s.memRead (s.arg 0) (s.arg 1)) (s.agcUnit u)
    (s.sample (s.arg 0))
  have heps : (Prim.lit s.num s.cfg.agcEps).toReal = s.cfg.agcEps := by rw [State.num, hN, toReal_lit]
  rw [memRead_length, heps] at hblock
  exact hblock fun n hn => realAt_memRead s _ _ n hn

/-- Settles O26: the machine's average is the rule's, sample by sample, and each sample is divided by the average it has moved. -/
theorem agcRunResult : Obligations.AgcRunResult := by
  intro u s hm U L x p
  refine inPlaceRun_answers rfl not_lt.symm fun hx => ?_
  rw [agcRunEffect_eq] at hx
  refine ⟨_, _, _, hx, fun hN => ?_,
    stored_writeBlock hm ((agcBlock_length _ _ _ _).trans (memRead_length _ _ _)) fun hN => (toReal_normalised hN u).2⟩
  obtain ⟨hlast, -⟩ := toReal_normalised hN u
  rw [show p L = _ from hlast]
  exact ⟨rfl, rfl⟩

/-! PWR.RUN (R105) and PWR.SNR (R106) -/

/-- The mean power of the complex input block, 0 for an empty one (R105). -/
theorem toReal_meanPower_iqBlock (s : State) :
    let N := s.arg 2
    let I := s.sample (s.arg 0)
    let Q := s.sample (s.arg 1)
    (meanPower .exact s.iqBlock).toReal = if N = 0 then 0 else (∑ n ∈ Finset.range N, (I n * I n + Q n * Q n)) / N := by
  intro N I Q
  rw [meanPower, iqBlock_length]
  split
  · exact toReal_zero
  · rw [toReal_div, toReal_nat, iqBlock_eq, List.map_map, toReal_sum_range]
    simp only [Function.comp_apply, toReal_squareMagnitude]
    rfl

/-- Settles O28: the number in RV is the rule's mean. -/
theorem pwrRunResult : Obligations.PwrRunResult := by
  intro u s N I Q
  refine faults_badUnit_or rfl unit_ne_zero fun hv hx => ?_
  rw [pwrRunCheck_eq] at hx
  refine faults_or hv hx fun _ hx => ⟨meanPower s.num s.iqBlock, exec_completes hv hx, fun hN => ?_⟩
  rw [State.num, hN]
  exact toReal_meanPower_iqBlock s

/-- In every profile a zero total power gives 0 (R106). -/
theorem toReal_snr_of_zero (N : Profile) (pf bw : Num) {pt : Num} (rate : Nat) (h : pt.toReal = 0) :
    (snr N pf bw pt rate).toReal = 0 := by
  rw [snr, if_pos (isZero_iff pt |>.mpr h), toReal_zero]

/-- R106's formula. -/
theorem toReal_snr (pf bw pt : Num) (rate : Nat) : (snr .exact pf bw pt rate).toReal =
    if pt.toReal = 0 then 0 else (pf.toReal * rate / bw.toReal) / pt.toReal := by
  split
  next h => exact toReal_snr_of_zero _ pf bw rate h
  next h => rw [snr, if_neg (mt (isZero_iff pt).mp h), toReal_div, toReal_div, toReal_mul, toReal_nat]

/-- Settles O29: the numbers checked and combined are the profile's constants for P0, P1 and P2. -/
theorem pwrSnrResult : Obligations.PwrSnrResult := by
  intro u s pf bw pt
  refine ⟨fun hN => ⟨toReal_paramNum hN 0, toReal_paramNum hN 1, toReal_paramNum hN 2⟩,
    faults_badUnit_or rfl unit_ne_zero fun hv hx => ?_⟩
  rw [pwrSnrCheck_eq] at hx
  refine faults_or hv hx fun _ hx => faults_or hv hx fun _ hx =>
    ⟨snr s.num (s.paramNum 0) (s.paramNum 1) (s.paramNum 2) (s.arg 0), exec_completes hv hx, toReal_snr_of_zero _ _ _ _,
      fun hN => ?_⟩
  rw [State.num, hN]
  exact toReal_snr _ _ _ _

end Sys2Proof.Machine
end

section
/-! The statements about the control commands, the engine's step and the host's writes to STATUS and CMD. -/

namespace Sys2Proof.Machine

/-! Every command answers (R112, R115) -/

/-- Whatever its checks say, a command answers a next state. -/
theorem exists_runCommand_next (i : Instr) (s : State) (check : Option Cause) (effect : State → State) :
    ∃ t, runCommand i s check effect = .next t := by
  unfold runCommand
  split <;> exact ⟨_, rfl⟩

theorem exists_exec_next (i : Instr) (s : State) : ∃ t, exec i s = .next t := by
  cases i <;> exact exists_runCommand_next _ _ _ _

/-- The effect of a command but SRST leaves FOVF alone, as the rest of the fault record (`runs_sameControl`). -/
theorem runs_fovf {i : Instr} {s v : State} (h : Instr.Runs i s v) (hi : ∀ u, i ≠ .srst u) : v.fovf = s.fovf := by
  cases i
  case nop u => exact congrArg State.fovf h
  case srst u => exact absurd rfl (hi u)
  all_goals obtain ⟨-, rfl⟩ := h
  case genLpk u => simp [genLpkEffect]
  case cdsRun u => simp [cdsRunEffect]
  all_goals rfl

/-- Settles O35: a command that does not fault completes with its effect, and no effect but SRST's writes the fault record. -/
theorem commandFaultsOrCompletes : Obligations.CommandFaultsOrCompletes := by
  intro i s
  obtain ⟨t, ht⟩ := exists_exec_next i s
  refine ⟨t, ht, ?_⟩
  rcases exec_cases ht with ⟨c, hc, rfl⟩ | ⟨hw, v, hv, rfl⟩
  · exact ⟨rfl, rfl, .inl ⟨c, hc, rfl⟩⟩
  · refine ⟨rfl, rfl, .inr ?_⟩
    by_cases hi : i = .srst 0#6
    · exact .inr hi
    · have hi := ne_srst_of_validFor hw hi
      have hc := runs_sameControl hv hi
      exact .inl ⟨hc.fault, hc.cause, hc.fcmd, hc.faddr, runs_fovf (v := v) hv hi⟩

/-! NOP and SRST (R107, R108) -/

/-- Settles O1: NOP has no check but that of its unit. -/
theorem nopResult : Obligations.NopResult := fun _ _ =>
  faults_badUnit_or rfl unit_ne_zero fun hv hx => exec_completes hv hx

/-- After a reset command STATUS shows DONE and nothing else. -/
theorem softReset_complete_statusWord (s : State) : s.softReset.complete.statusWord = 4#32 := by
  simp [State.statusWord, State.init, bit, Cause.code]

/-- After a reset command neither interrupt is enabled (R122). -/
theorem softReset_complete_irq (s : State) : s.softReset.complete.irq = false := by
  simp [State.irq, State.init]

/-- Settles O2: on unit 0 SRST completes with the soft reset, which keeps sample memory. -/
theorem srstResult : Obligations.SrstResult := by
  intro u s
  exact faults_badUnit_or rfl unit_ne_zero fun hv hx => ⟨s.softReset.complete, exec_completes hv hx, rfl,
    softReset_complete_statusWord s, softReset_complete_irq s, fun _ => rfl⟩

/-! The engine's and the host's steps (R57, R109, R110, R112) -/

/-- A busy engine that moves next executes the command its pending word decodes to. -/
theorem step_decoded {s t : State} {i : Instr} (hb : s.busy = true) (ht : s.EngineNext t) (hi : decode s.pending = .ok i) :
    step s = exec i t := by
  rw [step_of_engineNext hb ht, engineStep_encode (by rw [pending_of_engineNext ht, decode_eq_ok_iff.mp hi])]

/-- An event listed next is the step it asks for, at the state without it (log 9). -/
theorem step_event {s : State} {e : Event} {es : List Event} (h : s.events = e :: es) :
    step s = eventStep e { s with events := es } := by
  simp [step, h]

/-- Settles O33: the engine moves next in both of its cases, and a bus access is the event it is listed as. -/
theorem stepRunsDecodedCommand : Obligations.StepRunsDecodedCommand :=
  ⟨fun _ _ hb hi => ⟨fun he => step_decoded hb (.inl ⟨he, rfl⟩) hi, fun es he => step_decoded hb (.inr ⟨es, he, rfl⟩) hi⟩,
    fun _ _ _ _ _ he => step_event he, fun _ _ _ _ he => step_event he⟩

/-! Writes to STATUS and CMD (R109, R111, R120) -/

theorem addresses_status : Addresses 0x000008#24 .status := by decide

theorem addresses_cmd : Addresses 0x000004#24 .cmd := by decide

/-- Settles O39: the write is `StatusW1C`, for which BUSY is no condition. -/
theorem statusWriteClears : Obligations.StatusWriteClears := by
  intro s v
  rw [hostWrite_reg addresses_status]
  exact statusW1C_eq s v

/-- Settles O40: while BUSY = 1 the write is refused as that of any other register, otherwise it is `CmdWrite`. -/
theorem cmdWriteAccepts : Obligations.CmdWriteAccepts := by
  intro s w
  rw [hostWrite_reg addresses_cmd]
  cases hb : s.busy
  case true => exact regWrite_busy hb (by decide) _ w
  case false => simp [State.regWrite, hb, State.cmdWrite, srstWord]

end Sys2Proof.Machine
end

section
/-! The statements about faults and interrupts: what a faulting command records, that no step stops the machine, and the level of
IRQ. -/

namespace Sys2Proof.Machine

/-! A command's fault (R112, R119) -/

/-- Settles O34: `State.recordFault` chooses by FAULT, and both of its branches are then completed. -/
theorem faultRecording : Obligations.FaultRecording := by
  intro s c w
  unfold State.faulted State.recordFault
  split <;> rfl

/-! No step stops the machine (R57, R112, R119) -/

/-- An idle engine's turn changes nothing (R112). -/
theorem engineTurn_idle {s : State} (hb : s.busy = false) : engineTurn s = .next s := by
  simp [engineTurn, hb]

/-- A busy engine answers a next state: a word that is no command faults, and every command answers. -/
theorem exists_engineStep_next (s : State) : ∃ t, engineStep s = .next t := by
  cases h : decode s.pending with
  | ok i =>
    rw [engineStep_encode (decode_eq_ok_iff.mp h)]
    exact exists_exec_next i s
  | error r => exact ⟨_, engineStep_reject h⟩

theorem exists_engineTurn_next (s : State) : ∃ t, engineTurn s = .next t := by
  cases hb : s.busy with
  | false => exact ⟨s, engineTurn_idle hb⟩
  | true =>
    rw [engineTurn, if_pos hb]
    exact exists_engineStep_next s

theorem exists_eventStep_next (e : Event) (s : State) : ∃ t, eventStep e s = .next t := by
  cases e with
  | write | read | hardReset => exact ⟨_, rfl⟩
  | engine => exact exists_engineTurn_next s

/-- With no event left the step is the engine's turn (log 9). -/
theorem step_noEvent {s : State} (h : s.events = []) : step s = engineTurn s := by
  simp [step, h]

theorem exists_step_next (s : State) : ∃ t, step s = .next t := by
  cases h : s.events with
  | nil =>
    rw [step_noEvent h]
    exact exists_engineTurn_next s
  | cons e es =>
    rw [step_event h]
    exact exists_eventStep_next e _

/-- No step writes the parameters: a reset keeps them, and no effect of another command touches them (R7). -/
theorem step_cfg {s t : State} (h : step s = .next t) : t.cfg = s.cfg :=
  kept_of_units (fun v => v.cfg = s.cfg) (fun _ _ hsame hcfg => hsame.cfg.trans hcfg) (fun _ hcfg => hcfg)
    (fun _ _ _ hcfg hruns hi => (runs_sameControl hruns hi).cfg.trans hcfg) s t rfl h

/-- Settles O36: an idle engine's turn, whether it is listed or no event is left, answers the state it stands at. -/
theorem everyStepAnswersNext : Obligations.EveryStepAnswersNext := by
  refine ⟨fun s => ?_, fun s hb => ⟨fun he => ?_, fun es he => ?_⟩⟩
  · obtain ⟨t, ht⟩ := exists_step_next s
    exact ⟨t, ht, step_cfg ht⟩
  · rw [step_noEvent he, engineTurn_idle hb]
  · rw [step_event he]
    exact engineTurn_idle hb

/-! IRQ (R120, R122) -/

theorem irq_iff (s : State) : s.irq = true ↔ (s.fault = true ∧ s.fie = true) ∨ (s.done = true ∧ s.die = true) := by
  simp [State.irq]

/-- A write of 0xD to STATUS clears the fault record, DONE and FOVF together (R120). -/
theorem hostWrite_status_clearAll (s : State) : s.hostWrite 0x000008#24 32 0x0000000D#32 =
    { s with fault := false, cause := .none, fcmd := 0#32, faddr := 0#32, done := false, fovf := false } :=
  statusWriteClears s 0x0000000D#32

/-- With FAULT and DONE cleared no interrupt is left, enabled or not (R122). -/
theorem hostWrite_status_clearAll_irq (s : State) : (s.hostWrite 0x000008#24 32 0x0000000D#32).irq = false := by
  simp [hostWrite_status_clearAll, State.irq]

/-- Only BUSY outlives the clear of STATUS, and it is 0 once a command has completed. -/
theorem hostWrite_status_clearAll_statusWord {s : State} (hb : s.busy = false) :
    (s.hostWrite 0x000008#24 32 0x0000000D#32).statusWord = 0#32 := by
  simp [hostWrite_status_clearAll, State.statusWord, hb, bit, Cause.code]

/-- Settles O49: a completion sets DONE and leaves BUSY = 0, and no command but SRST writes the interrupt enables. -/
theorem irqFollowsCompletion : Obligations.IrqFollowsCompletion := by
  refine ⟨irq_iff, fun i s t h hi => ?_⟩
  obtain ⟨_, ht, hbusy, hdone, -⟩ := commandFaultsOrCompletes i s
  obtain rfl := Host.Outcome.next.inj (ht.symm.trans h)
  obtain ⟨-, -, hfie, hdie, -⟩ := resultRegistersWritten i s _ h hi
  refine ⟨?_, hostWrite_status_clearAll_irq _, hostWrite_status_clearAll_statusWord hbusy⟩
  rw [State.irq, hdone, hfie, hdie, Bool.true_and]

end Sys2Proof.Machine
end

section
/-! The statements about resets and hazards: a command writes no unit but its own, and what a reset leaves behind. -/

namespace Sys2Proof.Machine

/-! The units a command writes (R133) -/

/-- Every unit that differs between `s` and `t` is one that command `i` addresses and that `i`'s kind of command writes. -/
structure Instr.WritesOwnUnit (i : Instr) (s t : State) : Prop where
  fir : ∀ v, t.firUnit v ≠ s.firUnit v → i = .firSetk v ∨ i = .firRun v ∨ i = .firLoad v ∨ i = .firClr v :=
    by exact fun _ hne => absurd rfl hne
  shf : ∀ v, t.shfUnit v ≠ s.shfUnit v → i = .shfCfg v ∨ i = .shfRun v := by exact fun _ hne => absurd rfl hne
  rds : ∀ v, t.rdsUnit v ≠ s.rdsUnit v → i = .rdsCfg v ∨ i = .rdsRun v := by exact fun _ hne => absurd rfl hne
  cds : ∀ v, t.cdsUnit v ≠ s.cdsUnit v → i = .cdsCfg v ∨ i = .cdsRun v := by exact fun _ hne => absurd rfl hne
  fmd : ∀ v, t.fmdUnit v ≠ s.fmdUnit v → i = .fmdCfg v ∨ i = .fmdRun v := by exact fun _ hne => absurd rfl hne
  amd : ∀ v, t.amdUnit v ≠ s.amdUnit v → i = .amdCfg v ∨ i = .amdRun v := by exact fun _ hne => absurd rfl hne
  ssb : ∀ v, t.ssbUnit v ≠ s.ssbUnit v → i = .ssbCfg v ∨ i = .ssbRun v := by exact fun _ hne => absurd rfl hne
  sts : ∀ v, t.stsUnit v ≠ s.stsUnit v → i = .stsCfg v ∨ i = .stsRun v := by exact fun _ hne => absurd rfl hne
  dem : ∀ v, t.demUnit v ≠ s.demUnit v → i = .demCfg v ∨ i = .demRun v := by exact fun _ hne => absurd rfl hne
  agc : ∀ v, t.agcUnit v ≠ s.agcUnit v → i = .agcCfg v ∨ i = .agcRun v := by exact fun _ hne => absurd rfl hne
  dcb : ∀ v, t.dcbUnit v ≠ s.dcbUnit v → i = .dcbCfg v ∨ i = .dcbRun v := by exact fun _ hne => absurd rfl hne

/-- The only slot that a write to slot `u` can change is slot `u`. -/
theorem eq_of_pick_put_ne {α : Type} {w : Vector α unitSlots} {u v : UnitIdx} {x : α}
    (h : pick (put w u x) v ≠ pick w v) : u = v :=
  not_ne_iff.mp fun hne => h (pick_put_other w u v x hne.symm)

/-! What each state operation of an effect writes: a unit's slot by the setter of its kind, memory and results beside the units -/

section

variable {i : Instr} {s t : State} {u : UnitIdx}

theorem setFir_writesOwnUnit {x : FirUnit} (h : i = .firSetk u ∨ i = .firRun u ∨ i = .firLoad u ∨ i = .firClr u) :
    Instr.WritesOwnUnit i s (s.setFir u x) := { fir := fun _ hne => eq_of_pick_put_ne hne ▸ h }

theorem setShf_writesOwnUnit {x : ShfUnit} (h : i = .shfCfg u ∨ i = .shfRun u) :
    Instr.WritesOwnUnit i s (s.setShf u x) := { shf := fun _ hne => eq_of_pick_put_ne hne ▸ h }

theorem setRds_writesOwnUnit {x : RdsUnit} (h : i = .rdsCfg u ∨ i = .rdsRun u) :
    Instr.WritesOwnUnit i s (s.setRds u x) := { rds := fun _ hne => eq_of_pick_put_ne hne ▸ h }

theorem setCds_writesOwnUnit {x : CdsUnit} (h : i = .cdsCfg u ∨ i = .cdsRun u) :
    Instr.WritesOwnUnit i s (s.setCds u x) := { cds := fun _ hne => eq_of_pick_put_ne hne ▸ h }

theorem setFmd_writesOwnUnit {x : FmdUnit} (h : i = .fmdCfg u ∨ i = .fmdRun u) :
    Instr.WritesOwnUnit i s (s.setFmd u x) := { fmd := fun _ hne => eq_of_pick_put_ne hne ▸ h }

theorem setAmd_writesOwnUnit {x : AmdUnit} (h : i = .amdCfg u ∨ i = .amdRun u) :
    Instr.WritesOwnUnit i s (s.setAmd u x) := { amd := fun _ hne => eq_of_pick_put_ne hne ▸ h }

theorem setSsb_writesOwnUnit {x : SsbUnit} (h : i = .ssbCfg u ∨ i = .ssbRun u) :
    Instr.WritesOwnUnit i s (s.setSsb u x) := { ssb := fun _ hne => eq_of_pick_put_ne hne ▸ h }

theorem setSts_writesOwnUnit {x : StsUnit} (h : i = .stsCfg u ∨ i = .stsRun u) :
    Instr.WritesOwnUnit i s (s.setSts u x) := { sts := fun _ hne => eq_of_pick_put_ne hne ▸ h }

theorem setDem_writesOwnUnit {x : DemUnit} (h : i = .demCfg u ∨ i = .demRun u) :
    Instr.WritesOwnUnit i s (s.setDem u x) := { dem := fun _ hne => eq_of_pick_put_ne hne ▸ h }

theorem setAgc_writesOwnUnit {x : AgcUnit} (h : i = .agcCfg u ∨ i = .agcRun u) :
    Instr.WritesOwnUnit i s (s.setAgc u x) := { agc := fun _ hne => eq_of_pick_put_ne hne ▸ h }

theorem setDcb_writesOwnUnit {x : DcbUnit} (h : i = .dcbCfg u ∨ i = .dcbRun u) :
    Instr.WritesOwnUnit i s (s.setDcb u x) := { dcb := fun _ hne => eq_of_pick_put_ne hne ▸ h }

theorem memWrite_writesOwnUnit {a : Nat} {vs : List Num} (h : Instr.WritesOwnUnit i s t) :
    Instr.WritesOwnUnit i s (t.memWrite a vs) := { h with }

theorem setRI_writesOwnUnit {n : Nat} (h : Instr.WritesOwnUnit i s t) : Instr.WritesOwnUnit i s (t.setRI n) := { h with }

theorem setRF_writesOwnUnit {b : Bool} (h : Instr.WritesOwnUnit i s t) : Instr.WritesOwnUnit i s (t.setRF b) := { h with }

end

/-- Each effect but SRST's writes at most the slot of its own kind that the command's UNIT field names. -/
theorem runs_writesOwnUnit {i : Instr} {s v : State} (h : Instr.Runs i s v) (hi : ∀ u, i ≠ .srst u) :
    Instr.WritesOwnUnit i s v := by
  cases i
  case nop u => obtain rfl := h; exact {}
  case srst u => exact absurd rfl (hi u)
  all_goals obtain ⟨-, rfl⟩ := h
  case genLpk => exact setRI_writesOwnUnit (memWrite_writesOwnUnit {})
  case firGet | firGdly | pwrRun | pwrSnr => exact {}
  case firSetk => exact setFir_writesOwnUnit (.inl rfl)
  case firRun => exact memWrite_writesOwnUnit (setFir_writesOwnUnit (.inr (.inl rfl)))
  case firLoad => exact setFir_writesOwnUnit (.inr (.inr (.inl rfl)))
  case firClr => exact setFir_writesOwnUnit (.inr (.inr (.inr rfl)))
  case shfCfg => exact setShf_writesOwnUnit (.inl rfl)
  case shfRun => exact memWrite_writesOwnUnit (memWrite_writesOwnUnit (setShf_writesOwnUnit (.inr rfl)))
  case rdsCfg => exact setRds_writesOwnUnit (.inl rfl)
  case rdsRun => exact setRI_writesOwnUnit (memWrite_writesOwnUnit (setRds_writesOwnUnit (.inr rfl)))
  case cdsCfg => exact setCds_writesOwnUnit (.inl rfl)
  case cdsRun =>
    exact setRI_writesOwnUnit (memWrite_writesOwnUnit (memWrite_writesOwnUnit (setCds_writesOwnUnit (.inr rfl))))
  case fmdCfg => exact setFmd_writesOwnUnit (.inl rfl)
  case fmdRun => exact memWrite_writesOwnUnit (setFmd_writesOwnUnit (.inr rfl))
  case amdCfg => exact setAmd_writesOwnUnit (.inl rfl)
  case amdRun => exact memWrite_writesOwnUnit (setAmd_writesOwnUnit (.inr rfl))
  case ssbCfg => exact setSsb_writesOwnUnit (.inl rfl)
  case ssbRun => exact memWrite_writesOwnUnit (setSsb_writesOwnUnit (.inr rfl))
  case stsCfg => exact setSts_writesOwnUnit (.inl rfl)
  case stsRun => exact setRF_writesOwnUnit (memWrite_writesOwnUnit (setSts_writesOwnUnit (.inr rfl)))
  case demCfg => exact setDem_writesOwnUnit (.inl rfl)
  case demRun => exact memWrite_writesOwnUnit (setDem_writesOwnUnit (.inr rfl))
  case agcCfg => exact setAgc_writesOwnUnit (.inl rfl)
  case agcRun => exact memWrite_writesOwnUnit (setAgc_writesOwnUnit (.inr rfl))
  case dcbCfg => exact setDcb_writesOwnUnit (.inl rfl)
  case dcbRun => exact memWrite_writesOwnUnit (setDcb_writesOwnUnit (.inr rfl))

/-- A fault writes no unit (R119). -/
theorem faulted_writesOwnUnit (i : Instr) (s : State) (c : Cause) (w : Word) : Instr.WritesOwnUnit i s (s.faulted c w) := by
  unfold State.faulted State.recordFault
  split <;> exact {}

/-- A command but SRST writes no unit other than its own, whether it faults or completes. -/
theorem exec_writesOwnUnit {i : Instr} {s t : State} (h : exec i s = .next t) (hi : i ≠ .srst 0#6) :
    Instr.WritesOwnUnit i s t := by
  rcases exec_cases h with ⟨c, _, rfl⟩ | ⟨hw, x, hx, rfl⟩
  · exact faulted_writesOwnUnit i s c (encode i)
  · exact { runs_writesOwnUnit hx (ne_srst_of_validFor hw hi) with }

/-- Settles O38: the command's unit is the only slot its effect writes, and a fault writes none. -/
theorem otherUnitsUntouched : Obligations.OtherUnitsUntouched := fun _ _ _ v h hi =>
  have ho := exec_writesOwnUnit h hi
  ⟨ho.fir v, ho.shf v, ho.rds v, ho.cds v, ho.fmd v, ho.amd v, ho.ssb v, ho.sts v, ho.dem v, ho.agc v, ho.dcb v⟩

/-! The hardware reset (R130, R131) -/

theorem step_hardReset {s : State} {es : List Event} (h : s.events = .hardReset :: es) :
    step s = .next (State.hardReset { s with events := es }) := step_event h

/-- After reset every flag of STATUS, CTRL and RF reads 0. -/
theorem hardReset_flagWords (s : State) :
    s.hardReset.statusWord = 0#32 ∧ s.hardReset.ctrlWord = 0#32 ∧ s.hardReset.rfWord = 0#32 := by
  simp [State.statusWord, State.ctrlWord, State.rfWord, State.init, bit, Cause.code]

theorem hardReset_irq (s : State) : s.hardReset.irq = false := by
  simp [State.irq, State.init]

/-- No written word outlives the reset: each holds its unspecified number of the new epoch (log 6). -/
theorem hardReset_readSM (s : State) (a : Nat) : s.hardReset.readSM a = .held (s.epoch + 1) a := rfl

/-- Each slot of each kind holds its kind's reset value (R31 to R41). -/
theorem hardReset_units (s : State) (v : UnitIdx) :
    s.hardReset.firUnit v = FirUnit.reset ∧ s.hardReset.shfUnit v = ShfUnit.reset ∧ s.hardReset.rdsUnit v = RdsUnit.reset ∧
    s.hardReset.cdsUnit v = CdsUnit.reset ∧ s.hardReset.fmdUnit v = FmdUnit.reset ∧ s.hardReset.amdUnit v = AmdUnit.reset ∧
    s.hardReset.ssbUnit v = SsbUnit.reset s.cfg ∧ s.hardReset.stsUnit v = StsUnit.reset ∧
    s.hardReset.demUnit v = DemUnit.reset ∧ s.hardReset.agcUnit v = AgcUnit.reset ∧ s.hardReset.dcbUnit v = DcbUnit.reset :=
  ⟨pick_replicate _ v, pick_replicate _ v, pick_replicate _ v, pick_replicate _ v, pick_replicate _ v, pick_replicate _ v,
    pick_replicate _ v, pick_replicate _ v, pick_replicate _ v, pick_replicate _ v, pick_replicate _ v⟩

/-- Settles O50: the event answers `State.hardReset`, and each register and unit of it has its reset value. -/
theorem hardResetState : Obligations.HardResetState := by
  intro s es h
  obtain ⟨hstatus, hctrl, hrf⟩ := hardReset_flagWords { s with events := es }
  refine ⟨_, step_hardReset h, rfl, hstatus, hctrl, hrf, hardReset_irq _, fun i => ?_, fun i => ?_, rfl, rfl, rfl, rfl,
    fun v => ?_, hardReset_readSM _⟩
  · simp [State.init]
  · simp [State.init]
  · obtain ⟨hfir, hshf, hrds, hcds, hfmd, hamd, hssb, hsts, hdem, hagc, hdcb⟩ := hardReset_units { s with events := es } v
    rw [hfir, hshf, hrds, hcds, hfmd, hamd, hssb, hsts, hdem, hagc, hdcb]
    exact ⟨rfl, rfl, rfl, rfl, rfl, rfl, rfl, rfl, rfl, rfl, rfl, rfl⟩

/-! The invariants after reset (R7, R131) -/

/-- The values of R7 are legal (R45, log 15). -/
theorem legal_wrsDsp : Config.wrsDsp.Legal where
  units := by decide
  window := by decide
  block := by decide
  taps := by decide
  hilbert := by decide
  positive := by simp [Config.wrsDsp]

/-- Settles O56: reset meets each invariant for every record, as the base case of the proof that every step keeps it. -/
theorem resetMeetsInvariants : Obligations.ResetMeetsInvariants := by
  refine ⟨fun c => ⟨rfl, init_wf c, init_delayInv c, Nat.zero_le _, init_faultInv c, init_phaseInv c, init_ncoInv c,
    init_poleInv c⟩, rfl, legal_wrsDsp, ?_⟩
  norm_num [Config.wrsDsp]

end Sys2Proof.Machine
end
